-- ==== Sys2Proof/Word.lean ====
section
/-! DEFINITION. The word types: a command or host register word, a byte on the SPI wire, a radio
register address (R61: 7 bits), a tuning word (R9 TW_WIDTH). -/

namespace Sys2Proof

/-- A 32-bit value: a command word (R90) or a host register (R31). -/
abbrev Word := BitVec 32

/-- A byte of a transaction, of BUF, or of a radio register (R62). -/
abbrev Byte := BitVec 8

/-- A radio register address, 0x00..0x7F (R61). -/
abbrev RegAddr := BitVec 7

/-- A 24-bit tuning word (R163). -/
abbrev TuneWord := BitVec 24

end Sys2Proof
end

