-- ==== Sys2Proof/Syntax.lean ====
section
/-! DEFINITION. The commands, one constructor per row of the opcode map (R95), and the operating modes
they name (R140). Operands have exactly the widths of the command word's fields (R91), so every value
of `Instr` is a command the block has; the raw, checkable form is `AsmLine` in WellFormed.lean. -/

namespace Sys2Proof

/-- OperatingMode (R140): the source's enumeration, in its order. -/
inductive OpMode where
  | sleep
  | standby
  | transmit
  | receiveContinuous
deriving DecidableEq, Repr

/-- The block's commands (R95). -/
inductive Instr where
  /-- NOP (R110). -/
  | nop
  /-- RDREG a (R111): read one radio register. -/
  | rdreg (a : RegAddr)
  /-- WRREG a, d (R112): write one radio register. -/
  | wrreg (a : RegAddr) (d : Byte)
  /-- RDBURST a, n (R113): read n bytes in one transaction into BUF. -/
  | rdburst (a : RegAddr) (n : Byte)
  /-- WRBURST a, n (R115): write n bytes of BUF in one transaction. -/
  | wrburst (a : RegAddr) (n : Byte)
  /-- SETMODE m (R141): write the operating-mode register with the LR bit forced. -/
  | setmode (m : OpMode)
  /-- CALCFREQ (R161): tuning word of FREQ into TUNE. -/
  | calcfreq
  /-- SETFREQ (R164): tuning word of FREQ into TUNE and to the radio, MSB first. -/
  | setfreq
  /-- SERVICE (R185): run the completion detector once. -/
  | service
  /-- CLRFLAGS m (R190): clear sticky bits. -/
  | clrflags (m : BitVec 4)
deriving DecidableEq, Repr

end Sys2Proof
end

