-- ==== Sys2Proof/WellFormed.lean ====
section
/-! DEFINITION. Well-formedness of commands. `Instr` has operands of exactly the fields' widths, so all
its values are well formed (log 26); what can be ill formed is a line of the assembler syntax of R98,
whose operands are numbers: "an operand outside its range is an assembly error, not an encoding". -/

namespace Sys2Proof

/-- One line of R98's syntax, with its operands as the plain numbers written. -/
inductive AsmLine where
  | nop
  | rdreg (a : Nat)
  | wrreg (a d : Nat)
  | rdburst (a n : Nat)
  | wrburst (a n : Nat)
  | setmode (m : OpMode)
  | calcfreq
  | setfreq
  | service
  | clrflags (m : Nat)
deriving DecidableEq, Repr

/-- A number that fits the 7-bit ADDR field (R91, R98). -/
def AsmLine.addrFits (a : Nat) : Bool := decide (a ≤ 0x7F)

/-- A number that fits an 8-bit field, DATA or LEN (R91, R98). -/
def AsmLine.byteFits (d : Nat) : Bool := decide (d ≤ 255)

/-- A number that fits CLRFLAGS' mask DATA[3:0] (R92, R98). -/
def AsmLine.maskFits (m : Nat) : Bool := decide (m ≤ 15)

/-- The operands are in the ranges R98 gives. -/
def AsmLine.wf : AsmLine → Bool
  | .nop => true
  | .rdreg a => AsmLine.addrFits a
  | .wrreg a d => AsmLine.addrFits a && AsmLine.byteFits d
  | .rdburst a n => AsmLine.addrFits a && AsmLine.byteFits n
  | .wrburst a n => AsmLine.addrFits a && AsmLine.byteFits n
  | .setmode _ => true
  | .calcfreq => true
  | .setfreq => true
  | .service => true
  | .clrflags m => AsmLine.maskFits m

/-- The command a line's numbers name, before the range check. -/
def AsmLine.raw : AsmLine → Instr
  | .nop => .nop
  | .rdreg a => .rdreg (BitVec.ofNat 7 a)
  | .wrreg a d => .wrreg (BitVec.ofNat 7 a) (BitVec.ofNat 8 d)
  | .rdburst a n => .rdburst (BitVec.ofNat 7 a) (BitVec.ofNat 8 n)
  | .wrburst a n => .wrburst (BitVec.ofNat 7 a) (BitVec.ofNat 8 n)
  | .setmode m => .setmode m
  | .calcfreq => .calcfreq
  | .setfreq => .setfreq
  | .service => .service
  | .clrflags m => .clrflags (BitVec.ofNat 4 m)

/-- Assembling a line: the command, or none for an assembly error (R98). -/
def AsmLine.assemble (l : AsmLine) : Option Instr := if l.wf then some l.raw else none

/-- The line that is written for a command (R98). -/
def Instr.line : Instr → AsmLine
  | .nop => .nop
  | .rdreg a => .rdreg a.toNat
  | .wrreg a d => .wrreg a.toNat d.toNat
  | .rdburst a n => .rdburst a.toNat n.toNat
  | .wrburst a n => .wrburst a.toNat n.toNat
  | .setmode m => .setmode m
  | .calcfreq => .calcfreq
  | .setfreq => .setfreq
  | .service => .service
  | .clrflags m => .clrflags m.toNat

end Sys2Proof
end

