-- ==== Sys2Proof/Decode.lean ====
section
/-! DEFINITION. The command word: its fields (R90, R91), the opcode map (R95), decoding, total on all
2^32 words (R93), and the encoder, written from the same format. -/

namespace Sys2Proof

/-! ### Fields of the format CW (R90) -/

/-- `OPC`, bits [31:28]. -/
def fieldOpc (w : Word) : BitVec 4 := w.extractLsb' 28 4

/-- `MODE`, bits [25:24]. -/
def fieldMode (w : Word) : BitVec 2 := w.extractLsb' 24 2

/-- `ADDR`, bits [22:16]. -/
def fieldAddr (w : Word) : RegAddr := w.extractLsb' 16 7

/-- `LEN`, bits [15:8]. -/
def fieldLen (w : Word) : Byte := w.extractLsb' 8 8

/-- `DATA`, bits [7:0]. -/
def fieldData (w : Word) : Byte := w.extractLsb' 0 8

/-- CLRFLAGS' mask, `DATA[3:0]` (R92). -/
def fieldMask (w : Word) : BitVec 4 := w.extractLsb' 0 4

/-- The block's own two-bit encoding of a mode (R91, R140). -/
def modeSelector : OpMode → BitVec 2
  | .sleep => 0#2
  | .standby => 1#2
  | .transmit => 2#2
  | .receiveContinuous => 3#2

/-- The mode a two-bit selector names (R91, R140). -/
def modeOfSelector (m : BitVec 2) : OpMode :=
  if m = 0#2 then .sleep
  else if m = 1#2 then .standby
  else if m = 2#2 then .transmit
  else .receiveContinuous

/-! ### Opcode map and decoding -/

/-- One row of R95: a word `w` selects it when `(w & mask) = pattern`; `build` assembles the operands
(R91). -/
structure OpRow where
  pattern : Word
  mask : Word
  build : Word → Instr

/-- The opcode map of R95, row by row. -/
def opcodeMap : List OpRow :=
  [ ⟨0x00000000#32, 0xFFFFFFFF#32, fun _ => .nop⟩,
    ⟨0x10000000#32, 0xFF80FFFF#32, fun w => .rdreg (fieldAddr w)⟩,
    ⟨0x20000000#32, 0xFF80FF00#32, fun w => .wrreg (fieldAddr w) (fieldData w)⟩,
    ⟨0x30000000#32, 0xFF8000FF#32, fun w => .rdburst (fieldAddr w) (fieldLen w)⟩,
    ⟨0x40000000#32, 0xFF8000FF#32, fun w => .wrburst (fieldAddr w) (fieldLen w)⟩,
    ⟨0x50000000#32, 0xFCFFFFFF#32, fun w => .setmode (modeOfSelector (fieldMode w))⟩,
    ⟨0x60000000#32, 0xFFFFFFFF#32, fun _ => .calcfreq⟩,
    ⟨0x70000000#32, 0xFFFFFFFF#32, fun _ => .setfreq⟩,
    ⟨0x80000000#32, 0xFFFFFFFF#32, fun _ => .service⟩,
    ⟨0x90000000#32, 0xFFFFFFF0#32, fun w => .clrflags (fieldMask w)⟩ ]

/-- Why a word is Illegal (R242): a reserved opcode 0xA-0xF, or an assigned opcode with a nonzero bit
in a field its row does not use. -/
inductive IllegalCause where
  | reservedOpcode
  | nonzeroUnusedField
deriving DecidableEq, Repr

/-- What a word decodes to (R93). -/
inductive Decoded where
  | command (i : Instr)
  | illegal (cause : IllegalCause)
deriving DecidableEq, Repr

/-- Names the cause of an Illegal word (R96, R242). -/
def illegalCause (w : Word) : IllegalCause :=
  if 0xA#4 ≤ fieldOpc w then .reservedOpcode else .nonzeroUnusedField

/-- `w` selects the row (R95). -/
def OpRow.selects (r : OpRow) (w : Word) : Bool := (w &&& r.mask) == r.pattern

/-- Decoding, total on all words (R93). -/
def decode (w : Word) : Decoded :=
  match opcodeMap.find? (fun r => r.selects w) with
  | some r => .command (r.build w)
  | none => .illegal (illegalCause w)

/-! ### Encoding -/

/-- A word of the format CW from its fields, `RSVA` and `RSVB` zero (R90, R92). -/
def packWord (opc : BitVec 4) (mode : BitVec 2) (addr : RegAddr) (len data : Byte) : Word :=
  (opc.setWidth 32 <<< 28) ||| (mode.setWidth 32 <<< 24) ||| (addr.setWidth 32 <<< 16) |||
    (len.setWidth 32 <<< 8) ||| data.setWidth 32

/-- The word of a command (R95, R98). -/
def encode : Instr → Word
  | .nop => packWord 0x0#4 0#2 0#7 0#8 0#8
  | .rdreg a => packWord 0x1#4 0#2 a 0#8 0#8
  | .wrreg a d => packWord 0x2#4 0#2 a 0#8 d
  | .rdburst a n => packWord 0x3#4 0#2 a n 0#8
  | .wrburst a n => packWord 0x4#4 0#2 a n 0#8
  | .setmode m => packWord 0x5#4 (modeSelector m) 0#7 0#8 0#8
  | .calcfreq => packWord 0x6#4 0#2 0#7 0#8 0#8
  | .setfreq => packWord 0x7#4 0#2 0#7 0#8 0#8
  | .service => packWord 0x8#4 0#2 0#7 0#8 0#8
  | .clrflags m => packWord 0x9#4 0#2 0#7 0#8 (m.setWidth 8)

/-- The command a decoded word names, if any. -/
def Decoded.instr? : Decoded → Option Instr
  | .command i => some i
  | .illegal _ => none

/-- The command word the opcode table's bits give: bits at and above `nbits` are zero. -/
def tableWord (nbits w : Nat) : Word := BitVec.ofNat 32 (w % 2 ^ nbits)

/-- The command the decoder reads from a word numbered as spec/opcode_table.json numbers its bits. -/
def decodeTableWord (nbits w : Nat) : Option Instr := (decode (tableWord nbits w)).instr?

/-- Assembling a line to its word (R98). -/
def AsmLine.word (l : AsmLine) : Option Word := l.assemble.map encode

end Sys2Proof
end

