-- ==== Sys2Proof/Config.lean ====
section
/-! DEFINITION. The implementation parameters of R9-R15: the constants the source fixes, the parameters
it leaves open (structure `Params`, carried in the state's `cfg`: log 4), the check a configuration must
pass (`Params.wf`, R246(2)), the defaults, and the free values (opaque, no body: log 2, 3, 14). -/

namespace Sys2Proof

/-! ### Constants the source fixes (R9) -/

/-- `FXOSC`, the divisor of the tuning formula, in Hz (R9). -/
def Config.fxosc : Nat := 32000000

/-- `FRF_SHIFT` (R9). -/
def Config.frfShift : Nat := 19

/-- `TW_WIDTH`, the bits of a tuning word (R9). -/
def Config.twWidth : Nat := 24

/-- `MAX_LEN`, the largest payload and burst (R9). -/
def Config.maxLen : Nat := 255

/-- `RSSI_OFFSET` (R9). -/
def Config.rssiOffset : Int := 157

/-- `LR_BIT`, the long-range bit of a mode byte (R9). -/
def Config.lrBit : Byte := 0x80#8

/-- `RESET_ASSERT_MIN`, in time-units (R9). -/
def Config.resetAssertMin : Nat := 10

/-- `RESET_WAIT_MIN`, in time-units (R9). -/
def Config.resetWaitMin : Nat := 10

/-- `TX_TIMEOUT`, in time-units: the source's example, a host parameter (R9). -/
def Config.txTimeout : Nat := 5000

/-- The size of the host register window in bytes (R31). -/
def Config.windowSize : Nat := 0x200

/-- `IRQ_CLEAR_ALL` (R13), derived from write-1-to-clear (R65). -/
def Config.irqClearAll : Byte := 0xFF#8

/-! ### Parameters (R10-R14) -/

/-- Which transport backend is built (R6); no rule reads it (R117). -/
inductive Backend where
  | hwSpi
  | bitbang
deriving DecidableEq, Repr

/-- Which transition of `dio0` is an edge (R14, R181). -/
inductive IrqEdge where
  | rising
  | falling
deriving DecidableEq, Repr

/-- The radio register numbers of R10, by the source's names. The numbers are plain naturals so that a
number outside 0..0x7F can be written down and refused (R246(2)). -/
structure RadioRegs where
  fifo : Nat
  opMode : Nat
  frfMsb : Nat
  paConfig : Nat
  lna : Nat
  fifoAddrPtr : Nat
  fifoTxBase : Nat
  fifoRxBase : Nat
  fifoRxCurrent : Nat
  irqMask : Nat
  irqFlags : Nat
  rxNbBytes : Nat
  rssi : Nat
  modemCfg1 : Nat
  modemCfg2 : Nat
  preambleMsb : Nat
  preambleLsb : Nat
  payloadLength : Nat
  modemCfg3 : Nat
  dioMapping1 : Nat
  version : Nat
  paDac : Nat
deriving DecidableEq, Repr

/-- Every register number of R10, in the table's order. -/
def RadioRegs.all (r : RadioRegs) : List Nat :=
  [r.fifo, r.opMode, r.frfMsb, r.paConfig, r.lna, r.fifoAddrPtr, r.fifoTxBase, r.fifoRxBase,
   r.fifoRxCurrent, r.irqMask, r.irqFlags, r.rxNbBytes, r.rssi, r.modemCfg1, r.modemCfg2,
   r.preambleMsb, r.preambleLsb, r.payloadLength, r.modemCfg3, r.dioMapping1, r.version, r.paDac]

/-- The implementation parameters a model takes (R10-R14). -/
structure Params where
  /-- Radio register numbers (R10). -/
  regs : RadioRegs
  /-- `MODE_CODE(Sleep)` (R11). -/
  codeSleep : Nat
  /-- `MODE_CODE(Standby)` (R11). -/
  codeStandby : Nat
  /-- `MODE_CODE(Transmit)` (R11). -/
  codeTransmit : Nat
  /-- `MODE_CODE(ReceiveContinuous)` (R11). -/
  codeReceive : Nat
  /-- `BIT_RXDONE` (R12). -/
  bitRxDone : Nat
  /-- `BIT_CRCERR` (R12). -/
  bitCrcErr : Nat
  /-- `BIT_TXDONE` (R12). -/
  bitTxDone : Nat
  /-- `VERSION_EXPECTED` (R13). -/
  versionExpected : Byte
  /-- `DIO0_TXDONE` (R13). -/
  dio0TxDone : Byte
  /-- `DIO0_RXDONE` (R13). -/
  dio0RxDone : Byte
  /-- `IRQ_UNMASK_ALL` (R13). -/
  irqUnmaskAll : Byte
  /-- `BACKEND` (R14); read by no rule. -/
  backend : Backend
  /-- `XFER_CAN_FAIL` (R14, R19). -/
  xferCanFail : Bool
  /-- `HAS_RESET_LINE` (R14, R50). -/
  hasResetLine : Bool
  /-- `SPI_MODE` (R14); not modelled. -/
  spiMode : Nat
  /-- `SCK_DIV` (R14); timing only. -/
  sckDiv : Nat
  /-- `BIT_DELAY` (R14); timing only. -/
  bitDelay : Nat
  /-- `IRQ_EDGE` (R14, R181). -/
  irqEdge : IrqEdge
  /-- `SYNC_STAGES` (R14, R182). -/
  syncStages : Nat
  /-- `MOSI_FILL` (R14, R66). -/
  mosiFill : Byte
  /-- `HOST_BASE`, where the platform puts the host register window (R31, R74, R256; log 5). -/
  hostBase : Nat
deriving DecidableEq, Repr

/-- R10: every register number is at most 0x7F, and so are the three consecutive tuning registers. -/
def Params.addressesFit (p : Params) : Bool :=
  p.regs.all.all (fun a => decide (a ≤ 0x7F)) && decide (p.regs.frfMsb + 2 ≤ 0x7F)

/-- The four mode codes of R11. -/
def Params.modeCodes (p : Params) : List Nat :=
  [p.codeSleep, p.codeStandby, p.codeTransmit, p.codeReceive]

/-- R11: each code is at most 0x7F and the four are pairwise distinct. -/
def Params.modeCodesFit (p : Params) : Bool :=
  p.modeCodes.all (fun c => decide (c ≤ 0x7F)) && decide p.modeCodes.Nodup

/-- The three IRQ-flag bit positions of R12. -/
def Params.irqBits (p : Params) : List Nat := [p.bitRxDone, p.bitCrcErr, p.bitTxDone]

/-- R12: each position is in 0..7 and the three are distinct. -/
def Params.irqBitsFit (p : Params) : Bool :=
  p.irqBits.all (fun b => decide (b ≤ 7)) && decide p.irqBits.Nodup

/-- The ranges R14 gives the block's own parameters (log 16). -/
def Params.rangesFit (p : Params) : Bool :=
  decide (p.spiMode ≤ 3) && decide (1 ≤ p.sckDiv) && decide (1 ≤ p.bitDelay) && decide (2 ≤ p.syncStages)

/-- A configuration a model may run; any other is refused, not run (R246(2), U11). -/
def Params.wf (p : Params) : Bool :=
  p.addressesFit && p.modeCodesFit && p.irqBitsFit && p.rangesFit

/-- The default column of R10, general knowledge of the SX1276 (I1); PRESUMED, log 4. `ADDR_RSSI` is
OPEN in R10 (0x1A or 0x1B); DESIGN CHOICE, log 5. -/
def RadioRegs.default : RadioRegs where
  fifo := 0x00
  opMode := 0x01
  frfMsb := 0x06
  paConfig := 0x09
  lna := 0x0C
  fifoAddrPtr := 0x0D
  fifoTxBase := 0x0E
  fifoRxBase := 0x0F
  fifoRxCurrent := 0x10
  irqMask := 0x11
  irqFlags := 0x12
  rxNbBytes := 0x13
  rssi := 0x1A
  modemCfg1 := 0x1D
  modemCfg2 := 0x1E
  preambleMsb := 0x20
  preambleLsb := 0x21
  payloadLength := 0x22
  modemCfg3 := 0x26
  dioMapping1 := 0x40
  version := 0x42
  paDac := 0x4D

/-- The defaults of R10-R14. The general-knowledge ones (I1, I3-I6) are PRESUMED (log 4); the OPEN ones
(`backend`, `hasResetLine`, `sckDiv`, `bitDelay`, `hostBase`, `regs.rssi`) are DESIGN CHOICE (log 5);
`xferCanFail` is true because R14 demands it of a model that cannot justify false (log 6). -/
def Params.default : Params where
  regs := RadioRegs.default
  codeSleep := 0x00
  codeStandby := 0x01
  codeTransmit := 0x03
  codeReceive := 0x05
  bitRxDone := 6
  bitCrcErr := 5
  bitTxDone := 3
  versionExpected := 0x12#8
  dio0TxDone := 0x40#8
  dio0RxDone := 0x00#8
  irqUnmaskAll := 0x00#8
  backend := .hwSpi
  xferCanFail := true
  hasResetLine := true
  spiMode := 0
  sckDiv := 1
  bitDelay := 1
  irqEdge := .rising
  syncStages := 2
  mosiFill := 0x00#8
  hostBase := 0

/-- The parameters of the host sequences (R9, R15), bytes and numbers the host supplies; no rule of the
block depends on them. -/
structure HostParams where
  /-- `FREQ_HZ` (R15, R210). -/
  freqHz : Word
  cfgModem1 : Byte
  cfgModem2 : Byte
  cfgModem3 : Byte
  cfgPreambleMsb : Byte
  cfgPreambleLsb : Byte
  cfgLna : Byte
  cfgPaConfig : Byte
  cfgPaDac : Byte
  /-- `TX_TIMEOUT`, in time-units; the source's example unless the host gives another (R9). -/
  txTimeout : Nat := Config.txTimeout
  /-- `TIME_UNIT`, the length of one time-unit in nanoseconds: OPEN (R9, R291, D34; log 29). Every wait and
  deadline counts in time-units, so no rule reads it. -/
  timeUnit : Nat
deriving DecidableEq, Repr

/-! ### Free values (draws, R23): opaque, so no proof can know one of them -/

/-- A byte the radio returns, or the data of a failed read, for which the state holds no answer (R19,
R64, U2, U3). -/
opaque Config.drawByte : Nat → Byte

/-- The `ok` of a transaction for which the state holds no answer, when `XFER_CAN_FAIL` (R19, U5). -/
opaque Config.drawOk : Nat → Bool

/-- The value of a host read while busy (R49, U1). -/
opaque Config.drawWord : Nat → Word

end Sys2Proof
end

