-- ==== Sys2Proof/Machine/State.lean ====
section
/-! DEFINITION. The state: every element of R30, and beside it the model's own fields (the configuration,
the schedule, the radio's answers, the draw counter, the host's read data), as plain data; the reasons a
step stops; and the state right after reset (R270). -/

namespace Sys2Proof.Machine

/-- `RESULT` (R33, R45, R241). The codes 4-7 are never produced (U9), so they have no constructor. -/
inductive ResultCode where
  | ok
  | illegal
  | xferFail
  | freqRange
deriving DecidableEq, Repr

/-- `SVC`, the class of the last SERVICE (R33, R46). -/
inductive SvcClass where
  | none
  | rx
  | tx
  | crc
deriving DecidableEq, Repr

/-- One SPI transaction as TRACE records it (R20): `Rd(a, n, d, ok)` or `Wr(a, v, ok)`. -/
inductive Txn where
  | rd (a : RegAddr) (n : Nat) (d : List Byte) (ok : Bool)
  | wr (a : RegAddr) (v : List Byte) (ok : Bool)
deriving DecidableEq, Repr

/-- What the radio answers to one transaction: whether it completes (used only when `XFER_CAN_FAIL`)
and its MISO data bytes; bytes it does not list are draws (R19, R64; log 2). -/
structure Answer where
  ok : Bool
  miso : List Byte
deriving DecidableEq, Repr

/-- One access on the host bus: its width in bits, its byte offset in the window, and the value written
if it is a write (R70, R71). -/
structure BusAccess where
  width : Nat
  off : Nat
  write : Option Word
deriving DecidableEq, Repr

/-- One move of an agent (R8), or of the reset input (R270); log 1. -/
inductive Input where
  /-- The sequencer performs the latched command, if there is one (R7, R32). -/
  | sequencer
  /-- The same, with a DIO0 edge in the same clock as SERVICE's test-and-clear (R184). -/
  | sequencerWithEdge
  /-- The host accesses the window (R70). -/
  | host (acc : BusAccess)
  /-- The DIO0 source's step `Edge` (R182). -/
  | edge
  /-- An edge while a command is latched, as R78 and R254 have it: the same as one just after that command's step
  (log 32). -/
  | edgeDuring
  /-- One clock of the synchronizer, with the level of `dio0` (R182). -/
  | clock (dio0 : Bool)
  /-- The block's reset input is asserted and released (R270). -/
  | blockReset
deriving DecidableEq, Repr

/-- Cells in the one canonical form: addresses strictly rising, no cell equal to what an unlisted
address reads as. -/
abbrev Memory := List Host.Cell

/-- Why the machine stops with a fault. -/
inductive Fault where
  /-- Raised by a host access that is not 32 bits wide, not at a multiple of 4, or at or above 0x200
  (R71, R246(1), R247). Safe: the spec itself demands a fault here, and the model only stops the other
  agents as well (log 12). -/
  | hostBusError (off : Nat)
deriving DecidableEq, Repr

/-- Why a step has no meaning. -/
inductive Refusal where
  /-- Raised by the arm of an instruction without a meaning; no arm is left so. Safe. -/
  | notModelled (mnemonic : String)
  /-- Raised by every step of a state whose parameters break R10-R12 or the ranges of R14: "a model must
  refuse such a configuration, not run it" (R246(2), U11; log 16). Safe. -/
  | refusedConfiguration
deriving DecidableEq, Repr

/-- The state. The fields up to `trace` are the elements of R30, which are the block's complete state;
the others are the model's own (INVENTORY.md, State). -/
@[ext]
structure State where
  /-- `BUSY` (R48). -/
  busy : Bool
  /-- `CMDL`, the latched command word (R32). -/
  cmdl : Word
  /-- `TXC`, transmitComplete (R40). -/
  txc : Bool
  /-- `RXC`, receiveComplete (R41). -/
  rxc : Bool
  /-- `CRCD`, CRC drop seen (R42). -/
  crcd : Bool
  /-- `IRQP`, interruptPending (R43). -/
  irqp : Bool
  /-- `SYNC[1..SYNC_STAGES]`, stage 1 first (R182). -/
  sync : List Bool
  /-- `EPREV` (R182). -/
  eprev : Bool
  /-- `MODE`, currentMode (R44). -/
  mode : OpMode
  /-- `MVALID` (R44). -/
  mvalid : Bool
  /-- `RESULT` (R45). -/
  result : ResultCode
  /-- `SVC` (R46). -/
  svc : SvcClass
  /-- `OVR` (R47). -/
  ovr : Bool
  /-- `RADIO_RST` (R34). -/
  radioRst : Bool
  /-- `POLLEN` (R34). -/
  pollen : Bool
  /-- `RDATA` (R35). -/
  rdata : Byte
  /-- `LASTFLAGS` (R36). -/
  lastFlags : Byte
  /-- `FREQ` (R37). -/
  freq : Word
  /-- `TUNE` (R39). -/
  tune : TuneWord
  /-- `BUF[0..255]` (R38). -/
  buf : Memory
  /-- `CS_N` (R66, R67); true is deasserted. -/
  csN : Bool
  /-- `TRACE`, oldest first (R20); recorded, never read to decide a step. -/
  trace : List Txn
  /-- The implementation parameters (R9-R14); configuration, which no step changes (R53; log 4). -/
  cfg : Params
  /-- What the agents do next, oldest first (R8; log 1). -/
  inputs : List Input
  /-- The radio's answers to the next transactions, oldest first (R19, R64; log 2). -/
  radio : List Answer
  /-- The model's own counter that the free values are applied to (R23 draw; log 3). -/
  draws : Nat
  /-- The data the last host read returned (R70; log 10). -/
  busData : Option Word
  /-- An edge that R78 and R254 put just after the latched command's step: at the end of that step it sets IRQP
  (log 32). -/
  edgeHeld : Bool
deriving DecidableEq, Repr

/-- The machine right after reset (R270, the reset column of R30), in the default configuration (log 4,
5, 6), with nothing scheduled, no answer of the radio given and no edge deferred (log 1, 2, 3, 10, 32). -/
def State.reset : State where
  busy := false
  cmdl := 0x00000000#32
  txc := false
  rxc := false
  crcd := false
  irqp := false
  sync := [false, false]
  eprev := false
  mode := .sleep
  mvalid := false
  result := .ok
  svc := .none
  ovr := false
  radioRst := false
  pollen := true
  rdata := 0x00#8
  lastFlags := 0x00#8
  freq := 0x00000000#32
  tune := 0x000000#24
  buf := []
  csN := true
  trace := []
  cfg := Params.default
  inputs := []
  radio := []
  draws := 0
  busData := none
  edgeHeld := false

end Sys2Proof.Machine
end

