-- ==== Sys2Proof/Machine/Ops.lean ====
section
/-! DEFINITION. The named operations over the state: BUF's cells, one SPI transaction (R19, R66-R68), how a
command ends (R21, R22: the block's form of taking an exception; there is no return from one, R251), the
test-and-clear of IRQP (R79), and the block's reset (R270). -/

namespace Sys2Proof.Machine

/-! ### Cells (BUF, and the reference radio's registers and FIFO) -/

/-- What a byte that no cell lists reads as: the reset contents of BUF (R30). -/
def unlistedByte : Byte := 0x00#8

/-- Reads one byte. -/
def Memory.read : Memory → Nat → Byte
  | [], _ => unlistedByte
  | (k, v) :: rest, a => if k = a then v else Memory.read rest a

/-- Writes one byte, keeping the canonical form. -/
def Memory.write : Memory → Nat → Byte → Memory
  | [], a, b => if b = unlistedByte then [] else [(a, b)]
  | (k, v) :: rest, a, b =>
    if a < k then (if b = unlistedByte then (k, v) :: rest else (a, b) :: (k, v) :: rest)
    else if a = k then (if b = unlistedByte then rest else (a, b) :: rest)
    else (k, v) :: Memory.write rest a b

/-- Writes the bytes of a list to consecutive addresses, the first at `a`. -/
def Memory.writeBytes : Memory → Nat → List Byte → Memory
  | m, _, [] => m
  | m, a, b :: rest => Memory.writeBytes (Memory.write m a b) (a + 1) rest

/-- Reads `n` consecutive bytes, the first at `a`. -/
def Memory.readBytes (m : Memory) (a n : Nat) : List Byte :=
  (List.range n).map (fun k => Memory.read m (a + k))

/-- The canonical form, with every address at least `lo` and below `hi`. -/
def Memory.wfWithin : Nat → Nat → Memory → Bool
  | _, _, [] => true
  | lo, hi, (k, v) :: rest =>
    decide (lo ≤ k) && decide (k < hi) && (v != unlistedByte) && Memory.wfWithin (k + 1) hi rest

/-- The canonical form of a memory of `size` bytes. -/
def Memory.wf (size : Nat) (m : Memory) : Bool := Memory.wfWithin 0 size m

/-- The size of BUF in bytes (R38). -/
def bufSize : Nat := 256

/-! ### The radio's answers (R19, R64) -/

/-- `ok` of the next transaction: 1 unless `XFER_CAN_FAIL`, and then a draw (R19). -/
def State.answersOk (s : State) : Bool :=
  !s.cfg.xferCanFail ||
    (match s.radio with
     | [] => Config.drawOk s.draws
     | r :: _ => r.ok)

/-- MISO data byte `k` of the next transaction: the radio's answer, or a draw where the state holds
none (R19, R64, U2, U3). -/
def State.misoByte (s : State) (k : Nat) : Byte :=
  match s.radio with
  | [] => Config.drawByte (s.draws + k)
  | r :: _ => (r.miso[k]?).getD (Config.drawByte (s.draws + k))

/-- The `n` MISO data bytes of the next transaction, in order (R66 step 3, R116). -/
def State.misoBytes (s : State) (n : Nat) : List Byte := (List.range n).map s.misoByte

/-! ### One transaction (R19, R66, R67) -/

/-- Step 1 of the frame: `CS_N <- 0` (R66). -/
def State.assertCs (s : State) : State := { s with csN := false }

/-- Steps 2 and 3 of the frame, `n` data bytes: the exchange is recorded in TRACE (R20) and uses up the
radio's answer and the draws it may have taken. -/
def State.exchange (n : Nat) (t : Txn) (s : State) : State :=
  { s with trace := s.trace ++ [t], radio := s.radio.tail, draws := s.draws + n + 1 }

/-- Step 4 of the frame, on every exit path: `CS_N <- 1` (R66, R67). -/
def State.deassertCs (s : State) : State := { s with csN := true }

/-- One whole frame with `n` data bytes (R66). -/
def State.frame (n : Nat) (t : Txn) (s : State) : State := ((s.assertCs).exchange n t).deassertCs

/-- `MemRead(a, n)` (R19): the state after it, `ok`, and the data bytes (draws when `ok` is 0). -/
def State.memRead (a : RegAddr) (n : Nat) (s : State) : State × Bool × List Byte :=
  let ok := s.answersOk
  let d := s.misoBytes n
  (s.frame n (.rd a n d ok), ok, d)

/-- `MemWrite(a, n, v)` with `n` the length of `v` (R19): the state after it and `ok`. -/
def State.memWrite (a : RegAddr) (v : List Byte) (s : State) : State × Bool :=
  let ok := s.answersOk
  (s.frame v.length (.wr a v ok), ok)

/-- One-byte writes one after another, each in a frame of its own, stopping at the first that fails
(R68, R164, R166, R243). -/
def State.writeEach : List (RegAddr × Byte) → State → State × Bool
  | [], s => (s, true)
  | (a, b) :: rest, s =>
    match s.memWrite a [b] with
    | (s', true) => State.writeEach rest s'
    | (s', false) => (s', false)

/-! ### How a command ends (R21, R22, R241, R250, R251) -/

/-- `raise <Condition>` (R21): the result code goes to RESULT and BUSY is cleared. Nothing is saved and
control goes nowhere (R250); the block is idle afterwards, so there is no return (R251). -/
def State.raise (c : ResultCode) (s : State) : State := { s with result := c, busy := false }

/-- The normal end: `RESULT <- OK; BUSY <- 0` (R22). -/
def State.complete (s : State) : State := s.raise .ok

/-- The end of a command whose last transaction answered `ok` (R241, R243). -/
def State.endTransfer (ok : Bool) (s : State) : State :=
  if ok then s.complete else s.raise .xferFail

/-! ### Single registers (R30) -/

/-- RDATA takes a byte (R35). -/
def State.setRdata (b : Byte) (s : State) : State := { s with rdata := b }

/-- LASTFLAGS takes a byte (R36). -/
def State.setLastFlags (b : Byte) (s : State) : State := { s with lastFlags := b }

/-- FREQ takes a word (R37). -/
def State.setFreq (f : Word) (s : State) : State := { s with freq := f }

/-- `OVR <- 1` (R47). -/
def State.setOvr (s : State) : State := { s with ovr := true }

/-- `BUF[a], BUF[a+1], ...` take the bytes of a list (R38, R113). -/
def State.writeBuf (a : Nat) (l : List Byte) (s : State) : State :=
  { s with buf := Memory.writeBytes s.buf a l }

/-! ### IRQP (R43, R79, R182) -/

/-- `IRQP <- 1`, at any time, also while BUSY = 1 (R182); an IRQP that is 1 stays 1. -/
def State.setIrqp (s : State) : State := { s with irqp := true }

/-- An edge that R78 and R254 put just after the latched command's step is held until then; with no command
latched it sets IRQP like any other (log 32). -/
def State.deferEdge (s : State) : State :=
  { s with irqp := s.irqp || !s.busy, edgeHeld := s.edgeHeld || s.busy }

/-- The end of a command's step: a held edge sets IRQP, after SERVICE's clear (R78, R184). -/
def State.releaseEdge (s : State) : State := { s with irqp := s.irqp || s.edgeHeld, edgeHeld := false }

/-- `IRQP <- 0`. -/
def State.clearIrqp (s : State) : State := { s with irqp := false }

/-- SERVICE's atomic test-and-clear: the old value, and the state with IRQP clear (R79, R185). -/
def State.testAndClearIrqp (s : State) : Bool × State := (s.irqp, s.clearIrqp)

/-! ### Block reset (R270, R271) -/

/-- Every element of R30 takes its reset value; the radio, the configuration and what the agents do next
are not the block's and stay (R271; log 13). -/
def State.blockReset (s : State) : State :=
  { s with
    busy := false, cmdl := 0x00000000#32
    txc := false, rxc := false, crcd := false, irqp := false, edgeHeld := false
    sync := List.replicate s.cfg.syncStages false, eprev := false
    mode := .sleep, mvalid := false
    result := .ok, svc := .none, ovr := false
    radioRst := false, pollen := true
    rdata := 0x00#8, lastFlags := 0x00#8, freq := 0x00000000#32, tune := 0x000000#24, buf := []
    csN := true, trace := [] }

/-! ### The schedule (R8; log 1) -/

/-- The agent that moves next; with nothing scheduled it is the sequencer's turn (R76). -/
def State.nextInput (s : State) : Input := s.inputs.headD .sequencer

/-- The state with that move taken from the schedule. -/
def State.popInput (s : State) : State := { s with inputs := s.inputs.tail }

/-- The state with one more move scheduled, before all others. -/
def State.schedule (i : Input) (s : State) : State := { s with inputs := i :: s.inputs }

end Sys2Proof.Machine
end

