-- ==== Sys2Proof/Machine/Operands.lean ====
section
/-! DEFINITION. The operands of the commands beyond the fields of the word: radio register numbers and
mode bytes from the configuration (R10, R11, R142), the burst data in BUF (R91), and the tuning word
of FREQ (R160-R163). -/

namespace Sys2Proof.Machine

/-- `ADDR_OPMODE` as a radio address (R10). -/
def addrOpMode (p : Params) : RegAddr := BitVec.ofNat 7 p.regs.opMode

/-- `ADDR_IRQ_FLAGS` as a radio address (R10). -/
def addrIrqFlags (p : Params) : RegAddr := BitVec.ofNat 7 p.regs.irqFlags

/-- The three consecutive tuning registers: 0 the MSB's, 1 the MID's, 2 the LSB's (R10, R163). -/
def addrFrf (p : Params) (k : Nat) : RegAddr := BitVec.ofNat 7 (p.regs.frfMsb + k)

/-- `MODE_CODE(m)` (R11). -/
def modeCode (p : Params) : OpMode → Nat
  | .sleep => p.codeSleep
  | .standby => p.codeStandby
  | .transmit => p.codeTransmit
  | .receiveContinuous => p.codeReceive

/-- The byte SETMODE writes: `LR_BIT | MODE_CODE(m)` (R141, R142). -/
def modeByte (p : Params) (m : OpMode) : Byte := Config.lrBit ||| BitVec.ofNat 8 (modeCode p m)

/-- `BUF[0..n-1]`, the data operand of WRBURST (R91, R115). -/
def State.burstData (s : State) (n : Nat) : List Byte := Memory.readBytes s.buf 0 n

/-- The tuning function `tw(f)`: exact, floor (R160). The constant factor stands first so that a checker
that unfolds the product of a variable stops at once. -/
def tuningWord (f : Word) : Nat := 2 ^ Config.frfShift * f.toNat / Config.fxosc

/-- The tuning word does not fit in TW_WIDTH = 24 bits (R162, R244). -/
def freqOutOfRange (f : Word) : Bool := decide (2 ^ Config.twWidth ≤ tuningWord f)

/-- The tuning word as the 24 bits TUNE holds (R161). -/
def tuneOf (f : Word) : TuneWord := BitVec.ofNat 24 (tuningWord f)

/-- `MSB = q[23:16]` (R163). -/
def tuneMsb (q : TuneWord) : Byte := q.extractLsb' 16 8

/-- `MID = q[15:8]` (R163). -/
def tuneMid (q : TuneWord) : Byte := q.extractLsb' 8 8

/-- `LSB = q[7:0]` (R163). -/
def tuneLsb (q : TuneWord) : Byte := q.extractLsb' 0 8

/-- The three tuning writes, in the order MSB, MID, LSB (R69, R164). -/
def tuneWrites (p : Params) (q : TuneWord) : List (RegAddr × Byte) :=
  [(addrFrf p 0, tuneMsb q), (addrFrf p 1, tuneMid q), (addrFrf p 2, tuneLsb q)]

end Sys2Proof.Machine
end

