-- ==== Sys2Proof/Machine/Flags.lean ====
section
/-! DEFINITION. The sticky flags and the status word: the IRQ-flag masks (R12), SERVICE's classification
(R186), CLRFLAGS' clearing (R190), the loss of MVALID on a raw mode write (R112, R115), write-1-to-clear
(R65), and STATUS and CTRL as words (R33, R34). -/

namespace Sys2Proof.Machine

/-! ### IRQ flags of the radio (R12, R65) -/

/-- `1 << b` in a byte (R12). -/
def bitMask (b : Nat) : Byte := 1#8 <<< b

/-- `M_RX` (R12). -/
def maskRx (p : Params) : Byte := bitMask p.bitRxDone

/-- `M_CRC` (R12). -/
def maskCrc (p : Params) : Byte := bitMask p.bitCrcErr

/-- `M_TX` (R12). -/
def maskTx (p : Params) : Byte := bitMask p.bitTxDone

/-- Some bit of the mask is set in `v`. -/
def anySet (v mask : Byte) : Bool := (v &&& mask) != 0#8

/-- Write-1-to-clear at the radio's IRQ-flags register: `F <- F & ~v` (R65). -/
def writeOneToClear (f v : Byte) : Byte := f &&& ~~~v

/-! ### Classification (R186) -/

/-- The class of the flags byte `v`: the source's steps 2, 3, 4 in their order (R186). -/
def classOf (p : Params) (v : Byte) : SvcClass :=
  if anySet v (maskRx p) && !anySet v (maskCrc p) then .rx
  else if anySet v (maskTx p) then .tx
  else if anySet v (maskCrc p) then .crc
  else .none

/-- The one sticky flag a class sets, if any, and SVC (R186). -/
def State.recordClass (c : SvcClass) (s : State) : State :=
  match c with
  | .rx => { s with rxc := true, svc := .rx }
  | .tx => { s with txc := true, svc := .tx }
  | .crc => { s with crcd := true, svc := .crc }
  | .none => { s with svc := .none }

/-- `classify(v)` (R186). -/
def State.classify (v : Byte) (s : State) : State := s.recordClass (classOf s.cfg v)

/-- SVC <- NONE (R185: no bus read, or a failed transfer). -/
def State.noService (s : State) : State := { s with svc := .none }

/-! ### Clearing (R190) and losing the mode (R112, R115) -/

/-- CLRFLAGS' effect on the sticky bits (R190). -/
def State.clearSticky (m : BitVec 4) (s : State) : State :=
  { s with
    txc := s.txc && !m.getLsbD 0
    rxc := s.rxc && !m.getLsbD 1
    crcd := s.crcd && !m.getLsbD 2
    ovr := s.ovr && !m.getLsbD 3 }

/-- A raw write of `n` bytes at `a`: MVALID is cleared when it writes ADDR_OPMODE (R112, R115). -/
def State.noteRawWrite (a : RegAddr) (n : Nat) (s : State) : State :=
  { s with mvalid := s.mvalid && !(decide (a = addrOpMode s.cfg) && decide (1 ≤ n)) }

/-! ### STATUS and CTRL as words (R33, R34) -/

/-- The code of RESULT in STATUS[10:8] (R33, R241). -/
def resultBits : ResultCode → BitVec 3
  | .ok => 0#3
  | .illegal => 1#3
  | .xferFail => 2#3
  | .freqRange => 3#3

/-- The code of SVC in STATUS[14:13] (R33). -/
def svcBits : SvcClass → BitVec 2
  | .none => 0#2
  | .rx => 1#2
  | .tx => 2#2
  | .crc => 3#2

/-- A one-bit field at a place in a word. -/
def flagBit (b : Bool) (at_ : Nat) : Word := if b then 1#32 <<< at_ else 0#32

/-- STATUS with every field exact (R33): `[31:15]` 0, `[14:13]` SVC, `[12]` RADIO_RST, `[11]` OVR,
`[10:8]` RESULT, `[7:6]` MODE, `[5]` MVALID, `[4]` IRQP, `[3]` CRCD, `[2]` RXC, `[1]` TXC, `[0]` BUSY. -/
def State.statusWord (s : State) : Word :=
  ((svcBits s.svc).setWidth 32 <<< 13) ||| flagBit s.radioRst 12 ||| flagBit s.ovr 11 |||
    ((resultBits s.result).setWidth 32 <<< 8) ||| ((modeSelector s.mode).setWidth 32 <<< 6) |||
    flagBit s.mvalid 5 ||| flagBit s.irqp 4 ||| flagBit s.crcd 3 ||| flagBit s.rxc 2 ||| flagBit s.txc 1 |||
    flagBit s.busy 0

/-- The bits of STATUS that are exact while BUSY = 1: BUSY, OVR and RADIO_RST (R33, R49). -/
def statusExactMask : Word := 0x00001801#32

/-- STATUS as read while BUSY = 1, for the draw `x` (R33, R49). -/
def State.busyStatus (x : Word) (s : State) : Word :=
  (x &&& ~~~statusExactMask) ||| (s.statusWord &&& statusExactMask)

/-- CTRL (R34): `[1]` POLLEN, `[0]` RADIO_RST, the rest 0. -/
def State.ctrlWord (s : State) : Word :=
  flagBit s.pollen 1 ||| flagBit s.radioRst 0

end Sys2Proof.Machine
end

