-- ==== Sys2Proof/Machine/Detector.lean ====
section
/-! DEFINITION. The interrupt-to-flag synchronizer and completion detector (43_detector.md): the DIO0
synchronizer, SERVICE and CLRFLAGS. -/

namespace Sys2Proof.Machine

open Host (Outcome)

/-! ### The synchronizer (R182) -/

/-- The detector's comparison of the last stage with EPREV, in the IRQ_EDGE direction (R181, R182). -/
def edgeDetected (e : IrqEdge) (last prev : Bool) : Bool :=
  match e with
  | .rising => last && !prev
  | .falling => !last && prev

/-- The last stage of the synchronizer (R182). -/
def State.lastStage (s : State) : Bool := s.sync.getLastD false

/-- One clock with `dio0` at a level (R182): every flip-flop takes its input's old value, and a detected
edge sets IRQP; nothing clears it here (R43). DEDUCED, log 8. -/
def State.clockSync (dio0 : Bool) (s : State) : State :=
  { s with
    irqp := s.irqp || edgeDetected s.cfg.irqEdge s.lastStage s.eprev
    sync := (dio0 :: s.sync).take s.sync.length
    eprev := s.lastStage }

/-! ### SERVICE (R185) -/

/-- SERVICE's bus part: read the IRQ flags, write the same byte back, and only then classify; a failed
transfer stops it with SVC = NONE (R185, R187). -/
def State.readAndClearFlags (s : State) : State :=
  match s.memRead (addrIrqFlags s.cfg) 1 with
  | (t, false, _) => t.noService.raise .xferFail
  | (t, true, d) =>
    let v := d.headD 0#8
    match (t.setLastFlags v).memWrite (addrIrqFlags s.cfg) [v] with
    | (u, false) => u.noService.raise .xferFail
    | (u, true) => (u.classify v).complete

/-- SERVICE (R185-R189): test-and-clear IRQP; with IRQP 0 and without polling, no bus access. -/
def execService (s : State) : Outcome State Fault Refusal :=
  let (p, t) := s.testAndClearIrqp
  if !p && !t.pollen then .next t.noService.complete
  else .next t.readAndClearFlags

/-! ### CLRFLAGS (R190) -/

/-- CLRFLAGS m (R190): clears the selected sticky bits; no transaction; IRQP stays (R43). -/
def execClrflags (m : BitVec 4) (s : State) : Outcome State Fault Refusal :=
  .next (s.clearSticky m).complete

end Sys2Proof.Machine
end

