-- ==== Sys2Proof/Machine/Freq.lean ====
section
/-! DEFINITION. The frequency-synthesis calculator (42_freq.md): CALCFREQ and SETFREQ. -/

namespace Sys2Proof.Machine

open Host (Outcome)

/-- TUNE takes the tuning word of FREQ (R161, R164). -/
def State.latchTune (s : State) : State := { s with tune := tuneOf s.freq }

/-- CALCFREQ (R161, R162): no transaction; out of range, only FREQ_RANGE. -/
def execCalcfreq (s : State) : Outcome State Fault Refusal :=
  if freqOutOfRange s.freq then .next (s.raise .freqRange)
  else .next s.latchTune.complete

/-- SETFREQ (R162, R164-R166): TUNE, then three one-byte writes MSB, MID, LSB, stopping at the first
that fails. -/
def execSetfreq (s : State) : Outcome State Fault Refusal :=
  if freqOutOfRange s.freq then .next (s.raise .freqRange)
  else
    let (t, ok) := State.writeEach (tuneWrites s.cfg (tuneOf s.freq)) s.latchTune
    .next (State.endTransfer ok t)

end Sys2Proof.Machine
end

