-- ==== Sys2Proof/Machine/Mode.lean ====
section
/-! DEFINITION. The LoRa mode controller (41_mode.md): SETMODE. -/

namespace Sys2Proof.Machine

open Host (Outcome)

/-- What SETMODE records of its write: MODE and MVALID on success (R141), MVALID lost on failure
(R143). -/
def State.recordMode (m : OpMode) (ok : Bool) (s : State) : State :=
  if ok then { s with mode := m, mvalid := true } else { s with mvalid := false }

/-- SETMODE m (R141-R144): one write of the mode byte to ADDR_OPMODE, from every mode to every mode. -/
def execSetmode (m : OpMode) (s : State) : Outcome State Fault Refusal :=
  let (t, ok) := s.memWrite (addrOpMode s.cfg) [modeByte s.cfg m]
  .next (State.endTransfer ok (t.recordMode m ok))

end Sys2Proof.Machine
end

