-- ==== Sys2Proof/Machine/Transport.lean ====
section
/-! DEFINITION. The SPI register-transport commands (40_transport.md): NOP, RDREG, WRREG, RDBURST,
WRBURST. Each of the four is one transaction, for every length, 0 included (R114, R118). -/

namespace Sys2Proof.Machine

open Host (Outcome)

/-- NOP (R110). -/
def execNop (s : State) : Outcome State Fault Refusal := .next s.complete

/-- RDREG a (R111). RDATA takes the byte whatever `ok` is: a failed read's byte is a draw. -/
def execRdreg (a : RegAddr) (s : State) : Outcome State Fault Refusal :=
  let (t, ok, d) := s.memRead a 1
  .next (State.endTransfer ok (t.setRdata (d.headD 0#8)))

/-- WRREG a, d (R112). The byte goes out unaltered; the LR bit is not forced. -/
def execWrreg (a : RegAddr) (d : Byte) (s : State) : Outcome State Fault Refusal :=
  let (t, ok) := s.memWrite a [d]
  .next (State.endTransfer ok (t.noteRawWrite a 1))

/-- RDBURST a, n (R113, R114): `BUF[0..n-1]` takes the bytes whatever `ok` is, the rest of BUF stays. -/
def execRdburst (a : RegAddr) (n : Byte) (s : State) : Outcome State Fault Refusal :=
  let (t, ok, d) := s.memRead a n.toNat
  .next (State.endTransfer ok (t.writeBuf 0 d))

/-- WRBURST a, n (R114, R115): `BUF[0..n-1]` in index order, unmodified (R116). -/
def execWrburst (a : RegAddr) (n : Byte) (s : State) : Outcome State Fault Refusal :=
  let (t, ok) := s.memWrite a (s.burstData n.toNat)
  .next (State.endTransfer ok (t.noteRawWrite a n.toNat))

end Sys2Proof.Machine
end

