-- ==== Sys2Proof/Machine/Dispatch.lean ====
section
/-! DEFINITION. exec: one arm per command (R95), each one call of its meaning. -/

namespace Sys2Proof.Machine

def exec (i : Instr) (s : State) : Host.Outcome State Fault Refusal :=
  match i with
  | .nop => Sys2Proof.Machine.execNop s
  | .rdreg a => Sys2Proof.Machine.execRdreg a s
  | .wrreg a d => Sys2Proof.Machine.execWrreg a d s
  | .rdburst a n => Sys2Proof.Machine.execRdburst a n s
  | .wrburst a n => Sys2Proof.Machine.execWrburst a n s
  | .setmode m => Sys2Proof.Machine.execSetmode m s
  | .calcfreq => Sys2Proof.Machine.execCalcfreq s
  | .setfreq => Sys2Proof.Machine.execSetfreq s
  | .service => Sys2Proof.Machine.execService s
  | .clrflags m => Sys2Proof.Machine.execClrflags m s

end Sys2Proof.Machine
end

