-- ==== Sys2Proof/Machine/HostBus.lean ====
section
/-! DEFINITION. The host register window (R31-R39, R51, R70, R71): reads, writes, and the host bus error. -/

namespace Sys2Proof.Machine

open Host (Outcome)

/-- The window's map (R31). -/
inductive WindowReg where
  | cmd
  | status
  | ctrl
  | rdata
  | freq
  | tune
  | lastFlags
  | reserved
  /-- BUF word `k`, `BUF[4k..4k+3]` (R38). -/
  | bufWord (k : Nat)
deriving DecidableEq, Repr

/-- The register at an offset that R70 admits (R31). -/
def windowReg (off : Nat) : WindowReg :=
  if off = 0x000 then .cmd
  else if off = 0x004 then .status
  else if off = 0x008 then .ctrl
  else if off = 0x00C then .rdata
  else if off = 0x010 then .freq
  else if off = 0x014 then .tune
  else if off = 0x018 then .lastFlags
  else if off < 0x100 then .reserved
  else .bufWord ((off - 0x100) / 4)

/-- R70: a 32-bit access at a multiple of 4 below 0x200; any other is a host bus error (R71). -/
def BusAccess.admitted (acc : BusAccess) : Bool :=
  decide (acc.width = 32) && decide (acc.off % 4 = 0) && decide (acc.off < Config.windowSize)

/-- Where an access stands in the host's address space: offsets are relative to HOST_BASE (R31, R256). -/
def BusAccess.address (p : Params) (acc : BusAccess) : Nat := p.hostBase + acc.off

/-- The access to the block that one of the host's address space is; none below HOST_BASE, where the block
has no address (R31, R74). -/
def busAccessAt (p : Params) (width addr : Nat) (write : Option Word) : Option BusAccess :=
  if p.hostBase ≤ addr then some ⟨width, addr - p.hostBase, write⟩ else none

/-! ### BUF words (R38, R72) -/

/-- `{BUF[4k+3], BUF[4k+2], BUF[4k+1], BUF[4k]}` (R38). -/
def State.bufWord (k : Nat) (s : State) : Word :=
  ((Memory.read s.buf (4 * k + 3)).setWidth 32 <<< 24) ||| ((Memory.read s.buf (4 * k + 2)).setWidth 32 <<< 16) |||
    ((Memory.read s.buf (4 * k + 1)).setWidth 32 <<< 8) ||| (Memory.read s.buf (4 * k)).setWidth 32

/-- The four lanes of a word, lowest index first (R38, R72). -/
def wordLanes (v : Word) : List Byte :=
  [v.extractLsb' 0 8, v.extractLsb' 8 8, v.extractLsb' 16 8, v.extractLsb' 24 8]

/-- Writes BUF word `k` (R38). -/
def State.writeBufWord (k : Nat) (v : Word) (s : State) : State :=
  s.writeBuf (4 * k) (wordLanes v)

/-! ### Reads -/

/-- What a read of a register returns when BUSY = 0 (R31-R39, R51). -/
def State.idleValue (r : WindowReg) (s : State) : Word :=
  match r with
  | .cmd => 0#32
  | .status => s.statusWord
  | .ctrl => s.ctrlWord
  | .rdata => s.rdata.setWidth 32
  | .freq => s.freq
  | .tune => s.tune.setWidth 32
  | .lastFlags => s.lastFlags.setWidth 32
  | .reserved => 0#32
  | .bufWord k => s.bufWord k

/-- What a read returns when BUSY = 1, for the draw `x` (R49): CMD, CTRL, FREQ and reserved offsets are
exact, STATUS in three bits, the rest is any value. -/
def State.busyValue (r : WindowReg) (x : Word) (s : State) : Word :=
  match r with
  | .cmd => 0#32
  | .status => s.busyStatus x
  | .ctrl => s.ctrlWord
  | .rdata => x
  | .freq => s.freq
  | .tune => x
  | .lastFlags => x
  | .reserved => 0#32
  | .bufWord _ => x

/-- What a read returns (R49). -/
def State.readValue (r : WindowReg) (s : State) : Word :=
  if s.busy then s.busyValue r (Config.drawWord s.draws) else s.idleValue r

/-- `HostRead(off)` (R70): the value goes to the host; the block itself is unchanged (R73). -/
def State.hostRead (off : Nat) (s : State) : State :=
  { s with busData := some (s.readValue (windowReg off)), draws := s.draws + 1 }

/-! ### Writes -/

/-- A write to CMD, FREQ or BUF: dropped with OVR when BUSY = 1 (R47, R245), else `effect`. -/
def State.unlessBusy (effect s : State) : State :=
  if s.busy then s.setOvr else effect

/-- CMD (R32): the word is latched and BUSY set. -/
def State.latchCommand (w : Word) (s : State) : State := { s with cmdl := w, busy := true }

/-- CTRL (R34): bits [1:0] are taken, also while BUSY = 1; the others are ignored. -/
def State.writeCtrl (v : Word) (s : State) : State :=
  { s with radioRst := v.getLsbD 0, pollen := v.getLsbD 1 }

/-- `HostWrite(off, v)` (R70, R31). -/
def State.hostWrite (off : Nat) (v : Word) (s : State) : State :=
  match windowReg off with
  | .cmd => State.unlessBusy (s.latchCommand v) s
  | .status => s
  | .ctrl => s.writeCtrl v
  | .rdata => s
  | .freq => State.unlessBusy (s.setFreq v) s
  | .tune => s
  | .lastFlags => s
  | .reserved => s
  | .bufWord k => State.unlessBusy (s.writeBufWord k v) s

/-- One access of the host (R70), or the host bus error (R71, R247). -/
def hostAccess (acc : BusAccess) (s : State) : Outcome State Fault Refusal :=
  if acc.admitted then
    match acc.write with
    | none => .next (s.hostRead acc.off)
    | some v => .next (s.hostWrite acc.off v)
  else .fault (.hostBusError acc.off)

end Sys2Proof.Machine
end

