-- ==== Sys2Proof/Machine/Agents.lean ====
section
/-! DEFINITION. The agents' steps (R8): the sequencer performs the latched word (R7, R32, R94), the host
accesses the window, DIO0 produces edges, and the reset input is asserted. -/

namespace Sys2Proof.Machine

open Host (Outcome)

/-- A latched word that decodes to Illegal: RESULT and BUSY, nothing else (R94, R242). -/
def State.illegalCommand (s : State) : State := s.raise .illegal

/-- The sequencer performs the word in CMDL (R32, R93, R94). -/
def performLatched (s : State) : Outcome State Fault Refusal :=
  match decode s.cmdl with
  | .command i => exec i s
  | .illegal _ => .next s.illegalCommand

/-- What follows in a step that goes on. -/
def onNext (f : State → State) (o : Outcome State Fault Refusal) : Outcome State Fault Refusal :=
  match o with
  | .next t => .next (f t)
  | .fault r => .fault r
  | .refused r => .refused r

/-- The sequencer's turn: the latched word, and at its end the edge that R78 puts there, if one is held (log 32);
with BUSY = 0 it performs nothing (R272; log 11). -/
def sequencerStep (s : State) : Outcome State Fault Refusal :=
  if s.busy then onNext State.releaseEdge (performLatched s) else .next s

/-- An edge that coincides with the step wins: IRQP is 1 after both (R79, R184). -/
def coincidentEdge (o : Outcome State Fault Refusal) : Outcome State Fault Refusal := onNext State.setIrqp o

/-- One move of an agent (R8). -/
def agentStep (i : Input) (s : State) : Outcome State Fault Refusal :=
  match i with
  | .sequencer => sequencerStep s
  | .sequencerWithEdge => coincidentEdge (sequencerStep s)
  | .host acc => hostAccess acc s
  | .edge => .next s.setIrqp
  | .edgeDuring => .next s.deferEdge
  | .clock dio0 => .next (s.clockSync dio0)
  | .blockReset => .next s.blockReset

/-- A step in a configuration that may run; any other is refused (R246(2)). -/
def inConfiguration (s : State) (o : Outcome State Fault Refusal) : Outcome State Fault Refusal :=
  if s.cfg.wf then o else .refused .refusedConfiguration

/-- The next command is `w`, and it is the sequencer's turn: what a host's CMD write of `w` leaves
(R32; log 15). -/
def State.fetching (w : Word) (s : State) : State := (s.latchCommand w).schedule .sequencer

end Sys2Proof.Machine
end

