-- ==== Sys2Proof/Machine/Step.lean ====
section
/-! DEFINITION. One step: the agent whose turn it is moves (R7, R8). -/

namespace Sys2Proof.Machine

/-- One step of the machine. -/
def step (s : State) : Host.Outcome State Fault Refusal :=
  inConfiguration s (agentStep s.nextInput s.popInput)

/-- `s` with the word latched in CMD and the sequencer's turn next: what the host's CMD write does
(R32; log 15). The block fetches nothing (R52, R80). -/
def State.withFetchWord (s : State) (nbits w : Nat) : State := s.fetching (tableWord nbits w)

end Sys2Proof.Machine
end

