-- ==== Sys2Proof/Machine/Frame.lean ====
section
/-! DEFINITION. The wires: what one transaction puts on chip-select and MOSI (R66, R72), and the block's
output pins (R50). A view of TRACE and of the state; no step reads it. Bit timing is not modelled (R7). -/

namespace Sys2Proof.Machine

/-- Byte 0 of a frame: `{dir_bit, a[6:0]}`, the direction bit 1 for a write (R61, R66). -/
def addressByte (write : Bool) (a : RegAddr) : Byte :=
  (if write then 0x80#8 else 0x00#8) ||| a.setWidth 8

/-- The address a transaction names. -/
def Txn.addr : Txn → RegAddr
  | .rd a _ _ _ => a
  | .wr a _ _ => a

/-- How many data bytes a transaction moves. -/
def Txn.len : Txn → Nat
  | .rd _ n _ _ => n
  | .wr _ v _ => v.length

/-- Whether a transaction completed (R19). -/
def Txn.ok : Txn → Bool
  | .rd _ _ _ ok => ok
  | .wr _ _ ok => ok

/-- Whether a transaction is a write that carries at least one byte. -/
def Txn.writesTo (a : RegAddr) : Txn → Bool
  | .rd _ _ _ _ => false
  | .wr b v _ => decide (b = a) && !v.isEmpty

/-- The MOSI bytes of a frame: the address byte, then the data, or the configured `MOSI_FILL` for each byte
read (R14, R66 steps 2 and 3). -/
def Txn.mosi (p : Params) : Txn → List Byte
  | .rd a n _ _ => addressByte false a :: List.replicate n p.mosiFill
  | .wr a v _ => addressByte true a :: v

/-- The bits of a byte in the order they go out, most significant first (R66; I6). -/
def msbFirst (b : Byte) : List Bool := (List.range 8).map (fun k => b.getLsbD (7 - k))

/-- The MOSI bits of a frame (R66, R292). -/
def Txn.mosiBits (p : Params) (t : Txn) : List Bool := (t.mosi p).flatMap msbFirst

/-- One thing seen on the wires at byte level. -/
inductive WireEvent where
  /-- `spi_cs_n` takes a level. -/
  | cs (level : Bool)
  /-- One byte is exchanged on MOSI. -/
  | mosi (b : Byte)
deriving DecidableEq, Repr

/-- The four steps of a frame (R66): chip-select low, the bytes, chip-select high on every exit path,
a zero-length burst and a failed transfer included (R67, R114). -/
def Txn.wire (p : Params) (t : Txn) : List WireEvent :=
  .cs false :: ((t.mosi p).map .mosi ++ [.cs true])

/-- Everything the block has put on the wires since reset: its transactions' frames, one after another
(R20, R66, R68). -/
def State.wires (s : State) : List WireEvent := s.trace.flatMap (Txn.wire s.cfg)

/-- The output pins that have a level between steps (R50). -/
structure Pins where
  /-- `spi_cs_n`, equal to CS_N. -/
  spiCsN : Bool
  /-- `radio_rst_n`, absent without a reset line. -/
  radioRstN : Option Bool
deriving DecidableEq, Repr

/-- The levels of the output pins (R34, R50). -/
def State.pins (s : State) : Pins where
  spiCsN := s.csN
  radioRstN := if s.cfg.hasResetLine then some (!s.radioRst) else none

end Sys2Proof.Machine
end

