-- ==== Sys2Proof/Machine/PacketEngine.lean ====
section
/-! DEFINITION. The host's procedures (45_host_sequences.md, "host duties"): programs over the window's
accesses (R99) and the block's commands, run against `step`. They bind the host and change nothing in
the block (R4; log 17). -/

namespace Sys2Proof.Machine

/-! ### Host programs (R99) -/

/-- A host program: the accesses it makes, and what it does with what it reads. -/
inductive HostProg (α : Type) where
  /-- The program returns. -/
  | ret (a : α)
  /-- `HWR off, v`. -/
  | hwr (off : Nat) (v : Word) (k : HostProg α)
  /-- `HRD off -> r`. -/
  | hrd (off : Nat) (k : Word → HostProg α)
  /-- `WAITIDLE`: `HRD 0x004 -> s` repeated until `s[0] = 0`; `k` takes that last `s`. -/
  | waitIdle (k : Word → HostProg α)
  /-- `wait(t)`: the host idles at least `t` time-units. -/
  | wait (t : Nat) (k : HostProg α)
  /-- The host reads its own clock `now`. -/
  | now (k : Nat → HostProg α)

/-- Schedules moves, the first first, and lets them happen; none if a step stops. -/
def play : List Input → State → Option State
  | [], s => some s
  | i :: rest, s =>
    match step (s.schedule i) with
    | .next t => play rest t
    | .fault _ => none
    | .refused _ => none

/-- A 32-bit write (R70). -/
def busWrite (off : Nat) (v : Word) : Input := .host ⟨32, off, some v⟩

/-- A 32-bit read (R70). -/
def busRead (off : Nat) : Input := .host ⟨32, off, none⟩

/-- What goes on beside the host, in order: the moves of the other agents before each of its accesses, the
polls of WAITIDLE among them, and the readings of its clock. -/
structure Surroundings where
  moves : List (List Input)
  clock : List Nat
deriving DecidableEq, Repr

/-- The moves before the next access; where none are given it is the sequencer's turn, as it is in a step with
nothing scheduled (log 1). -/
def movesBefore (moves : List (List Input)) : List Input := moves.headD [.sequencer]

/-- The surroundings of the accesses after the next one. -/
def Surroundings.later (w : Surroundings) : Surroundings := { w with moves := w.moves.tail }

/-- The other agents' moves, and then one access of the host; none if a step stops. -/
def playAccess (moves : List (List Input)) (i : Input) (s : State) : Option State :=
  play (movesBefore moves ++ [i]) s

/-- What the last host read returned. -/
def State.readData (s : State) : Word := s.busData.getD 0#32

/-- STATUS.BUSY, the bit `s[0]` that WAITIDLE tests (R33, R99). -/
def statusBusy (w : Word) : Bool := w.getLsbD 0

/-- `WAITIDLE` (R99): STATUS is read until bit 0 is 0. The answer is the moves left and the state after the last
poll; none if a step stops, or if the poll after the last given moves, with the sequencer's turn before it,
still shows BUSY, which no poll does (`pollIdle_nil`). -/
def pollIdle : List (List Input) → State → Option (List (List Input) × State)
  | [], s =>
    match playAccess [] (busRead 0x004) s with
    | some t => if statusBusy t.readData then none else some ([], t)
    | none => none
  | m :: rest, s =>
    match playAccess [m] (busRead 0x004) s with
    | some t => if statusBusy t.readData then pollIdle rest t else some (rest, t)
    | none => none

/-- Runs a host program; none if a step stops or the clock has no reading left. -/
def HostProg.run {α : Type} : HostProg α → Surroundings → State → Option (α × State)
  | .ret a, _, s => some (a, s)
  | .hwr off v k, w, s =>
    match playAccess w.moves (busWrite off v) s with
    | some t => HostProg.run k w.later t
    | none => none
  | .hrd off k, w, s =>
    match playAccess w.moves (busRead off) s with
    | some t => HostProg.run (k t.readData) w.later t
    | none => none
  | .waitIdle k, w, s =>
    match pollIdle w.moves s with
    | some (rest, t) => HostProg.run (k t.readData) { w with moves := rest } t
    | none => none
  | .wait _ k, w, s => HostProg.run k w s
  | .now k, w, s =>
    match w.clock with
    | [] => none
    | n :: rest => HostProg.run (k n) { w with clock := rest } s

/-- One program after another, which takes what the first returns. -/
def HostProg.bind {α β : Type} : HostProg α → (α → HostProg β) → HostProg β
  | .ret a, f => f a
  | .hwr off v k, f => .hwr off v (HostProg.bind k f)
  | .hrd off k, f => .hrd off (fun v => HostProg.bind (k v) f)
  | .waitIdle k, f => .waitIdle (fun v => HostProg.bind (k v) f)
  | .wait t k, f => .wait t (HostProg.bind k f)
  | .now k, f => .now (fun t => HostProg.bind (k t) f)

/-! ### Results and pseudo-commands (R100, R249) -/

/-- What the host's procedures return (R249). A CRC error is silent: `tryReceive` answers `noData` and STATUS
shows CRCD (R230); a failed sensor read belongs to a collaborator outside the block (R5). -/
inductive HostOutcome where
  | initOk
  | initializationFailure
  | invalidArgument
  | sent
  | transmitTimeout
  | transportFailure
  | receiveReady
  | noData
  | received
  | truncated
  /-- The model's own: the loop's bound ran out before the host's clock did (log 17). -/
  | stillWaiting
deriving DecidableEq, Repr

/-- STATUS.RESULT (R33). -/
def statusResult (w : Word) : BitVec 3 := w.extractLsb' 8 3

/-- STATUS.TXC (R33). -/
def statusTxc (w : Word) : Bool := w.getLsbD 1

/-- STATUS.RXC (R33). -/
def statusRxc (w : Word) : Bool := w.getLsbD 2

/-- The pseudo-commands that name one command (R100). -/
inductive Pseudo where
  | clrIrq
  | setPtr (x : Byte)
  | mapDio0Tx
  | mapDio0Rx
  | clrTx
  | clrRx
  | rdVer
  | fifoRd (n : Byte)
deriving DecidableEq, Repr

/-- A radio register number as an address. -/
def regAddr (n : Nat) : RegAddr := BitVec.ofNat 7 n

/-- The one command a pseudo-command names (R100). -/
def Pseudo.expand (p : Params) : Pseudo → Instr
  | .clrIrq => .wrreg (regAddr p.regs.irqFlags) Config.irqClearAll
  | .setPtr x => .wrreg (regAddr p.regs.fifoAddrPtr) x
  | .mapDio0Tx => .wrreg (regAddr p.regs.dioMapping1) p.dio0TxDone
  | .mapDio0Rx => .wrreg (regAddr p.regs.dioMapping1) p.dio0RxDone
  | .clrTx => .clrflags 0x1#4
  | .clrRx => .clrflags 0x2#4
  | .rdVer => .rdreg (regAddr p.regs.version)
  | .fifoRd n => .rdburst (regAddr p.regs.fifo) n

/-- `FIFOWR n`, the one pseudo-command of two commands (R100). -/
def fifoWr (p : Params) (n : Byte) : List Instr :=
  [Pseudo.expand p (.setPtr 0#8), .wrburst (regAddr p.regs.fifo) n]

/-! ### Building blocks -/

/-- `ISSUE c` (R99): write CMD, wait for BUSY = 0; `k` takes the STATUS read. -/
def issue {α : Type} (i : Instr) (k : Word → HostProg α) : HostProg α :=
  .hwr 0x000 (encode i) (.waitIdle k)

/-- Issues commands one after another; `fail` as soon as one's RESULT is in the failing set. -/
def issueAll {α : Type} (failing : BitVec 3 → Bool) (fail : HostProg α) :
    List Instr → HostProg α → HostProg α
  | [], k => k
  | i :: rest, k =>
    issue i (fun s => if failing (statusResult s) then fail else issueAll failing fail rest k)

/-- Any RESULT other than OK (R213, R214). -/
def notOk (r : BitVec 3) : Bool := r != 0#3

/-- RESULT = XFER_FAIL (R226, R228, R249). -/
def isXferFail (r : BitVec 3) : Bool := r == 2#3

/-- One lane of a word replaced (R38). -/
def setLane (w : Word) (lane : Nat) (b : Byte) : Word :=
  (w &&& ~~~((0xFF#32) <<< (8 * lane))) ||| ((b.setWidth 32) <<< (8 * lane))

/-- The lanes from `lane` on replaced by the bytes of a list. -/
def setLanes : Word → Nat → List Byte → Word
  | w, _, [] => w
  | w, lane, b :: rest => setLanes (setLane w lane b) (lane + 1) rest

/-- The offset of BUF word `j` (R38). -/
def bufOffset (j : Nat) : Nat := 0x100 + 4 * j

/-- A partial word of FILL: word `j` read, its lanes from `lane` on replaced, and written back (R99). -/
def fillPartial {α : Type} (j lane : Nat) (bytes : List Byte) (k : HostProg α) : HostProg α :=
  .hrd (bufOffset j) (fun w => .hwr (bufOffset j) (setLanes w lane bytes) k)

/-- FILL from the start of word `j` on: one write for each full word, and the rest a partial one (R99). -/
def fillWords {α : Type} : Nat → List Byte → HostProg α → HostProg α
  | j, b0 :: b1 :: b2 :: b3 :: rest, k =>
    .hwr (bufOffset j) (setLanes 0#32 0 [b0, b1, b2, b3]) (fillWords (j + 1) rest k)
  | _, [], k => k
  | j, [b0], k => fillPartial j 0 [b0] k
  | j, [b0, b1], k => fillPartial j 0 [b0, b1] k
  | j, [b0, b1, b2], k => fillPartial j 0 [b0, b1, b2] k

/-- `FILL i, b0, b1, ...` (R99): the bytes up to the next word boundary as a partial word, the others from there
on; no access for no byte. -/
def fill {α : Type} (i : Nat) (bytes : List Byte) (k : HostProg α) : HostProg α :=
  if i % 4 = 0 ∨ bytes = [] then fillWords (i / 4) bytes k
  else fillPartial (i / 4) (i % 4) (bytes.take (4 - i % 4)) (fillWords (i / 4 + 1) (bytes.drop (4 - i % 4)) k)

/-- Reads the BUF words `j, j+1, ...` and hands over their bytes in index order. -/
def readBuf {α : Type} : Nat → Nat → (List Byte → HostProg α) → HostProg α
  | _, 0, k => k []
  | j, n + 1, k => .hrd (bufOffset j) (fun w =>
      readBuf (j + 1) n (fun bs =>
        k (w.extractLsb' 0 8 :: w.extractLsb' 8 8 :: w.extractLsb' 16 8 :: w.extractLsb' 24 8 :: bs)))

/-! ### Initialization (R213, R214, R275) -/

/-- CTRL with a level of RADIO_RST (R34). -/
def ctrlValue (pollen rst : Bool) : Word :=
  flagBit pollen 1 ||| flagBit rst 0

/-- The radio reset pulse, when there is a reset line (R213, R275). -/
def resetPulse {α : Type} (p : Params) (pollen : Bool) (k : HostProg α) : HostProg α :=
  if p.hasResetLine then
    .hwr 0x008 (ctrlValue pollen true) (.wait Config.resetAssertMin
      (.hwr 0x008 (ctrlValue pollen false) (.wait Config.resetWaitMin k)))
  else k

/-- The configuration writes of R213, in its order. -/
def configWrites (p : Params) (h : HostParams) : List Instr :=
  [ .wrreg (regAddr p.regs.modemCfg1) h.cfgModem1,
    .wrreg (regAddr p.regs.modemCfg2) h.cfgModem2,
    .wrreg (regAddr p.regs.modemCfg3) h.cfgModem3,
    .wrreg (regAddr p.regs.preambleMsb) h.cfgPreambleMsb,
    .wrreg (regAddr p.regs.preambleLsb) h.cfgPreambleLsb,
    .wrreg (regAddr p.regs.lna) h.cfgLna,
    .wrreg (regAddr p.regs.paConfig) h.cfgPaConfig,
    .wrreg (regAddr p.regs.paDac) h.cfgPaDac,
    .wrreg (regAddr p.regs.fifoTxBase) 0#8,
    .wrreg (regAddr p.regs.fifoRxBase) 0#8,
    .wrreg (regAddr p.regs.irqMask) p.irqUnmaskAll,
    Pseudo.expand p .rdVer ]

/-- `init()` (R213, R214, R215): POLLEN is kept at `pollen`. -/
def init (p : Params) (h : HostParams) (pollen : Bool) : HostProg HostOutcome :=
  let failed := HostProg.ret HostOutcome.initializationFailure
  resetPulse p pollen
    (issueAll notOk failed [.setmode .sleep, .setmode .standby, Pseudo.expand p .clrIrq]
      (.hwr 0x010 h.freqHz
        (issueAll notOk failed (.setfreq :: configWrites p h)
          (.hrd 0x00C (fun v =>
            .ret (if v.extractLsb' 0 8 = p.versionExpected then .initOk else .initializationFailure))))))

/-- Steps 2 to 4 of the boot order (R274): CTRL.POLLEN is set or left alone, then `init` runs, which writes FREQ
itself. Left alone, POLLEN has its reset value 1 (R34), which `init` keeps. -/
def bootIdle (p : Params) (h : HostParams) : Option Bool → HostProg HostOutcome
  | none => init p h true
  | some pollen => .hwr 0x008 (ctrlValue pollen false) (init p h pollen)

/-- The boot order (R274): after reset STATUS is read until BUSY = 0; then POLLEN, which is optional (`none`: no
access to CTRL for it), and `init`. -/
def boot (p : Params) (h : HostParams) (pollen : Option Bool) : HostProg HostOutcome :=
  .waitIdle (fun _ => bootIdle p h pollen)

/-- What a launch does once `init` has returned: the application after InitOK (R274 step 5), and after anything
else nothing at all: no further command (R214). -/
def afterInit {α : Type} (app : HostProg α) (o : HostOutcome) : HostProg (Except HostOutcome α) :=
  if o = .initOk then app.bind (fun a => .ret (.ok a)) else .ret (.error o)

/-- A whole launch of the system: the boot order, and then the application, which may send and receive, only if
the initialization succeeded (R214, R274). -/
def launch {α : Type} (p : Params) (h : HostParams) (pollen : Option Bool) (app : HostProg α) :
    HostProg (Except HostOutcome α) :=
  (boot p h pollen).bind (afterInit app)

/-! ### Transmit (R220-R226) -/

/-- Force Standby once, its own result ignored, and report (R223, R224, R226). -/
def standbyAnd {α : Type} (a : α) : HostProg α := issue (.setmode .standby) (fun _ => .ret a)

/-- The bounded wait of R221 and R222: TXC is checked before the deadline. `n` bounds the iterations
(log 17). -/
def sendWait (timeout t0 : Nat) : Nat → HostProg HostOutcome
  | 0 => .ret .stillWaiting
  | n + 1 =>
    issue .service (fun r =>
      if isXferFail (statusResult r) then standbyAnd .transportFailure
      else .hrd 0x004 (fun s =>
        if statusTxc s then issue (.clrflags 0x1#4) (fun _ => standbyAndCheck .sent)
        else .now (fun t =>
          if t0 + timeout ≤ t then standbyAndCheck .transmitTimeout else sendWait timeout t0 n)))
where
  /-- The closing SETMODE STDBY of R221; a failed one ends `send` with R226. -/
  standbyAndCheck (o : HostOutcome) : HostProg HostOutcome :=
    issue (.setmode .standby) (fun r =>
      if isXferFail (statusResult r) then standbyAnd .transportFailure else .ret o)

/-- The commands of R221 before the wait, for a payload of `n` bytes. -/
def sendSetup (p : Params) (n : Byte) : List Instr :=
  .setmode .standby :: fifoWr p n ++
    [ .wrreg (regAddr p.regs.payloadLength) n,
      Pseudo.expand p .clrIrq, Pseudo.expand p .clrTx, Pseudo.expand p .mapDio0Tx,
      .setmode .transmit ]

/-- `send(payload)` (R220-R226), its wait loop bounded by `bound` iterations (log 17). -/
def send (p : Params) (h : HostParams) (bound : Nat) (payload : List Byte) : HostProg HostOutcome :=
  if payload.length = 0 ∨ Config.maxLen < payload.length then .ret .invalidArgument
  else
    fill 0 payload
      (issueAll isXferFail (standbyAnd .transportFailure) (sendSetup p (BitVec.ofNat 8 payload.length))
        (.now (fun t0 => sendWait h.txTimeout t0 bound)))

/-! ### Receive (R227-R231) -/

/-- The one-time receive set-up (R227). DESIGN CHOICE (log 27): the spec does not say what it does after an
XFER_FAIL (R226 and R228 are about `send` and `tryReceive`) nor what it returns on success. Here the first
failed command ends it with `transportFailure`, without forcing Standby, and success is `receiveReady`, a
name of the model's own. -/
def receiveSetup (p : Params) : HostProg HostOutcome :=
  issueAll isXferFail (.ret .transportFailure)
    [Pseudo.expand p .mapDio0Rx, Pseudo.expand p (.setPtr 0#8), Pseudo.expand p .clrRx,
     .setmode .receiveContinuous]
    (.ret .receiveReady)

/-- `tryReceive(cap)` (R228-R231): the bytes delivered and the outcome. -/
def tryReceive (p : Params) (cap : Nat) : HostProg (List Byte × HostOutcome) :=
  let failed := HostProg.ret (([] : List Byte), HostOutcome.transportFailure)
  issueAll isXferFail failed [.service]
    (.hrd 0x004 (fun s =>
      if statusRxc s then
        issueAll isXferFail failed [Pseudo.expand p .clrRx, .rdreg (regAddr p.regs.rxNbBytes)]
          (.hrd 0x00C (fun nw =>
            let n := (nw.extractLsb' 0 8).toNat
            let k := min n cap
            issueAll isXferFail failed [.rdreg (regAddr p.regs.fifoRxCurrent)]
              (.hrd 0x00C (fun c =>
                issueAll isXferFail failed
                  [Pseudo.expand p (.setPtr (c.extractLsb' 0 8)),
                   Pseudo.expand p (.fifoRd (BitVec.ofNat 8 k))]
                  (readBuf 0 ((k + 3) / 4) (fun bs =>
                    .ret (bs.take k, if cap < n then .truncated else .received)))))))
      else .ret ([], .noData)))

/-! ### RSSI (R232) -/

/-- `rssi()` (R232): the raw byte, unsigned, less 157. An XFER_FAIL outside `init` is a TransportFailure
(R249); that it then takes the number's place, and RDATA is not read, is DEDUCED (log 28). -/
def rssi (p : Params) : HostProg (Except HostOutcome Int) :=
  issueAll isXferFail (.ret (.error .transportFailure)) [.rdreg (regAddr p.regs.rssi)]
    (.hrd 0x00C (fun w => .ret (.ok (((w.extractLsb' 0 8).toNat : Int) - Config.rssiOffset))))

end Sys2Proof.Machine
end

