-- ==== Sys2Proof/Machine/RefRadio.lean ====
section
/-! DEFINITION. The reference radio RR of R83, for test vectors and for statements that assume it openly
(R82, R116). It replays transactions the block has performed; no step of the block reads it. -/

namespace Sys2Proof.Machine

/-- RR's state (R83): registers, FIFO, and the frequency last committed (R69). Event injection is a
change of these fields between transactions. -/
structure RefRadio where
  reg : Memory
  fifo : Memory
  committed : Option (Byte × Byte × Byte)
deriving DecidableEq, Repr

/-- `FPTR`, the FIFO pointer register (R83). -/
def RefRadio.fptr (p : Params) (r : RefRadio) : Nat := (Memory.read r.reg p.regs.fifoAddrPtr).toNat

/-- `FPTR <- (FPTR + 1) mod 256` (R83). -/
def RefRadio.advance (p : Params) (r : RefRadio) : RefRadio :=
  { r with reg := Memory.write r.reg p.regs.fifoAddrPtr (BitVec.ofNat 8 (r.fptr p + 1)) }

/-- A register as read; the version register always holds VERSION_EXPECTED (R83, R215). -/
def RefRadio.readReg (p : Params) (r : RefRadio) (i : Nat) : Byte :=
  if i = p.regs.version then p.versionExpected else Memory.read r.reg i

/-- A plain register write; the tuning LSB's commits the three tuning bytes (R69, R83). -/
def RefRadio.writeReg (p : Params) (r : RefRadio) (i : Nat) (b : Byte) : RefRadio :=
  let r' := { r with reg := Memory.write r.reg i b }
  if i = p.regs.frfMsb + 2 then
    let f := (r'.readReg p p.regs.frfMsb, r'.readReg p (p.regs.frfMsb + 1), r'.readReg p (p.regs.frfMsb + 2))
    { r' with committed := some f }
  else r'

/-- Data byte `k` of a write transaction at `a` (R83). -/
def RefRadio.takeByte (p : Params) (a : RegAddr) (k : Nat) (b : Byte) (r : RefRadio) : RefRadio :=
  if a.toNat = p.regs.fifo then
    RefRadio.advance p { r with fifo := Memory.write r.fifo (r.fptr p) b }
  else if a.toNat = p.regs.irqFlags then
    let f := writeOneToClear (Memory.read r.reg p.regs.irqFlags) b
    { r with reg := Memory.write r.reg p.regs.irqFlags f }
  else r.writeReg p ((a.toNat + k) % 128) b

/-- The data bytes of a write transaction from index `k` on (R83). -/
def RefRadio.takeBytes (p : Params) (a : RegAddr) : Nat → List Byte → RefRadio → RefRadio
  | _, [], r => r
  | k, b :: rest, r => RefRadio.takeBytes p a (k + 1) rest (r.takeByte p a k b)

/-- Data byte `k` of a read transaction at `a`, and RR after it (R83). -/
def RefRadio.giveByte (p : Params) (a : RegAddr) (k : Nat) (r : RefRadio) : Byte × RefRadio :=
  if a.toNat = p.regs.fifo then (Memory.read r.fifo (r.fptr p), r.advance p)
  else (r.readReg p ((a.toNat + k) % 128), r)

/-- The `n` data bytes of a read transaction from index `k` on, and RR after them (R83). -/
def RefRadio.giveBytes (p : Params) (a : RegAddr) : Nat → Nat → RefRadio → List Byte × RefRadio
  | _, 0, r => ([], r)
  | k, n + 1, r =>
    let (b, r') := r.giveByte p a k
    let (bs, r'') := RefRadio.giveBytes p a (k + 1) n r'
    (b :: bs, r'')

/-- RR through one transaction; none when the data read is not what RR answers. `taken` says whether a
FAILED transaction reached the radio: both are admitted (R243, U4; log 19). -/
def RefRadio.replay1 (p : Params) (taken : Bool) (t : Txn) (r : RefRadio) : Option RefRadio :=
  match t with
  | .wr a v ok => some (if ok || taken then RefRadio.takeBytes p a 0 v r else r)
  | .rd a n d ok =>
    let (bs, r') := RefRadio.giveBytes p a 0 n r
    if ok then (if bs = d then some r' else none) else some (if taken then r' else r)

/-- RR through a list of transactions, each with its `taken`. -/
def RefRadio.replay (p : Params) : List (Txn × Bool) → RefRadio → Option RefRadio
  | [], r => some r
  | (t, taken) :: rest, r =>
    match r.replay1 p taken t with
    | some r' => RefRadio.replay p rest r'
    | none => none

/-- What RR answers to a read of `n` bytes at `a`: an answer that may be given to the block. -/
def RefRadio.answer (p : Params) (a : RegAddr) (n : Nat) (r : RefRadio) : Answer :=
  ⟨true, (RefRadio.giveBytes p a 0 n r).1⟩

end Sys2Proof.Machine
end

