-- ==== Sys2Proof/Safety.lean ====
section
/-! DEFINITION. What a sound state is (the invariants statements are made of), and what a well-behaved
host owes (R210-R212, R214, R280): the block steps whatever the host does (R246(3)), so the duties are
predicates here and no check in the machine. -/

namespace Sys2Proof.Machine

/-! ### Sound states -/

/-- One recorded transaction is one the frame of R66 allows: at most 255 data bytes, and a read records
exactly the bytes it asked for. -/
def Txn.legal : Txn → Bool
  | .rd _ n d _ => decide (n ≤ Config.maxLen) && decide (d.length = n)
  | .wr _ v _ => decide (v.length ≤ Config.maxLen)

/-- The form every state of a run has: BUF canonical (256 bytes), chip-select deasserted between steps
(R67), as many synchronizer stages as the configuration says (R182), an edge deferred only while a command is
latched (R78, log 32), and legal transactions. -/
def State.Sound (s : State) : Prop :=
  Memory.wf bufSize s.buf = true ∧ s.csN = true ∧ s.sync.length = s.cfg.syncStages ∧
    (s.busy = false → s.edgeHeld = false) ∧
    ∀ t ∈ s.trace, t.legal = true

/-- Failures have their cause: without XFER_CAN_FAIL every transaction completed (R19), and RESULT is
XFER_FAIL only when the last transaction failed (R241, R243). -/
def State.FailuresExplained (s : State) : Prop :=
  (s.cfg.xferCanFail = false → ∀ t ∈ s.trace, t.ok = true) ∧
    (s.result = .xferFail → ∃ t, s.trace.getLast? = some t ∧ t.ok = false)

/-- The last write of at least one byte to a radio address in a trace. -/
def lastWriteTo (a : RegAddr) (tr : List Txn) : Option Txn := (tr.filter (Txn.writesTo a)).getLast?

/-- The registers the block writes besides ADDR_OPMODE are other registers (R10 names five different
ones, but lets their numbers be parameters). -/
def opModeApart (p : Params) : Prop :=
  addrOpMode p ≠ addrFrf p 0 ∧ addrOpMode p ≠ addrFrf p 1 ∧ addrOpMode p ≠ addrFrf p 2 ∧
    addrOpMode p ≠ addrIrqFlags p

/-- MVALID tells the truth (R33, R44): while it is 1, the last write to ADDR_OPMODE in TRACE completed
and carried MODE's mode byte. -/
def State.ModeRecorded (s : State) : Prop :=
  opModeApart s.cfg → s.mvalid = true →
    lastWriteTo (addrOpMode s.cfg) s.trace = some (.wr (addrOpMode s.cfg) [modeByte s.cfg s.mode] true)

/-! ### Host duties and hazards -/

/-- A window offset whose write is dropped while BUSY = 1: CMD, FREQ or BUF (R47). -/
def guardedWrite (off : Nat) : Bool :=
  match windowReg off with
  | .cmd => true
  | .freq => true
  | .bufWord _ => true
  | .status => false
  | .ctrl => false
  | .rdata => false
  | .tune => false
  | .lastFlags => false
  | .reserved => false

/-- R280: the host makes no write that would be dropped. -/
def avoidsOverrun (s : State) : Input → Bool
  | .host acc => !(s.busy && acc.write.isSome && guardedWrite acc.off)
  | .sequencer => true
  | .sequencerWithEdge => true
  | .edge => true
  | .edgeDuring => true
  | .clock _ => true
  | .blockReset => true

/-- R211: a command that may write ADDR_OPMODE other than through SETMODE, a burst that the radio could
spread over it included. DESIGN CHOICE (log 30): which bursts those are is left open, since the radio decides
where the data bytes after the first go (R63, U18) and R83's radio may not be assumed (R82). Here a burst at
ADDR_FIFO stays in the FIFO, and one of n bytes at another address a may reach a to a + n - 1, modulo 128. -/
def rawModeWrite (p : Params) : Instr → Bool
  | .wrreg a _ => decide (a = addrOpMode p)
  | .wrburst a n =>
    decide (a = addrOpMode p) ||
      (decide (a.toNat ≠ p.regs.fifo) &&
        decide (((addrOpMode p).toNat + 128 - a.toNat) % 128 < n.toNat))
  | .nop => false
  | .rdreg _ => false
  | .rdburst _ _ => false
  | .setmode _ => false
  | .calcfreq => false
  | .setfreq => false
  | .service => false
  | .clrflags _ => false

/-- R211 of one move: no CMD write of such a command. -/
def keepsModeDuty (p : Params) : Input → Bool
  | .host acc =>
    match acc.write with
    | some v =>
      (match windowReg acc.off, decode v with
       | .cmd, .command i => !rawModeWrite p i
       | _, _ => true)
    | none => true
  | .sequencer => true
  | .sequencerWithEdge => true
  | .edge => true
  | .edgeDuring => true
  | .clock _ => true
  | .blockReset => true

/-- The value a move writes to FREQ, if it does. -/
def freqWritten : Input → Option Word
  | .host acc => if windowReg acc.off = .freq then acc.write else none
  | .sequencer => none
  | .sequencerWithEdge => none
  | .edge => none
  | .edgeDuring => none
  | .clock _ => none
  | .blockReset => none

/-- A CMD write of SETFREQ. -/
def issuesSetfreq : Input → Bool
  | .host acc => decide (windowReg acc.off = .cmd) && decide (acc.write.map decode = some (.command .setfreq))
  | .sequencer => false
  | .sequencerWithEdge => false
  | .edge => false
  | .edgeDuring => false
  | .clock _ => false
  | .blockReset => false

/-- R210 over the moves of a launch, `written` telling whether FREQ has been: the host writes FREQ once, with
FREQ_HZ, before the SETFREQ of initialization, so no SETFREQ comes before that write and no other write to FREQ
after it. A block reset begins a launch anew. -/
def keepsFreqDuty (freqHz : Word) : Bool → List Input → Bool
  | _, [] => true
  | _, .blockReset :: rest => keepsFreqDuty freqHz false rest
  | written, i :: rest =>
    match freqWritten i with
    | some v => !written && decide (v = freqHz) && keepsFreqDuty freqHz true rest
    | none => (written || !issuesSetfreq i) && keepsFreqDuty freqHz written rest

/-! ### One caller (R212) -/

/-- A move of the host. -/
def isHostMove : Input → Bool
  | .host _ => true
  | .sequencer => false
  | .sequencerWithEdge => false
  | .edge => false
  | .edgeDuring => false
  | .clock _ => false
  | .blockReset => false

/-- A write to CMD. -/
def isCommandWrite : Input → Bool
  | .host acc => acc.write.isSome && decide (windowReg acc.off = .cmd)
  | .sequencer => false
  | .sequencerWithEdge => false
  | .edge => false
  | .edgeDuring => false
  | .clock _ => false
  | .blockReset => false

/-- R212 of one run of a host program, an `ISSUE` or a whole procedure: from its first access to its last no
other caller accesses the window, so it runs inside an exclusive section. -/
def Surroundings.exclusive (w : Surroundings) : Bool :=
  w.moves.all (fun before => before.all (fun i => !isHostMove i))

/-- What several callers, told apart by a number, do to the block. -/
inductive CallerEvent where
  /-- A caller enters its exclusive section. -/
  | enter (caller : Nat)
  /-- A caller leaves its exclusive section. -/
  | leave (caller : Nat)
  /-- A move; the caller is the one whose access it is, and says nothing of another agent's move. -/
  | move (caller : Nat) (i : Input)
deriving DecidableEq, Repr

/-- What a caller may do while the section is held by `owner`, if by anyone: CMD is written only inside the
writer's own section, and no other caller accesses the window while one is held (R212; log 31). -/
def callerMayMove (owner : Option Nat) (caller : Nat) (i : Input) : Bool :=
  !isHostMove i || decide (owner = some caller) || (decide (owner = none) && !isCommandWrite i)

/-- R212 of several callers: at most one holds the section, every `ISSUE` lies inside its caller's, from the CMD
write to BUSY = 0, and nobody else's access falls into it. A procedure is in one section when its caller enters
before its first access and leaves after its last. What follows a step that stops is not judged. -/
def keepsExclusion : Option Nat → List CallerEvent → State → Bool
  | _, [], _ => true
  | owner, .enter c :: rest, s => decide (owner = none) && keepsExclusion (some c) rest s
  | owner, .leave c :: rest, s => decide (owner = some c) && !s.busy && keepsExclusion none rest s
  | owner, .move c i :: rest, s =>
    callerMayMove owner c i &&
      (match step (s.schedule i) with
       | .next t => keepsExclusion owner rest t
       | .fault _ => true
       | .refused _ => true)

/-! ### After a failed initialization (R214) -/

/-- R214 over the moves that follow an `init` that returned InitializationFailure: no command is issued until a
reset of the system, which the block sees as its own reset (log 33). `launch` keeps it. -/
def keepsTerminalDuty : List Input → Bool
  | [] => true
  | .blockReset :: _ => true
  | i :: rest => !isCommandWrite i && keepsTerminalDuty rest

/-! ### Admitted moves -/

/-- An access R70 admits: the only kind that is no fault (R71). -/
def admittedMove : Input → Bool
  | .host acc => acc.admitted
  | .sequencer => true
  | .sequencerWithEdge => true
  | .edge => true
  | .edgeDuring => true
  | .clock _ => true
  | .blockReset => true

end Sys2Proof.Machine
end

