-- ==== Sys2Proof/Certificates/Slice0/Obligations.lean ====
section
/-! DEFINITION. The statements for the provers. Each `Obligations.<Name>` says in its docstring which rule of
spec/ it formalises; the helpers before them write the spec's own formulas out again, so that a
statement does not rest on the model's functions where the spec gives a formula. -/

open Sys2Proof
open Sys2Proof.Machine

/-! ### The spec's formulas, written out -/

namespace Sys2Proof.Claims

/-- The result code of a command whose last transaction answered `ok` (R241). -/
def endCode (ok : Bool) : ResultCode := if ok then .ok else .xferFail

/-- The bits that must be 0 for each assigned opcode (R90, R92, the "fields used" column of R95). -/
def mustBeZero (opc : BitVec 4) : Word :=
  if opc = 0x0#4 then 0x0FFFFFFF#32
  else if opc = 0x1#4 then 0x0F80FFFF#32
  else if opc = 0x2#4 then 0x0F80FF00#32
  else if opc = 0x3#4 then 0x0F8000FF#32
  else if opc = 0x4#4 then 0x0F8000FF#32
  else if opc = 0x5#4 then 0x0CFFFFFF#32
  else if opc = 0x9#4 then 0x0FFFFFF0#32
  else 0x0FFFFFFF#32

/-- `MODE_CODE(m)` (R11). -/
def specModeCode (p : Params) : OpMode → Nat
  | .sleep => p.codeSleep
  | .standby => p.codeStandby
  | .transmit => p.codeTransmit
  | .receiveContinuous => p.codeReceive

/-- The byte `0x80 | MODE_CODE(m)` (R141). -/
def specModeByte (p : Params) (m : OpMode) : Byte := 0x80#8 ||| BitVec.ofNat 8 (specModeCode p m)

/-- The two-bit selector of a mode (R91, R140). -/
def specSelector : OpMode → BitVec 2
  | .sleep => 0#2
  | .standby => 1#2
  | .transmit => 2#2
  | .receiveContinuous => 3#2

/-- `floor(f * 2^19 / 32 000 000)` (R160). -/
def specTune (f : Word) : Nat := 524288 * f.toNat / 32000000

/-- The three writes of SETFREQ as far as they went, with their `ok`s (R163, R164). -/
def tuneEvents (p : Params) (q : BitVec 24) (oks : List Bool) : List Txn :=
  List.zipWith (fun ab ok => Txn.wr ab.1 [ab.2] ok)
    [(BitVec.ofNat 7 p.regs.frfMsb, q.extractLsb' 16 8),
     (BitVec.ofNat 7 (p.regs.frfMsb + 1), q.extractLsb' 8 8),
     (BitVec.ofNat 7 (p.regs.frfMsb + 2), q.extractLsb' 0 8)] oks

/-- The class of a flags byte by its bits (R12, R186). -/
def specClass (p : Params) (v : Byte) : SvcClass :=
  if v.getLsbD p.bitRxDone = true ∧ v.getLsbD p.bitCrcErr = false then .rx
  else if v.getLsbD p.bitTxDone = true then .tx
  else if v.getLsbD p.bitCrcErr = true then .crc
  else .none

/-- The sequencer performs the command `i` in the next step (R32, R93). -/
def performs (s : State) (i : Instr) : Prop :=
  s.busy = true ∧ decode s.cmdl = .command i ∧
    (s.nextInput = .sequencer ∨ s.nextInput = .sequencerWithEdge)

/-- The commands that access the radio (R60, R241). -/
def usesBus : Instr → Bool
  | .nop => false
  | .rdreg _ => true
  | .wrreg _ _ => true
  | .rdburst _ _ => true
  | .wrburst _ _ => true
  | .setmode _ => true
  | .calcfreq => false
  | .setfreq => true
  | .service => true
  | .clrflags _ => false

/-- R118's table: how many transactions a command appends, `s` before it and `t` after it. SERVICE tests IRQP, the
field `irqp`: an edge deferred to the end of its step is not yet IRQP (R185; DEDUCED, log 32). -/
def txnCountFits (i : Instr) (s t : State) (n : Nat) : Prop :=
  match i with
  | .nop => n = 0
  | .rdreg _ => n = 1
  | .wrreg _ _ => n = 1
  | .rdburst _ _ => n = 1
  | .wrburst _ _ => n = 1
  | .setmode _ => n = 1
  | .calcfreq => n = 0
  | .setfreq =>
    (t.result = .ok → n = 3) ∧ (t.result = .freqRange → n = 0) ∧ (t.result = .xferFail → 1 ≤ n ∧ n ≤ 3) ∧
      t.result ≠ .illegal
  | .service =>
    if s.irqp = false ∧ s.pollen = false then n = 0
    else (s.answersOk = true → n = 2) ∧ (s.answersOk = false → n = 1)
  | .clrflags _ => n = 0

end Sys2Proof.Claims

open Sys2Proof.Claims

/-! ### Encoding (30_encoding.md) -/

/-- R90, R91, R95: decoding the word of a command gives the command back, every operand at every value. -/
def Obligations.DecodeOfEncodeIsTheCommand : Prop :=
  ∀ i : Instr, decode (encode i) = .command i

/-- R92, R93, R95: a word that decodes to a command is that command's word, so no bit is dropped. -/
def Obligations.EncodeOfDecodeIsTheWord : Prop :=
  ∀ (w : Word) (i : Instr), decode w = .command i → encode i = w

/-- R96 (with R92's fields): reserved opcodes, nonzero unused fields, and nonzero words of opcode 0 are
Illegal; every other word is a command. That decode names the cause R242 distinguishes is the model's reading
(DEDUCED, log 23). -/
def Obligations.IllegalWordsAreExactlyReservedOrNonzeroUnused : Prop :=
  ∀ w : Word,
    (0xA#4 ≤ w.extractLsb' 28 4 → decode w = .illegal .reservedOpcode) ∧
    (w.extractLsb' 28 4 < 0xA#4 → w &&& mustBeZero (w.extractLsb' 28 4) ≠ 0#32 →
      decode w = .illegal .nonzeroUnusedField) ∧
    (w.extractLsb' 28 4 < 0xA#4 → w &&& mustBeZero (w.extractLsb' 28 4) = 0#32 →
      ∃ i, decode w = .command i)

/-- R101 (which the spec derives from R90, R95 and R98): the spec's encoding examples. The default register numbers
are the model's (PRESUMED, log 4), and that decode names the causes R242 distinguishes is its reading (DEDUCED,
log 23). -/
def Obligations.EncodingExamplesDecode : Prop :=
  decode 0x10420000#32 = .command (.rdreg 0x42#7) ∧
  decode 0x201200FF#32 = .command (.wrreg 0x12#7 0xFF#8) ∧
  decode 0x40000200#32 = .command (.wrburst 0x00#7 2#8) ∧
  decode 0x30000500#32 = .command (.rdburst 0x00#7 5#8) ∧
  decode 0x52000000#32 = .command (.setmode .transmit) ∧
  decode 0x90000003#32 = .command (.clrflags 0x3#4) ∧
  decode 0x54000000#32 = .illegal .nonzeroUnusedField ∧
  decode 0xA0000000#32 = .illegal .reservedOpcode ∧
  decode 0x10420001#32 = .illegal .nonzeroUnusedField ∧
  RadioRegs.default.version = 0x42 ∧ RadioRegs.default.irqFlags = 0x12 ∧ RadioRegs.default.fifo = 0x00

/-- R98: the word of each line of the syntax, and no word for an operand outside its range. -/
def Obligations.AssembledWordsFollowTheSyntaxTable : Prop :=
  (∀ a, (AsmLine.rdreg a).word =
    if a ≤ 0x7F then some (0x10000000#32 ||| (BitVec.ofNat 32 a <<< 16)) else none) ∧
  (∀ a d, (AsmLine.wrreg a d).word =
    if a ≤ 0x7F ∧ d ≤ 255 then some (0x20000000#32 ||| (BitVec.ofNat 32 a <<< 16) ||| BitVec.ofNat 32 d)
    else none) ∧
  (∀ a n, (AsmLine.rdburst a n).word =
    if a ≤ 0x7F ∧ n ≤ 255 then
      some (0x30000000#32 ||| (BitVec.ofNat 32 a <<< 16) ||| (BitVec.ofNat 32 n <<< 8))
    else none) ∧
  (∀ a n, (AsmLine.wrburst a n).word =
    if a ≤ 0x7F ∧ n ≤ 255 then
      some (0x40000000#32 ||| (BitVec.ofNat 32 a <<< 16) ||| (BitVec.ofNat 32 n <<< 8))
    else none) ∧
  (∀ m, (AsmLine.clrflags m).word =
    if m ≤ 15 then some (0x90000000#32 ||| BitVec.ofNat 32 m) else none) ∧
  AsmLine.nop.word = some 0x00000000#32 ∧
  (AsmLine.setmode .sleep).word = some 0x50000000#32 ∧
  (AsmLine.setmode .standby).word = some 0x51000000#32 ∧
  (AsmLine.setmode .transmit).word = some 0x52000000#32 ∧
  (AsmLine.setmode .receiveContinuous).word = some 0x53000000#32 ∧
  AsmLine.calcfreq.word = some 0x60000000#32 ∧
  AsmLine.setfreq.word = some 0x70000000#32 ∧
  AsmLine.service.word = some 0x80000000#32

/-! ### The sequencer -/

/-- R7, R32: with a command latched and the sequencer's turn, a step is `exec` of the decoded command,
the turn taken from the schedule (log 1), and then IRQP is set if an edge is deferred to its end (R78; DEDUCED,
log 32). With a DIO0 edge in the same clock it is that step with IRQP = 1 after
it, and for an Illegal word (R94) RESULT, BUSY and IRQP alone change: that the coincident edge is the whole step
followed by the set is the model's reading of R78, R79 and R184 (DEDUCED, log 9). -/
def Obligations.StepRunsTheDecodedCommand : Prop :=
  (∀ (s : State) (i : Instr), s.cfg.wf = true → s.busy = true → decode s.cmdl = .command i →
    ∃ t, exec i s.popInput = .next t ∧
      (s.nextInput = .sequencer → step s = .next { t with irqp := t.irqp || s.edgeHeld, edgeHeld := false }) ∧
      (s.nextInput = .sequencerWithEdge → step s = .next { t with irqp := true, edgeHeld := false })) ∧
  ∀ (s : State) (c : IllegalCause), s.cfg.wf = true → s.busy = true → decode s.cmdl = .illegal c →
    s.nextInput = .sequencerWithEdge →
    ∃ t, step s = .next t ∧
      t = { s with result := .illegal, busy := false, irqp := true, edgeHeld := false, inputs := s.inputs.tail }

/-- R94: performing an Illegal word makes no transaction and changes no state except RESULT and BUSY. The step is
that and then, as after any command, an edge deferred to its end (the model's, log 32). -/
def Obligations.IllegalCommandChangesOnlyResultAndBusy : Prop :=
  ∀ (s : State) (c : IllegalCause), s.cfg.wf = true → s.nextInput = .sequencer → s.busy = true →
    decode s.cmdl = .illegal c →
    ∃ t, t = { s with result := .illegal, busy := false, inputs := t.inputs } ∧
      performLatched s.popInput = .next t ∧
      step s = .next { t with irqp := s.irqp || s.edgeHeld, edgeHeld := false }

/-- R32, R76, R99: in an idle block a host's write of a command's word to CMD latches it and sets BUSY,
and the sequencer's next step performs exactly that command (an edge deferred to its end, which no idle block of a
run has, then sets IRQP: log 32). -/
def Obligations.IssuedCommandIsPerformed : Prop :=
  ∀ (s : State) (i : Instr), s.cfg.wf = true → s.busy = false →
    step (s.schedule (.host ⟨32, 0x000, some (encode i)⟩)) =
      .next { s with cmdl := encode i, busy := true } ∧
    ∃ t, exec i { s with cmdl := encode i, busy := true } = .next t ∧
      step (({ s with cmdl := encode i, busy := true } : State).schedule .sequencer) =
        .next { t with irqp := t.irqp || s.edgeHeld, edgeHeld := false }

/-- R250, R251: every command ends: a next state, idle, with chip-select deasserted (R67), and no command
blocks later ones. XFER_FAIL comes only from a command that uses the bus, FREQ_RANGE only from CALCFREQ
and SETFREQ, and ILLEGAL from none (R241). -/
def Obligations.EveryCommandEndsIdle : Prop :=
  ∀ (i : Instr) (s : State), s.csN = true →
    ∃ t, exec i s = .next t ∧ t.busy = false ∧ t.csN = true ∧ t.inputs = s.inputs ∧ t.cfg = s.cfg ∧
      (t.result = .xferFail → usesBus i = true) ∧
      (t.result = .freqRange → i = .calcfreq ∨ i = .setfreq) ∧ t.result ≠ .illegal

/-- How many transactions each command, and an Illegal word, appends to TRACE (R164, R185, R243, R94), as R118's
summary counts them but for one loose word: it gives SETFREQ "fewer" than 3 on XFER_FAIL, while a failed LSB
write is the third transaction and is recorded like any other (R164), so 3 is possible there. SERVICE counts by the
field `irqp`: an edge deferred to the end of its step is not yet IRQP (DEDUCED, log 32). -/
def Obligations.TransactionsPerCommand : Prop :=
  (∀ (i : Instr) (s : State),
    ∃ t added, exec i s = .next t ∧ t.trace = s.trace ++ added ∧ txnCountFits i s t added.length ∧
      (t.result = .ok → ∀ e ∈ added, e.ok = true) ∧
      (t.result = .xferFail → ∃ front e, added = front ++ [e] ∧ e.ok = false ∧ ∀ x ∈ front, x.ok = true)) ∧
  ∀ (s : State) (c : IllegalCause), decode s.cmdl = .illegal c →
    ∃ t, performLatched s = .next t ∧ t.trace = s.trace

/-! ### Transport (40_transport.md) -/

/-- R110: NOP leaves all state unchanged except that RESULT becomes OK (and BUSY ends, R22); its word is 0,
and any other word with OPC 0 is Illegal. -/
def Obligations.NopOnlyReportsOk : Prop :=
  (∀ s : State, exec .nop s = .next { s with result := .ok, busy := false }) ∧
  decode 0x00000000#32 = .command .nop ∧
  ∀ w : Word, w.extractLsb' 28 4 = 0x0#4 → w ≠ 0x00000000#32 → ∃ c, decode w = .illegal c

/-- R111: RDREG is one read of one byte into RDATA; the rest of the state is unchanged (`radio` and
`draws` are the model's own: log 2, 3). -/
def Obligations.RdregReadsOneByteIntoRdata : Prop :=
  ∀ (a : RegAddr) (s : State),
    exec (.rdreg a) s = .next { s with
      rdata := s.misoByte 0
      result := endCode s.answersOk
      busy := false
      csN := true
      trace := s.trace ++ [.rd a 1 [s.misoByte 0] s.answersOk]
      radio := s.radio.tail
      draws := s.draws + 2 }

/-- R112: WRREG is one write of the byte, unaltered; MVALID is lost exactly at ADDR_OPMODE; the rest of
the state is unchanged (`radio` and `draws` are the model's own: log 2, 3). -/
def Obligations.WrregWritesOneByte : Prop :=
  ∀ (a : RegAddr) (d : Byte) (s : State),
    exec (.wrreg a d) s = .next { s with
      mvalid := if a = BitVec.ofNat 7 s.cfg.regs.opMode then false else s.mvalid
      result := endCode s.answersOk
      busy := false
      csN := true
      trace := s.trace ++ [.wr a [d] s.answersOk]
      radio := s.radio.tail
      draws := s.draws + 2 }

/-- R113, R116: RDBURST is one read of n bytes; BUF[0..n-1] takes them in order and every other byte of
BUF is unchanged; the rest of the state is unchanged (`radio` and `draws` are the model's own: log 2, 3). -/
def Obligations.RdburstFillsTheFirstBytesOfBuf : Prop :=
  ∀ (a : RegAddr) (n : Byte) (s : State), Memory.wf bufSize s.buf = true →
    ∃ t d, exec (.rdburst a n) s = .next t ∧
      d = (List.range n.toNat).map s.misoByte ∧
      t.trace = s.trace ++ [.rd a n.toNat d s.answersOk] ∧
      (∀ k, k < n.toNat → Memory.read t.buf k = s.misoByte k) ∧
      (∀ k, n.toNat ≤ k → Memory.read t.buf k = Memory.read s.buf k) ∧
      t = { s with
        buf := t.buf
        result := endCode s.answersOk
        busy := false
        csN := true
        trace := t.trace
        radio := s.radio.tail
        draws := s.draws + n.toNat + 1 }

/-- R115, R116: WRBURST is one write of BUF[0..n-1], BUF[0] first, unmodified; BUF is unchanged; MVALID is
lost exactly when a byte goes to ADDR_OPMODE; the rest of the state is unchanged (`radio` and `draws` are the model's
own: log 2, 3). -/
def Obligations.WrburstSendsTheFirstBytesOfBuf : Prop :=
  ∀ (a : RegAddr) (n : Byte) (s : State),
    exec (.wrburst a n) s = .next { s with
      mvalid := if a = BitVec.ofNat 7 s.cfg.regs.opMode ∧ 1 ≤ n.toNat then false else s.mvalid
      result := endCode s.answersOk
      busy := false
      csN := true
      trace := s.trace ++ [.wr a ((List.range n.toNat).map (Memory.read s.buf)) s.answersOk]
      radio := s.radio.tail
      draws := s.draws + n.toNat + 1 }

/-- R114: a zero-length burst performs one transaction without data bytes, changes no byte of BUF, keeps
MVALID, and ends with OK or XFER_FAIL. -/
def Obligations.ZeroLengthBurstsPerformOneEmptyFrame : Prop :=
  ∀ (a : RegAddr) (s : State),
    ∃ t u, exec (.rdburst a 0#8) s = .next t ∧ exec (.wrburst a 0#8) s = .next u ∧
      t.trace = s.trace ++ [.rd a 0 [] s.answersOk] ∧ u.trace = s.trace ++ [.wr a [] s.answersOk] ∧
      t.buf = s.buf ∧ u.buf = s.buf ∧ t.mvalid = s.mvalid ∧ u.mvalid = s.mvalid ∧
      t.result = endCode s.answersOk ∧ u.result = endCode s.answersOk ∧ t.csN = true ∧ u.csN = true ∧
      (Txn.rd a 0 [] s.answersOk).wire s.cfg = [.cs false, .mosi (a.setWidth 8), .cs true] ∧
      (Txn.wr a [] s.answersOk).wire s.cfg = [.cs false, .mosi (0x80#8 ||| a.setWidth 8), .cs true]

/-- R19: `ok` is 1 unless XFER_CAN_FAIL; an answer the radio gives is what the block reads. -/
def Obligations.TransfersFailOnlyWhenTheyCan : Prop :=
  ∀ s : State,
    (s.cfg.xferCanFail = false → s.answersOk = true) ∧
    (∀ r rest, s.radio = r :: rest → s.cfg.xferCanFail = true → s.answersOk = r.ok) ∧
    (∀ r rest k (h : k < r.miso.length), s.radio = r :: rest → s.misoByte k = r.miso[k])

/-- R66, R61, R67: the bytes of a frame on MOSI, the configured MOSI_FILL (R14) for each byte read, chip-select
around them, and 8·(n+1) bits (R292). -/
def Obligations.FrameBytesAndBits : Prop :=
  (∀ (p : Params) (a : RegAddr) (n : Nat) (d : List Byte) (ok : Bool),
    (Txn.rd a n d ok).mosi p = BitVec.setWidth 8 a :: List.replicate n p.mosiFill) ∧
  (∀ (p : Params) (a : RegAddr) (v : List Byte) (ok : Bool),
    (Txn.wr a v ok).mosi p = (0x80#8 ||| BitVec.setWidth 8 a) :: v) ∧
  (∀ (p : Params) (t : Txn),
    t.wire p = [.cs false] ++ (t.mosi p).map .mosi ++ [.cs true] ∧
    (t.mosiBits p).length = 8 * (t.len + 1)) ∧
  (∀ (b : Byte) (k : Nat) (h : k < (msbFirst b).length), (msbFirst b)[k] = b.getLsbD (7 - k))

/-! ### Mode (41_mode.md) -/

/-- R141, R143, R144: SETMODE writes the mode byte from every state; MODE and MVALID follow the outcome;
the rest of the state is unchanged; its word is 0x5000_0000 | m<<24. -/
def Obligations.SetmodeWritesTheModeByte : Prop :=
  ∀ m : OpMode,
    decode (0x50000000#32 ||| ((specSelector m).setWidth 32 <<< 24)) = .command (.setmode m) ∧
    ∀ s : State, ∃ t, exec (.setmode m) s = .next t ∧
      t = { s with
        mode := if s.answersOk then m else s.mode
        mvalid := s.answersOk
        result := endCode s.answersOk
        busy := false
        csN := true
        trace := s.trace ++
          [.wr (BitVec.ofNat 7 s.cfg.regs.opMode) [specModeByte s.cfg m] s.answersOk]
        radio := t.radio
        draws := t.draws }

/-- R142: the byte SETMODE writes, whatever mode is asked for, is `0x80 | MODE_CODE(m)`: bit 7 is set and
bits 6 to 0 are the mode code. -/
def Obligations.ModeByteAlwaysHasTheLongRangeBit : Prop :=
  ∀ (m : OpMode) (s : State), s.cfg.wf = true →
    ∃ t b ok, exec (.setmode m) s = .next t ∧
      t.trace = s.trace ++ [.wr (BitVec.ofNat 7 s.cfg.regs.opMode) [b] ok] ∧
      b = specModeByte s.cfg m ∧ b.getLsbD 7 = true ∧
      (b.extractLsb' 0 7).toNat = specModeCode s.cfg m

/-- R145: MODE changes only through SETMODE and reset. -/
def Obligations.ModeChangesOnlyBySetmodeOrReset : Prop :=
  ∀ s t : State, step s = .next t → t.mode ≠ s.mode →
    performs s (.setmode t.mode) ∨ s.nextInput = .blockReset

/-! ### Frequency (42_freq.md) -/

/-- R161: CALCFREQ puts floor(FREQ * 2^19 / 32 000 000) into TUNE, or reports FREQ_RANGE where it needs more
than 24 bits; no transaction, the rest of the state is unchanged; its word is 0x6000_0000. -/
def Obligations.CalcfreqLatchesTheTuningWord : Prop :=
  decode 0x60000000#32 = .command .calcfreq ∧
  ∀ s : State,
    (specTune s.freq < 2 ^ 24 →
      exec .calcfreq s = .next { s with
        tune := BitVec.ofNat 24 (specTune s.freq)
        result := .ok
        busy := false } ∧
      (BitVec.ofNat 24 (specTune s.freq)).toNat = specTune s.freq) ∧
    (2 ^ 24 ≤ specTune s.freq →
      exec .calcfreq s = .next { s with result := .freqRange, busy := false })

/-- R162, R244: the tuning word fits in 24 bits exactly below 1 024 000 000 (a sentence of R162 that the spec derives,
from R160's formula); from there on CALCFREQ and SETFREQ report FREQ_RANGE and write nothing. -/
def Obligations.OutOfRangeFrequencyWritesNothing : Prop :=
  (∀ f : Word, specTune f < 2 ^ 24 ↔ f.toNat < 1024000000) ∧
  ∀ s : State, 1024000000 ≤ s.freq.toNat →
    exec .calcfreq s = .next { s with result := .freqRange, busy := false } ∧
    exec .setfreq s = .next { s with result := .freqRange, busy := false }

/-- R164, R166, R243: SETFREQ latches TUNE and writes MSB, MID, LSB, each in a frame of its own, stopping at
the first that fails; the rest of the state is unchanged; out of range it reports FREQ_RANGE; its word is
0x7000_0000. -/
def Obligations.SetfreqWritesMsbMidLsb : Prop :=
  decode 0x70000000#32 = .command .setfreq ∧
  (∀ s : State, 1024000000 ≤ s.freq.toNat →
    exec .setfreq s = .next { s with result := .freqRange, busy := false }) ∧
  ∀ s : State, s.freq.toNat < 1024000000 →
    ∃ t oks, exec .setfreq s = .next t ∧
      (oks = [false] ∨ oks = [true, false] ∨ oks = [true, true, false] ∨ oks = [true, true, true]) ∧
      (s.cfg.xferCanFail = false → oks = [true, true, true]) ∧
      t = { s with
        tune := BitVec.ofNat 24 (specTune s.freq)
        result := endCode (decide (oks = [true, true, true]))
        busy := false
        csN := true
        trace := s.trace ++ tuneEvents s.cfg (BitVec.ofNat 24 (specTune s.freq)) oks
        radio := t.radio
        draws := t.draws }

/-- R160, and R167, whose last sentence the spec derives from it: the tuning word is the largest q with q · 61.03515625 at most f (one unit is 15625/256 Hz),
and 915 000 000 and 915 000 001 share the word 0xE4C000. -/
def Obligations.TuningWordIsTheLargestStepBelow : Prop :=
  (∀ f : Word, tuningWord f = specTune f ∧
    ∀ q : Nat, q * 15625 ≤ 256 * f.toNat ↔ q ≤ tuningWord f) ∧
  tuningWord 915000000#32 = 0xE4C000 ∧ tuningWord 915000001#32 = 0xE4C000

/-- R163, R69: the three bytes are the word, most significant first, at three consecutive addresses. -/
def Obligations.TuningBytesAreTheWordMsbFirst : Prop :=
  ∀ (p : Params) (q : TuneWord), p.wf = true →
    ∃ a b c : RegAddr × Byte, tuneWrites p q = [a, b, c] ∧
      a.2.toNat * 65536 + b.2.toNat * 256 + c.2.toNat = q.toNat ∧
      a.1.toNat = p.regs.frfMsb ∧ b.1.toNat = p.regs.frfMsb + 1 ∧ c.1.toNat = p.regs.frfMsb + 2

/-! ### Detector (43_detector.md) -/

/-- R185, R186: with neither IRQP nor polling, SERVICE touches no bus; else it reads the flags, writes the
same byte back, and classifies only after both succeeded; at most one sticky flag is set, none is cleared;
the rest of the state is unchanged; its word is 0x8000_0000. IRQP is the field `irqp`, and an edge deferred to the
end of the step is not yet IRQP (DEDUCED, log 32); LASTFLAGS takes the byte read although the write-back then fails
(DEDUCED, log 20). -/
def Obligations.ServiceReadsClearsAndClassifies : Prop :=
  decode 0x80000000#32 = .command .service ∧
  (∀ s : State, s.irqp = false → s.pollen = false →
    exec .service s = .next { s with svc := .none, result := .ok, busy := false }) ∧
  ∀ s : State, (s.irqp = true ∨ s.pollen = true) →
    ∃ t, exec .service s = .next t ∧
      t = { s with
        irqp := false, lastFlags := t.lastFlags, svc := t.svc
        rxc := t.rxc, txc := t.txc, crcd := t.crcd
        result := t.result, busy := false, csN := true
        trace := t.trace, radio := t.radio, draws := t.draws } ∧
      (s.answersOk = false →
        t.trace = s.trace ++
          [.rd (BitVec.ofNat 7 s.cfg.regs.irqFlags) 1 [s.misoByte 0] false] ∧
        t.lastFlags = s.lastFlags ∧ t.svc = .none ∧ t.result = .xferFail ∧
        t.rxc = s.rxc ∧ t.txc = s.txc ∧ t.crcd = s.crcd) ∧
      (s.answersOk = true →
        ∃ ok, t.trace = s.trace ++
          [.rd (BitVec.ofNat 7 s.cfg.regs.irqFlags) 1 [s.misoByte 0] true,
           .wr (BitVec.ofNat 7 s.cfg.regs.irqFlags) [s.misoByte 0] ok] ∧
        t.lastFlags = s.misoByte 0 ∧ t.result = endCode ok ∧
        t.svc = (if ok then specClass s.cfg (s.misoByte 0) else .none) ∧
        t.rxc = (s.rxc || (ok && decide (specClass s.cfg (s.misoByte 0) = .rx))) ∧
        t.txc = (s.txc || (ok && decide (specClass s.cfg (s.misoByte 0) = .tx))) ∧
        t.crcd = (s.crcd || (ok && decide (specClass s.cfg (s.misoByte 0) = .crc))))

/-- R188, R185, R186: with POLLEN = 1, SERVICE does the same whether or not IRQP was set, and it does read the
IRQ flags and, when it completes, classify the byte read; with POLLEN = 0 it touches the bus exactly when IRQP
was 1 (the field `irqp`: an edge deferred to the end of the step is not yet IRQP, DEDUCED, log 32); POLLEN resets
to 1. -/
def Obligations.PollAndInterruptPathsAgree : Prop :=
  (∀ (s : State) (b : Bool), s.pollen = true → exec .service { s with irqp := b } = exec .service s) ∧
  (∀ s : State, s.pollen = true →
    ∃ t rest, exec .service s = .next t ∧
      t.trace = s.trace ++ .rd (BitVec.ofNat 7 s.cfg.regs.irqFlags) 1 [s.misoByte 0] s.answersOk :: rest ∧
      (t.result = .ok → t.lastFlags = s.misoByte 0 ∧ t.svc = specClass s.cfg (s.misoByte 0))) ∧
  (∀ s : State, s.pollen = false →
    ∃ t, exec .service s = .next t ∧ (t.trace ≠ s.trace ↔ s.irqp = true)) ∧
  State.reset.pollen = true ∧ ∀ s : State, s.blockReset.pollen = true

/-- R190: CLRFLAGS clears exactly the selected sticky bits; no transaction; IRQP and the rest unchanged; its
word is 0x9000_0000 | m. -/
def Obligations.ClrflagsClearsTheSelectedBits : Prop :=
  ∀ m : BitVec 4,
    decode (0x90000000#32 ||| m.setWidth 32) = .command (.clrflags m) ∧
    ∀ s : State,
      exec (.clrflags m) s = .next { s with
        txc := if m.getLsbD 0 then false else s.txc
        rxc := if m.getLsbD 1 then false else s.rxc
        crcd := if m.getLsbD 2 then false else s.crcd
        ovr := if m.getLsbD 3 then false else s.ovr
        result := .ok
        busy := false }

/-- R191 (with the reset of R270): only SERVICE sets TXC, RXC and CRCD, only CLRFLAGS with its mask bit and
reset clear them, and an edge, also while BUSY = 1, only sets IRQP. -/
def Obligations.OnlyServiceAndClrflagsTouchTheStickyFlags : Prop :=
  ∀ s t : State, step s = .next t →
    (s.txc = false → t.txc = true → performs s .service) ∧
    (s.rxc = false → t.rxc = true → performs s .service) ∧
    (s.crcd = false → t.crcd = true → performs s .service) ∧
    (s.txc = true → t.txc = false →
      (∃ m, performs s (.clrflags m) ∧ m.getLsbD 0 = true) ∨ s.nextInput = .blockReset) ∧
    (s.rxc = true → t.rxc = false →
      (∃ m, performs s (.clrflags m) ∧ m.getLsbD 1 = true) ∨ s.nextInput = .blockReset) ∧
    (s.crcd = true → t.crcd = false →
      (∃ m, performs s (.clrflags m) ∧ m.getLsbD 2 = true) ∨ s.nextInput = .blockReset) ∧
    (s.nextInput = .edge → t = { s with irqp := true, inputs := t.inputs })

/-- R43 (with the reset of R270): only the DIO0 synchronizer sets IRQP and only SERVICE and reset clear it. An edge
deferred to the end of the latched command's step sets it there, and no other move defers one (the model's reading
of R78, DEDUCED, log 32). -/
def Obligations.OnlyDio0SetsAndOnlyServiceClearsIrqp : Prop :=
  ∀ s t : State, step s = .next t →
    (s.irqp = false → t.irqp = true →
      s.nextInput = .edge ∨ s.nextInput = .edgeDuring ∨ s.nextInput = .sequencerWithEdge ∨
        (∃ d, s.nextInput = .clock d) ∨ (s.nextInput = .sequencer ∧ s.busy = true ∧ s.edgeHeld = true)) ∧
    (s.edgeHeld = false → t.edgeHeld = true → s.nextInput = .edgeDuring ∧ s.busy = true) ∧
    (s.irqp = true → t.irqp = false → performs s .service ∨ s.nextInput = .blockReset)

/-- An edge in the clock of SERVICE's test-and-clear wins (R184, R79): IRQP is 1 after both. That SERVICE itself
acts on the old IRQP, and that the clock is its whole step followed by the set, is the model's reading of R78
(DEDUCED, log 9); a deferred edge is then part of the same IRQP = 1 (log 32). -/
def Obligations.CoincidentEdgeWins : Prop :=
  ∀ s : State, s.cfg.wf = true → s.nextInput = .sequencerWithEdge → s.busy = true →
    decode s.cmdl = .command .service →
    ∃ t, exec .service s.popInput = .next t ∧ step s = .next { t with irqp := true, edgeHeld := false }

/-- R78, R254: while a command, or an Illegal word, is latched, SERVICE too, a deferred edge before its step leaves
the very state that an edge just after it leaves (DEDUCED, log 32). R182 read alone: an edge sets IRQP at once, at
every point, and setting it again leaves it 1; for every command but SERVICE, which tests IRQP (R185), that too
leaves the state that an edge just after its step leaves. -/
def Obligations.EdgeCommutesWithEveryOtherCommand : Prop :=
  (∀ s : State, s.cfg.wf = true → s.busy = true →
    ∃ t u v, step (s.schedule .edgeDuring) = .next t ∧ step (t.schedule .sequencer) = .next u ∧
      step (s.schedule .sequencer) = .next v ∧ step (v.schedule .edge) = .next u ∧ u.irqp = true) ∧
  (∀ s : State, s.cfg.wf = true → step (s.schedule .edge) = .next { s with irqp := true }) ∧
  ∀ s : State, s.cfg.wf = true → s.busy = true → decode s.cmdl ≠ .command .service →
    ∃ t u v, step (s.schedule .edge) = .next t ∧ step (t.schedule .sequencer) = .next u ∧
      step (s.schedule .sequencer) = .next v ∧ step (v.schedule .edge) = .next u ∧ u.irqp = true

/-- R182, R273 (the clocking order is the model's, log 8): from a synchronizer at rest at 0 with the rising
edge selected, `dio0` held high sets IRQP at clock SYNC_STAGES + 1; held low it never sets it. -/
def Obligations.SynchronizerDetectsARisingLine : Prop :=
  ∀ (s : State) (n : Nat), s.cfg.irqEdge = .rising → s.sync = List.replicate n false → s.eprev = false →
    s.irqp = false → 1 ≤ n →
    ((fun x : State => x.clockSync true)^[n] s).irqp = false ∧
    ((fun x : State => x.clockSync true)^[n + 1] s).irqp = true ∧
    ∀ k, ((fun x : State => x.clockSync false)^[k] s).irqp = false

/-- R65: write-1-to-clear and its consequences; that a 0 bit leaves its flag unchanged is a sentence the spec
derives there. -/
def Obligations.WriteOneToClearClearsExactlyTheOnes : Prop :=
  ∀ f v e : Byte,
    (∀ i, (writeOneToClear f v).getLsbD i = (f.getLsbD i && !v.getLsbD i)) ∧
    writeOneToClear f f = 0#8 ∧ writeOneToClear f 0x00#8 = f ∧ writeOneToClear f 0xFF#8 = 0#8 ∧
    writeOneToClear (f ||| e) f = writeOneToClear e f ∧
    writeOneToClear (writeOneToClear f v) v = writeOneToClear f v

/-- R187 on the reference radio (R83, assumed openly: R82): a SERVICE that completes on it leaves its
IRQ-flags register clear, and LASTFLAGS holds what the register held. -/
def Obligations.ServiceClearsWhatItReadAtTheReferenceRadio : Prop :=
  ∀ (s t : State) (r r' : RefRadio) (added : List Txn),
    s.cfg.wf = true → s.cfg.regs.irqFlags ≠ s.cfg.regs.fifo → s.cfg.regs.irqFlags ≠ s.cfg.regs.version →
    Memory.wf 128 r.reg = true → (s.irqp = true ∨ s.pollen = true) →
    exec .service s = .next t → t.result = .ok → t.trace = s.trace ++ added →
    RefRadio.replay s.cfg (added.map (fun e => (e, true))) r = some r' →
    t.lastFlags = Memory.read r.reg s.cfg.regs.irqFlags ∧
    Memory.read r'.reg s.cfg.regs.irqFlags = 0#8 ∧
    ∀ a, a ≠ s.cfg.regs.irqFlags → Memory.read r'.reg a = Memory.read r.reg a

/-- R116 on the reference radio (R83): a FIFO write burst and a FIFO read burst, each after SETPTR 0, give
back in BUF the bytes written, in order. -/
def Obligations.FifoRoundTripReturnsTheBytes : Prop :=
  ∀ (s s1 s2 s3 s4 : State) (n : Byte) (r r' : RefRadio) (added : List Txn),
    s.cfg.wf = true → s.cfg.regs.fifo ≠ s.cfg.regs.fifoAddrPtr →
    s.cfg.regs.fifoAddrPtr ≠ s.cfg.regs.irqFlags → Memory.wf bufSize s.buf = true →
    Memory.wf 128 r.reg = true → Memory.wf 256 r.fifo = true →
    exec (.wrreg (BitVec.ofNat 7 s.cfg.regs.fifoAddrPtr) 0#8) s = .next s1 → s1.result = .ok →
    exec (.wrburst (BitVec.ofNat 7 s.cfg.regs.fifo) n) s1 = .next s2 → s2.result = .ok →
    exec (.wrreg (BitVec.ofNat 7 s.cfg.regs.fifoAddrPtr) 0#8) s2 = .next s3 → s3.result = .ok →
    exec (.rdburst (BitVec.ofNat 7 s.cfg.regs.fifo) n) s3 = .next s4 → s4.result = .ok →
    s4.trace = s.trace ++ added →
    RefRadio.replay s.cfg (added.map (fun e => (e, true))) r = some r' →
    (∀ k, Memory.read s4.buf k = Memory.read s.buf k) ∧ r'.fptr s.cfg = n.toNat

/-! ### Host window (10_state.md, 20_memory.md) -/

/-- R71, R247: an access that is not 32 bits wide, not at a multiple of 4, or at or above 0x200 is a host
bus error. -/
def Obligations.BadHostAccessIsABusError : Prop :=
  ∀ (s : State) (acc : BusAccess), s.cfg.wf = true → s.nextInput = .host acc →
    (acc.width ≠ 32 ∨ acc.off % 4 ≠ 0 ∨ 0x200 ≤ acc.off) →
    step s = .fault (.hostBusError acc.off)

/-- R246: the only stops of a step are the host bus error of such an access and the refused configuration. -/
def Obligations.OnlyBusErrorsAndBadConfigurationsStop : Prop :=
  ∀ s : State,
    (s.cfg.wf = false → step s = .refused .refusedConfiguration) ∧
    (s.cfg.wf = true → admittedMove s.nextInput = true → ∃ t, step s = .next t) ∧
    (∀ f, step s = .fault f → ∃ acc, s.nextInput = .host acc ∧ f = .hostBusError acc.off ∧
      (acc.width ≠ 32 ∨ acc.off % 4 ≠ 0 ∨ 0x200 ≤ acc.off)) ∧
    (∀ f, step s = .refused f → s.cfg.wf = false)

/-- R73: a host read changes nothing of the block: only the data returned, the draw counter and the
schedule, which are the model's own (log 1, 3, 10). -/
def Obligations.HostReadsHaveNoSideEffect : Prop :=
  ∀ (s : State) (off : Nat), s.cfg.wf = true → s.nextInput = .host ⟨32, off, none⟩ → off % 4 = 0 →
    off < 0x200 →
    ∃ v, step s = .next { s with busData := some v, draws := s.draws + 1, inputs := s.inputs.tail }

/-- R33: the fields of STATUS as read while BUSY = 0. -/
def Obligations.StatusReadsItsFields : Prop :=
  ∀ s : State, s.cfg.wf = true → s.nextInput = .host ⟨32, 0x004, none⟩ → s.busy = false →
    ∃ t v, step s = .next t ∧ t.busData = some v ∧
      v.getLsbD 0 = false ∧ v.getLsbD 1 = s.txc ∧ v.getLsbD 2 = s.rxc ∧ v.getLsbD 3 = s.crcd ∧
      v.getLsbD 4 = s.irqp ∧ v.getLsbD 5 = s.mvalid ∧
      v.extractLsb' 6 2 = (match s.mode with
        | .sleep => 0#2 | .standby => 1#2 | .transmit => 2#2 | .receiveContinuous => 3#2) ∧
      v.extractLsb' 8 3 = (match s.result with
        | .ok => 0#3 | .illegal => 1#3 | .xferFail => 2#3 | .freqRange => 3#3) ∧
      v.getLsbD 11 = s.ovr ∧ v.getLsbD 12 = s.radioRst ∧
      v.extractLsb' 13 2 = (match s.svc with | .none => 0#2 | .rx => 1#2 | .tx => 2#2 | .crc => 3#2) ∧
      v.extractLsb' 15 17 = 0#17

/-- R49: what is exact while BUSY = 1: STATUS's bit 0, OVR and RADIO_RST, and CTRL and FREQ. -/
def Obligations.BusyReadsAreExactWhereTheSpecSaysSo : Prop :=
  ∀ (s : State) (off : Nat), s.cfg.wf = true → s.nextInput = .host ⟨32, off, none⟩ → s.busy = true →
    (off = 0x004 ∨ off = 0x008 ∨ off = 0x010) →
    ∃ t v, step s = .next t ∧ t.busData = some v ∧
      (off = 0x004 → v.getLsbD 0 = true ∧ v.getLsbD 11 = s.ovr ∧ v.getLsbD 12 = s.radioRst) ∧
      (off = 0x008 → v.getLsbD 0 = s.radioRst ∧ v.getLsbD 1 = s.pollen ∧ v.extractLsb' 2 30 = 0#30) ∧
      (off = 0x010 → v = s.freq)

/-- R31, R35, R36, R37, R39, R51: what the other registers read while BUSY = 0, CMD and the reserved
offsets at any time. -/
def Obligations.IdleReadsOfTheDataRegisters : Prop :=
  ∀ (s : State) (off : Nat), s.cfg.wf = true → s.nextInput = .host ⟨32, off, none⟩ →
    off % 4 = 0 → off < 0x100 →
    ∃ t v, step s = .next t ∧ t.busData = some v ∧
      (off = 0x000 → v = 0#32) ∧
      (0x01C ≤ off → v = 0#32) ∧
      (off = 0x008 → v.toNat = s.radioRst.toNat + 2 * s.pollen.toNat) ∧
      (off = 0x010 → v = s.freq) ∧
      (s.busy = false → off = 0x00C → v.toNat = s.rdata.toNat) ∧
      (s.busy = false → off = 0x014 → v.toNat = s.tune.toNat) ∧
      (s.busy = false → off = 0x018 → v.toNat = s.lastFlags.toNat)

/-- R47, R245: a write to CMD, FREQ or a BUF word while BUSY = 1 is dropped and sets OVR. -/
def Obligations.OverrunDropsTheWriteAndSetsOvr : Prop :=
  ∀ (s : State) (off : Nat) (v : Word), s.cfg.wf = true → s.nextInput = .host ⟨32, off, some v⟩ →
    s.busy = true → (off = 0x000 ∨ off = 0x010 ∨ (0x100 ≤ off ∧ off < 0x200 ∧ off % 4 = 0)) →
    ∃ t, step s = .next t ∧ t = { s with ovr := true, inputs := t.inputs }

/-- R47 (with the reset of R270): OVR is sticky: a write to CMD, FREQ or BUF while BUSY = 1 sets it and is
itself ignored; nothing else sets it, and only CLRFLAGS with mask bit 3 and reset clear it. -/
def Obligations.OvrIsStickyUntilClrflags : Prop :=
  ∀ s t : State, step s = .next t →
    (∀ acc v, s.busy = true → s.nextInput = .host acc → acc.write = some v →
      (acc.off = 0x000 ∨ acc.off = 0x010 ∨ 0x100 ≤ acc.off) →
      t = { s with ovr := true, inputs := t.inputs }) ∧
    (s.ovr = false → t.ovr = true → s.busy = true ∧ ∃ acc v, s.nextInput = .host acc ∧
      acc.write = some v ∧ (acc.off = 0x000 ∨ acc.off = 0x010 ∨ 0x100 ≤ acc.off)) ∧
    (s.ovr = true → t.ovr = false →
      (∃ m, performs s (.clrflags m) ∧ m.getLsbD 3 = true) ∨ s.nextInput = .blockReset)

/-- R34, R37, R31, R51: CTRL takes its two bits whether or not BUSY is 1; FREQ takes the word when BUSY
is 0; read-only registers and reserved offsets ignore writes. -/
def Obligations.WritesToTheControlRegisters : Prop :=
  ∀ (s : State) (off : Nat) (v : Word), s.cfg.wf = true → s.nextInput = .host ⟨32, off, some v⟩ →
    off % 4 = 0 → off < 0x100 →
    (off = 0x008 → step s = .next { s with
      radioRst := v.getLsbD 0, pollen := v.getLsbD 1, inputs := s.inputs.tail }) ∧
    (off = 0x010 → s.busy = false → step s = .next { s with freq := v, inputs := s.inputs.tail }) ∧
    ((off = 0x004 ∨ off = 0x00C ∨ off = 0x014 ∨ 0x018 ≤ off) →
      step s = .next { s with inputs := s.inputs.tail })

/-- R38: a word written to BUF while BUSY = 0 puts its bytes in little-endian lanes, leaves every other byte
of BUF and all other state unchanged, and reads back. -/
def Obligations.BufWordsAreLittleEndianLanes : Prop :=
  ∀ (s : State) (k : Nat) (v : Word), s.cfg.wf = true → Memory.wf bufSize s.buf = true →
    s.busy = false → k < 64 →
    ∃ t, step (s.schedule (.host ⟨32, 0x100 + 4 * k, some v⟩)) = .next t ∧
      t = { s with buf := t.buf } ∧
      (∀ j, j < 4 → Memory.read t.buf (4 * k + j) = v.extractLsb' (8 * j) 8) ∧
      (∀ a, a < 4 * k ∨ 4 * k + 4 ≤ a → Memory.read t.buf a = Memory.read s.buf a) ∧
      step (t.schedule (.host ⟨32, 0x100 + 4 * k, none⟩)) =
        .next { t with busData := some v, draws := t.draws + 1 }

/-! ### Reset (70_reset_and_hazards.md) -/

/-- R270, R271: block reset puts every element of R30 at its reset value; the configuration, the schedule
and the radio are not the block's and stay; the radio's reset line is left deasserted; no edge is deferred (the
model's, log 32). -/
def Obligations.BlockResetSetsEveryElement : Prop :=
  ∀ s : State, s.cfg.wf = true → s.nextInput = .blockReset →
    ∃ t, step s = .next t ∧
      t.busy = false ∧ t.cmdl = 0#32 ∧ t.txc = false ∧ t.rxc = false ∧ t.crcd = false ∧ t.irqp = false ∧
      t.edgeHeld = false ∧
      t.sync = List.replicate s.cfg.syncStages false ∧ t.eprev = false ∧
      t.mode = .sleep ∧ t.mvalid = false ∧ t.result = .ok ∧ t.svc = .none ∧ t.ovr = false ∧
      t.radioRst = false ∧ t.pollen = true ∧ t.rdata = 0#8 ∧ t.lastFlags = 0#8 ∧ t.freq = 0#32 ∧
      t.tune = 0#24 ∧ (∀ k, Memory.read t.buf k = 0#8) ∧ t.csN = true ∧ t.trace = [] ∧
      t.cfg = s.cfg ∧ t.inputs = s.inputs.tail ∧ t.radio = s.radio ∧
      (s.cfg.hasResetLine = true → t.pins.radioRstN = some true)

/-- R270, the reset column of R30: the machine right after reset; no edge is deferred (the model's, log 32). -/
def Obligations.ResetStateHoldsTheSpecsValues : Prop :=
  State.reset.busy = false ∧ State.reset.cmdl = 0#32 ∧ State.reset.txc = false ∧ State.reset.rxc = false ∧
  State.reset.crcd = false ∧ State.reset.irqp = false ∧ State.reset.edgeHeld = false ∧
  (∀ b ∈ State.reset.sync, b = false) ∧
  State.reset.eprev = false ∧ State.reset.mode = .sleep ∧ State.reset.mvalid = false ∧
  State.reset.result = .ok ∧ State.reset.svc = .none ∧ State.reset.ovr = false ∧
  State.reset.radioRst = false ∧ State.reset.pollen = true ∧ State.reset.rdata = 0#8 ∧
  State.reset.lastFlags = 0#8 ∧ State.reset.freq = 0#32 ∧ State.reset.tune = 0#24 ∧
  (∀ k, Memory.read State.reset.buf k = 0#8) ∧ State.reset.csN = true ∧ State.reset.trace = []

/-- R272: an idle block performs nothing: without a scheduled access, edge or reset a step leaves it as it
is (that the sequencer's turn is then a step at all is the model's, log 11). -/
def Obligations.IdleBlockPerformsNothing : Prop :=
  ∀ s : State, s.cfg.wf = true → s.busy = false → s.inputs = [] → step s = .next s

/-! ### Invariants of every step -/

/-- The invariants hold at reset. -/
def Obligations.ResetStateMeetsTheInvariants : Prop :=
  State.reset.Sound ∧ State.reset.FailuresExplained ∧ State.reset.ModeRecorded

/-- R67, R62, R182, R78 (a deferred edge only while a command is latched: log 32) and BUF's canonical form: every
step from a sound state gives a sound state. -/
def Obligations.EveryStepKeepsTheStateSound : Prop :=
  ∀ s t : State, s.Sound → step s = .next t → t.Sound

/-- R19, R241, R243: every step keeps "no failed transaction without XFER_CAN_FAIL, and XFER_FAIL only
after a failed transaction". -/
def Obligations.EveryStepKeepsFailuresExplained : Prop :=
  ∀ s t : State, s.FailuresExplained → step s = .next t → t.FailuresExplained

/-- R33, R44: every step keeps "while MVALID is 1, MODE is the mode last written to the radio". -/
def Obligations.EveryStepKeepsMvalidTruthful : Prop :=
  ∀ s t : State, s.ModeRecorded → step s = .next t → t.ModeRecorded

/-- R20, R53: the configuration never changes, and TRACE only grows, but for reset. -/
def Obligations.ConfigurationIsFixedAndTraceOnlyGrows : Prop :=
  ∀ s t : State, step s = .next t →
    t.cfg = s.cfg ∧ (s.trace <+: t.trace ∨ s.nextInput = .blockReset)

/-- R45, R76: RESULT, and with it every radio access, changes only in the sequencer's step (or at reset):
the host's accesses and the edges perform no transaction and leave RESULT alone. -/
def Obligations.OnlyTheSequencerReachesTheRadio : Prop :=
  ∀ s t : State, step s = .next t → (t.trace ≠ s.trace ∨ t.result ≠ s.result) →
    (s.busy = true ∧ t.busy = false ∧ (s.nextInput = .sequencer ∨ s.nextInput = .sequencerWithEdge)) ∨
      s.nextInput = .blockReset

/-- The writers column of R30, row by row, for every step but block reset (R270): what a step may change of each
element, and by which command, access or move. WRBURST stands in MVALID's clause by R115, which R30's column
does not name (DEDUCED, log 22); that SYNC and EPREV are clocked by a move of their own is the model's (log 8).
An edge deferred to the end of the latched command's step, and IRQP set there by it, is the model's (log 32). -/
def Obligations.EachRegisterHasItsOwnWriters : Prop :=
  ∀ s t : State, step s = .next t → s.nextInput ≠ .blockReset →
    (s.busy = false → t.busy = true → s.nextInput = .host ⟨32, 0x000, some t.cmdl⟩) ∧
    (s.busy = true → t.busy = false → s.nextInput = .sequencer ∨ s.nextInput = .sequencerWithEdge) ∧
    (t.cmdl ≠ s.cmdl → s.busy = false ∧ s.nextInput = .host ⟨32, 0x000, some t.cmdl⟩) ∧
    (t.txc ≠ s.txc → performs s .service ∨ ∃ m, performs s (.clrflags m) ∧ m.getLsbD 0 = true) ∧
    (t.rxc ≠ s.rxc → performs s .service ∨ ∃ m, performs s (.clrflags m) ∧ m.getLsbD 1 = true) ∧
    (t.crcd ≠ s.crcd → performs s .service ∨ ∃ m, performs s (.clrflags m) ∧ m.getLsbD 2 = true) ∧
    (t.irqp ≠ s.irqp → performs s .service ∨ s.nextInput = .edge ∨ s.nextInput = .edgeDuring ∨
      s.nextInput = .sequencerWithEdge ∨ (∃ d, s.nextInput = .clock d) ∨
      (s.nextInput = .sequencer ∧ s.busy = true ∧ s.edgeHeld = true)) ∧
    (t.edgeHeld ≠ s.edgeHeld → s.busy = true ∧
      (s.nextInput = .edgeDuring ∨ s.nextInput = .sequencer ∨ s.nextInput = .sequencerWithEdge)) ∧
    (t.sync ≠ s.sync ∨ t.eprev ≠ s.eprev → ∃ d, s.nextInput = .clock d) ∧
    (t.mode ≠ s.mode → performs s (.setmode t.mode)) ∧
    (t.mvalid ≠ s.mvalid → (∃ m, performs s (.setmode m)) ∨
      (∃ d, performs s (.wrreg (BitVec.ofNat 7 s.cfg.regs.opMode) d)) ∨
      ∃ n, 1 ≤ n.toNat ∧ performs s (.wrburst (BitVec.ofNat 7 s.cfg.regs.opMode) n)) ∧
    (t.result ≠ s.result →
      s.busy = true ∧ (s.nextInput = .sequencer ∨ s.nextInput = .sequencerWithEdge)) ∧
    (t.svc ≠ s.svc → performs s .service) ∧
    (t.ovr ≠ s.ovr → (∃ m, performs s (.clrflags m) ∧ m.getLsbD 3 = true) ∨
      (s.busy = true ∧ ∃ off v, s.nextInput = .host ⟨32, off, some v⟩ ∧
        (off = 0x000 ∨ off = 0x010 ∨ 0x100 ≤ off))) ∧
    (t.radioRst ≠ s.radioRst ∨ t.pollen ≠ s.pollen → ∃ v, s.nextInput = .host ⟨32, 0x008, some v⟩) ∧
    (t.rdata ≠ s.rdata → ∃ a, performs s (.rdreg a)) ∧
    (t.lastFlags ≠ s.lastFlags → performs s .service) ∧
    (t.freq ≠ s.freq → s.busy = false ∧ s.nextInput = .host ⟨32, 0x010, some t.freq⟩) ∧
    (t.tune ≠ s.tune → performs s .calcfreq ∨ performs s .setfreq) ∧
    (t.buf ≠ s.buf → (∃ a n, performs s (.rdburst a n)) ∨
      (s.busy = false ∧ ∃ off v, s.nextInput = .host ⟨32, off, some v⟩ ∧ 0x100 ≤ off)) ∧
    (t.csN ≠ s.csN ∨ t.trace ≠ s.trace → ∃ i, performs s i ∧ usesBus i = true)

/-! ### Host procedures (45_host_sequences.md) -/

/-- R220: `send` of 0 or more than 255 bytes returns InvalidArgument and makes no access at all. -/
def Obligations.SendRejectsABadLengthWithoutIo : Prop :=
  ∀ (p : Params) (h : HostParams) (bound : Nat) (payload : List Byte) (w : Surroundings) (s : State),
    payload.length = 0 ∨ 255 < payload.length →
    (send p h bound payload).run w s = some (.invalidArgument, s)

/-- R232: `rssi()` returns the raw byte, unsigned, less 157, and changes only RDATA, RESULT and what its one
transaction and its reads record; on XFER_FAIL it returns TransportFailure (R249); that the number is then not
returned is the model's reading (DEDUCED, log 28). No move is given beside it, so the sequencer's turn stands
before each access (log 17), and a deferred edge, which no idle block of a run has, sets IRQP (log 32). -/
def Obligations.RssiIsTheRawByteLess157 : Prop :=
  ∀ (w : Surroundings) (s : State), s.cfg.wf = true → s.busy = false → w.moves = [] →
    ∃ t, (rssi s.cfg).run w s =
        some (if s.answersOk then .ok (((s.misoByte 0).toNat : Int) - 157) else .error .transportFailure, t) ∧
      t = { s with
        cmdl := encode (.rdreg (BitVec.ofNat 7 s.cfg.regs.rssi))
        rdata := s.misoByte 0, result := endCode s.answersOk, csN := true
        trace := s.trace ++ [.rd (BitVec.ofNat 7 s.cfg.regs.rssi) 1 [s.misoByte 0] s.answersOk]
        radio := s.radio.tail, draws := t.draws, busData := t.busData
        irqp := s.irqp || s.edgeHeld, edgeHeld := false }

/-! ### The other selection of IRQ_EDGE (beside `SynchronizerDetectsARisingLine`) -/

/-- R182, R181, R14 (the clocking order is the model's, log 8): the same with the falling edge selected, from a
synchronizer at rest at 1: `dio0` held low sets IRQP at clock SYNC_STAGES + 1; held high it never sets it. -/
def Obligations.SynchronizerDetectsAFallingLine : Prop :=
  ∀ (s : State) (n : Nat), s.cfg.irqEdge = .falling → s.sync = List.replicate n true → s.eprev = true →
    s.irqp = false → 1 ≤ n →
    ((fun x : State => x.clockSync false)^[n] s).irqp = false ∧
    ((fun x : State => x.clockSync false)^[n + 1] s).irqp = true ∧
    ∀ k, ((fun x : State => x.clockSync true)^[k] s).irqp = false
end

