-- ==== Sys2Proof/Laws/State.lean ====
section
/-! SUPPORT. What each update of the state does to each field: one lemma per field per update. -/

namespace Sys2Proof.Machine

variable (s : State)

/-! ### assertCs -/

@[simp] theorem State.assertCs_busy : (s.assertCs).busy = s.busy := rfl
@[simp] theorem State.assertCs_cmdl : (s.assertCs).cmdl = s.cmdl := rfl
@[simp] theorem State.assertCs_txc : (s.assertCs).txc = s.txc := rfl
@[simp] theorem State.assertCs_rxc : (s.assertCs).rxc = s.rxc := rfl
@[simp] theorem State.assertCs_crcd : (s.assertCs).crcd = s.crcd := rfl
@[simp] theorem State.assertCs_irqp : (s.assertCs).irqp = s.irqp := rfl
@[simp] theorem State.assertCs_sync : (s.assertCs).sync = s.sync := rfl
@[simp] theorem State.assertCs_eprev : (s.assertCs).eprev = s.eprev := rfl
@[simp] theorem State.assertCs_mode : (s.assertCs).mode = s.mode := rfl
@[simp] theorem State.assertCs_mvalid : (s.assertCs).mvalid = s.mvalid := rfl
@[simp] theorem State.assertCs_result : (s.assertCs).result = s.result := rfl
@[simp] theorem State.assertCs_svc : (s.assertCs).svc = s.svc := rfl
@[simp] theorem State.assertCs_ovr : (s.assertCs).ovr = s.ovr := rfl
@[simp] theorem State.assertCs_radioRst : (s.assertCs).radioRst = s.radioRst := rfl
@[simp] theorem State.assertCs_pollen : (s.assertCs).pollen = s.pollen := rfl
@[simp] theorem State.assertCs_rdata : (s.assertCs).rdata = s.rdata := rfl
@[simp] theorem State.assertCs_lastFlags : (s.assertCs).lastFlags = s.lastFlags := rfl
@[simp] theorem State.assertCs_freq : (s.assertCs).freq = s.freq := rfl
@[simp] theorem State.assertCs_tune : (s.assertCs).tune = s.tune := rfl
@[simp] theorem State.assertCs_buf : (s.assertCs).buf = s.buf := rfl
@[simp] theorem State.assertCs_csN : (s.assertCs).csN = false := rfl
@[simp] theorem State.assertCs_trace : (s.assertCs).trace = s.trace := rfl
@[simp] theorem State.assertCs_cfg : (s.assertCs).cfg = s.cfg := rfl
@[simp] theorem State.assertCs_inputs : (s.assertCs).inputs = s.inputs := rfl
@[simp] theorem State.assertCs_radio : (s.assertCs).radio = s.radio := rfl
@[simp] theorem State.assertCs_draws : (s.assertCs).draws = s.draws := rfl
@[simp] theorem State.assertCs_busData : (s.assertCs).busData = s.busData := rfl
@[simp] theorem State.assertCs_edgeHeld : (s.assertCs).edgeHeld = s.edgeHeld := rfl

/-! ### exchange -/

@[simp] theorem State.exchange_busy (n : Nat) (t : Txn) : (s.exchange n t).busy = s.busy := rfl
@[simp] theorem State.exchange_cmdl (n : Nat) (t : Txn) : (s.exchange n t).cmdl = s.cmdl := rfl
@[simp] theorem State.exchange_txc (n : Nat) (t : Txn) : (s.exchange n t).txc = s.txc := rfl
@[simp] theorem State.exchange_rxc (n : Nat) (t : Txn) : (s.exchange n t).rxc = s.rxc := rfl
@[simp] theorem State.exchange_crcd (n : Nat) (t : Txn) : (s.exchange n t).crcd = s.crcd := rfl
@[simp] theorem State.exchange_irqp (n : Nat) (t : Txn) : (s.exchange n t).irqp = s.irqp := rfl
@[simp] theorem State.exchange_sync (n : Nat) (t : Txn) : (s.exchange n t).sync = s.sync := rfl
@[simp] theorem State.exchange_eprev (n : Nat) (t : Txn) : (s.exchange n t).eprev = s.eprev := rfl
@[simp] theorem State.exchange_mode (n : Nat) (t : Txn) : (s.exchange n t).mode = s.mode := rfl
@[simp] theorem State.exchange_mvalid (n : Nat) (t : Txn) : (s.exchange n t).mvalid = s.mvalid := rfl
@[simp] theorem State.exchange_result (n : Nat) (t : Txn) : (s.exchange n t).result = s.result := rfl
@[simp] theorem State.exchange_svc (n : Nat) (t : Txn) : (s.exchange n t).svc = s.svc := rfl
@[simp] theorem State.exchange_ovr (n : Nat) (t : Txn) : (s.exchange n t).ovr = s.ovr := rfl
@[simp] theorem State.exchange_radioRst (n : Nat) (t : Txn) : (s.exchange n t).radioRst = s.radioRst := rfl
@[simp] theorem State.exchange_pollen (n : Nat) (t : Txn) : (s.exchange n t).pollen = s.pollen := rfl
@[simp] theorem State.exchange_rdata (n : Nat) (t : Txn) : (s.exchange n t).rdata = s.rdata := rfl
@[simp] theorem State.exchange_lastFlags (n : Nat) (t : Txn) : (s.exchange n t).lastFlags = s.lastFlags := rfl
@[simp] theorem State.exchange_freq (n : Nat) (t : Txn) : (s.exchange n t).freq = s.freq := rfl
@[simp] theorem State.exchange_tune (n : Nat) (t : Txn) : (s.exchange n t).tune = s.tune := rfl
@[simp] theorem State.exchange_buf (n : Nat) (t : Txn) : (s.exchange n t).buf = s.buf := rfl
@[simp] theorem State.exchange_csN (n : Nat) (t : Txn) : (s.exchange n t).csN = s.csN := rfl
@[simp] theorem State.exchange_trace (n : Nat) (t : Txn) : (s.exchange n t).trace = s.trace ++ [t] := rfl
@[simp] theorem State.exchange_cfg (n : Nat) (t : Txn) : (s.exchange n t).cfg = s.cfg := rfl
@[simp] theorem State.exchange_inputs (n : Nat) (t : Txn) : (s.exchange n t).inputs = s.inputs := rfl
@[simp] theorem State.exchange_radio (n : Nat) (t : Txn) : (s.exchange n t).radio = s.radio.tail := rfl
@[simp] theorem State.exchange_draws (n : Nat) (t : Txn) : (s.exchange n t).draws = s.draws + n + 1 := rfl
@[simp] theorem State.exchange_busData (n : Nat) (t : Txn) : (s.exchange n t).busData = s.busData := rfl
@[simp] theorem State.exchange_edgeHeld (n : Nat) (t : Txn) : (s.exchange n t).edgeHeld = s.edgeHeld := rfl

/-! ### deassertCs -/

@[simp] theorem State.deassertCs_busy : (s.deassertCs).busy = s.busy := rfl
@[simp] theorem State.deassertCs_cmdl : (s.deassertCs).cmdl = s.cmdl := rfl
@[simp] theorem State.deassertCs_txc : (s.deassertCs).txc = s.txc := rfl
@[simp] theorem State.deassertCs_rxc : (s.deassertCs).rxc = s.rxc := rfl
@[simp] theorem State.deassertCs_crcd : (s.deassertCs).crcd = s.crcd := rfl
@[simp] theorem State.deassertCs_irqp : (s.deassertCs).irqp = s.irqp := rfl
@[simp] theorem State.deassertCs_sync : (s.deassertCs).sync = s.sync := rfl
@[simp] theorem State.deassertCs_eprev : (s.deassertCs).eprev = s.eprev := rfl
@[simp] theorem State.deassertCs_mode : (s.deassertCs).mode = s.mode := rfl
@[simp] theorem State.deassertCs_mvalid : (s.deassertCs).mvalid = s.mvalid := rfl
@[simp] theorem State.deassertCs_result : (s.deassertCs).result = s.result := rfl
@[simp] theorem State.deassertCs_svc : (s.deassertCs).svc = s.svc := rfl
@[simp] theorem State.deassertCs_ovr : (s.deassertCs).ovr = s.ovr := rfl
@[simp] theorem State.deassertCs_radioRst : (s.deassertCs).radioRst = s.radioRst := rfl
@[simp] theorem State.deassertCs_pollen : (s.deassertCs).pollen = s.pollen := rfl
@[simp] theorem State.deassertCs_rdata : (s.deassertCs).rdata = s.rdata := rfl
@[simp] theorem State.deassertCs_lastFlags : (s.deassertCs).lastFlags = s.lastFlags := rfl
@[simp] theorem State.deassertCs_freq : (s.deassertCs).freq = s.freq := rfl
@[simp] theorem State.deassertCs_tune : (s.deassertCs).tune = s.tune := rfl
@[simp] theorem State.deassertCs_buf : (s.deassertCs).buf = s.buf := rfl
@[simp] theorem State.deassertCs_csN : (s.deassertCs).csN = true := rfl
@[simp] theorem State.deassertCs_trace : (s.deassertCs).trace = s.trace := rfl
@[simp] theorem State.deassertCs_cfg : (s.deassertCs).cfg = s.cfg := rfl
@[simp] theorem State.deassertCs_inputs : (s.deassertCs).inputs = s.inputs := rfl
@[simp] theorem State.deassertCs_radio : (s.deassertCs).radio = s.radio := rfl
@[simp] theorem State.deassertCs_draws : (s.deassertCs).draws = s.draws := rfl
@[simp] theorem State.deassertCs_busData : (s.deassertCs).busData = s.busData := rfl
@[simp] theorem State.deassertCs_edgeHeld : (s.deassertCs).edgeHeld = s.edgeHeld := rfl

/-! ### frame -/

@[simp] theorem State.frame_busy (n : Nat) (t : Txn) : (s.frame n t).busy = s.busy := rfl
@[simp] theorem State.frame_cmdl (n : Nat) (t : Txn) : (s.frame n t).cmdl = s.cmdl := rfl
@[simp] theorem State.frame_txc (n : Nat) (t : Txn) : (s.frame n t).txc = s.txc := rfl
@[simp] theorem State.frame_rxc (n : Nat) (t : Txn) : (s.frame n t).rxc = s.rxc := rfl
@[simp] theorem State.frame_crcd (n : Nat) (t : Txn) : (s.frame n t).crcd = s.crcd := rfl
@[simp] theorem State.frame_irqp (n : Nat) (t : Txn) : (s.frame n t).irqp = s.irqp := rfl
@[simp] theorem State.frame_sync (n : Nat) (t : Txn) : (s.frame n t).sync = s.sync := rfl
@[simp] theorem State.frame_eprev (n : Nat) (t : Txn) : (s.frame n t).eprev = s.eprev := rfl
@[simp] theorem State.frame_mode (n : Nat) (t : Txn) : (s.frame n t).mode = s.mode := rfl
@[simp] theorem State.frame_mvalid (n : Nat) (t : Txn) : (s.frame n t).mvalid = s.mvalid := rfl
@[simp] theorem State.frame_result (n : Nat) (t : Txn) : (s.frame n t).result = s.result := rfl
@[simp] theorem State.frame_svc (n : Nat) (t : Txn) : (s.frame n t).svc = s.svc := rfl
@[simp] theorem State.frame_ovr (n : Nat) (t : Txn) : (s.frame n t).ovr = s.ovr := rfl
@[simp] theorem State.frame_radioRst (n : Nat) (t : Txn) : (s.frame n t).radioRst = s.radioRst := rfl
@[simp] theorem State.frame_pollen (n : Nat) (t : Txn) : (s.frame n t).pollen = s.pollen := rfl
@[simp] theorem State.frame_rdata (n : Nat) (t : Txn) : (s.frame n t).rdata = s.rdata := rfl
@[simp] theorem State.frame_lastFlags (n : Nat) (t : Txn) : (s.frame n t).lastFlags = s.lastFlags := rfl
@[simp] theorem State.frame_freq (n : Nat) (t : Txn) : (s.frame n t).freq = s.freq := rfl
@[simp] theorem State.frame_tune (n : Nat) (t : Txn) : (s.frame n t).tune = s.tune := rfl
@[simp] theorem State.frame_buf (n : Nat) (t : Txn) : (s.frame n t).buf = s.buf := rfl
@[simp] theorem State.frame_csN (n : Nat) (t : Txn) : (s.frame n t).csN = true := rfl
@[simp] theorem State.frame_trace (n : Nat) (t : Txn) : (s.frame n t).trace = s.trace ++ [t] := rfl
@[simp] theorem State.frame_cfg (n : Nat) (t : Txn) : (s.frame n t).cfg = s.cfg := rfl
@[simp] theorem State.frame_inputs (n : Nat) (t : Txn) : (s.frame n t).inputs = s.inputs := rfl
@[simp] theorem State.frame_radio (n : Nat) (t : Txn) : (s.frame n t).radio = s.radio.tail := rfl
@[simp] theorem State.frame_draws (n : Nat) (t : Txn) : (s.frame n t).draws = s.draws + n + 1 := rfl
@[simp] theorem State.frame_busData (n : Nat) (t : Txn) : (s.frame n t).busData = s.busData := rfl
@[simp] theorem State.frame_edgeHeld (n : Nat) (t : Txn) : (s.frame n t).edgeHeld = s.edgeHeld := rfl

/-! ### raise -/

@[simp] theorem State.raise_busy (c : ResultCode) : (s.raise c).busy = false := rfl
@[simp] theorem State.raise_cmdl (c : ResultCode) : (s.raise c).cmdl = s.cmdl := rfl
@[simp] theorem State.raise_txc (c : ResultCode) : (s.raise c).txc = s.txc := rfl
@[simp] theorem State.raise_rxc (c : ResultCode) : (s.raise c).rxc = s.rxc := rfl
@[simp] theorem State.raise_crcd (c : ResultCode) : (s.raise c).crcd = s.crcd := rfl
@[simp] theorem State.raise_irqp (c : ResultCode) : (s.raise c).irqp = s.irqp := rfl
@[simp] theorem State.raise_sync (c : ResultCode) : (s.raise c).sync = s.sync := rfl
@[simp] theorem State.raise_eprev (c : ResultCode) : (s.raise c).eprev = s.eprev := rfl
@[simp] theorem State.raise_mode (c : ResultCode) : (s.raise c).mode = s.mode := rfl
@[simp] theorem State.raise_mvalid (c : ResultCode) : (s.raise c).mvalid = s.mvalid := rfl
@[simp] theorem State.raise_result (c : ResultCode) : (s.raise c).result = c := rfl
@[simp] theorem State.raise_svc (c : ResultCode) : (s.raise c).svc = s.svc := rfl
@[simp] theorem State.raise_ovr (c : ResultCode) : (s.raise c).ovr = s.ovr := rfl
@[simp] theorem State.raise_radioRst (c : ResultCode) : (s.raise c).radioRst = s.radioRst := rfl
@[simp] theorem State.raise_pollen (c : ResultCode) : (s.raise c).pollen = s.pollen := rfl
@[simp] theorem State.raise_rdata (c : ResultCode) : (s.raise c).rdata = s.rdata := rfl
@[simp] theorem State.raise_lastFlags (c : ResultCode) : (s.raise c).lastFlags = s.lastFlags := rfl
@[simp] theorem State.raise_freq (c : ResultCode) : (s.raise c).freq = s.freq := rfl
@[simp] theorem State.raise_tune (c : ResultCode) : (s.raise c).tune = s.tune := rfl
@[simp] theorem State.raise_buf (c : ResultCode) : (s.raise c).buf = s.buf := rfl
@[simp] theorem State.raise_csN (c : ResultCode) : (s.raise c).csN = s.csN := rfl
@[simp] theorem State.raise_trace (c : ResultCode) : (s.raise c).trace = s.trace := rfl
@[simp] theorem State.raise_cfg (c : ResultCode) : (s.raise c).cfg = s.cfg := rfl
@[simp] theorem State.raise_inputs (c : ResultCode) : (s.raise c).inputs = s.inputs := rfl
@[simp] theorem State.raise_radio (c : ResultCode) : (s.raise c).radio = s.radio := rfl
@[simp] theorem State.raise_draws (c : ResultCode) : (s.raise c).draws = s.draws := rfl
@[simp] theorem State.raise_busData (c : ResultCode) : (s.raise c).busData = s.busData := rfl
@[simp] theorem State.raise_edgeHeld (c : ResultCode) : (s.raise c).edgeHeld = s.edgeHeld := rfl

/-! ### complete -/

@[simp] theorem State.complete_busy : (s.complete).busy = false := rfl
@[simp] theorem State.complete_cmdl : (s.complete).cmdl = s.cmdl := rfl
@[simp] theorem State.complete_txc : (s.complete).txc = s.txc := rfl
@[simp] theorem State.complete_rxc : (s.complete).rxc = s.rxc := rfl
@[simp] theorem State.complete_crcd : (s.complete).crcd = s.crcd := rfl
@[simp] theorem State.complete_irqp : (s.complete).irqp = s.irqp := rfl
@[simp] theorem State.complete_sync : (s.complete).sync = s.sync := rfl
@[simp] theorem State.complete_eprev : (s.complete).eprev = s.eprev := rfl
@[simp] theorem State.complete_mode : (s.complete).mode = s.mode := rfl
@[simp] theorem State.complete_mvalid : (s.complete).mvalid = s.mvalid := rfl
@[simp] theorem State.complete_result : (s.complete).result = .ok := rfl
@[simp] theorem State.complete_svc : (s.complete).svc = s.svc := rfl
@[simp] theorem State.complete_ovr : (s.complete).ovr = s.ovr := rfl
@[simp] theorem State.complete_radioRst : (s.complete).radioRst = s.radioRst := rfl
@[simp] theorem State.complete_pollen : (s.complete).pollen = s.pollen := rfl
@[simp] theorem State.complete_rdata : (s.complete).rdata = s.rdata := rfl
@[simp] theorem State.complete_lastFlags : (s.complete).lastFlags = s.lastFlags := rfl
@[simp] theorem State.complete_freq : (s.complete).freq = s.freq := rfl
@[simp] theorem State.complete_tune : (s.complete).tune = s.tune := rfl
@[simp] theorem State.complete_buf : (s.complete).buf = s.buf := rfl
@[simp] theorem State.complete_csN : (s.complete).csN = s.csN := rfl
@[simp] theorem State.complete_trace : (s.complete).trace = s.trace := rfl
@[simp] theorem State.complete_cfg : (s.complete).cfg = s.cfg := rfl
@[simp] theorem State.complete_inputs : (s.complete).inputs = s.inputs := rfl
@[simp] theorem State.complete_radio : (s.complete).radio = s.radio := rfl
@[simp] theorem State.complete_draws : (s.complete).draws = s.draws := rfl
@[simp] theorem State.complete_busData : (s.complete).busData = s.busData := rfl
@[simp] theorem State.complete_edgeHeld : (s.complete).edgeHeld = s.edgeHeld := rfl

/-! ### endTransfer -/

@[simp] theorem State.endTransfer_busy (ok : Bool) : (State.endTransfer ok s).busy = false := by cases ok <;> rfl
@[simp] theorem State.endTransfer_cmdl (ok : Bool) : (State.endTransfer ok s).cmdl = s.cmdl := by cases ok <;> rfl
@[simp] theorem State.endTransfer_txc (ok : Bool) : (State.endTransfer ok s).txc = s.txc := by cases ok <;> rfl
@[simp] theorem State.endTransfer_rxc (ok : Bool) : (State.endTransfer ok s).rxc = s.rxc := by cases ok <;> rfl
@[simp] theorem State.endTransfer_crcd (ok : Bool) : (State.endTransfer ok s).crcd = s.crcd := by cases ok <;> rfl
@[simp] theorem State.endTransfer_irqp (ok : Bool) : (State.endTransfer ok s).irqp = s.irqp := by cases ok <;> rfl
@[simp] theorem State.endTransfer_sync (ok : Bool) : (State.endTransfer ok s).sync = s.sync := by cases ok <;> rfl
@[simp] theorem State.endTransfer_eprev (ok : Bool) : (State.endTransfer ok s).eprev = s.eprev := by cases ok <;> rfl
@[simp] theorem State.endTransfer_mode (ok : Bool) : (State.endTransfer ok s).mode = s.mode := by cases ok <;> rfl
@[simp] theorem State.endTransfer_mvalid (ok : Bool) : (State.endTransfer ok s).mvalid = s.mvalid := by cases ok <;> rfl
@[simp] theorem State.endTransfer_result (ok : Bool) : (State.endTransfer ok s).result = if ok then .ok else .xferFail := by cases ok <;> rfl
@[simp] theorem State.endTransfer_svc (ok : Bool) : (State.endTransfer ok s).svc = s.svc := by cases ok <;> rfl
@[simp] theorem State.endTransfer_ovr (ok : Bool) : (State.endTransfer ok s).ovr = s.ovr := by cases ok <;> rfl
@[simp] theorem State.endTransfer_radioRst (ok : Bool) : (State.endTransfer ok s).radioRst = s.radioRst := by cases ok <;> rfl
@[simp] theorem State.endTransfer_pollen (ok : Bool) : (State.endTransfer ok s).pollen = s.pollen := by cases ok <;> rfl
@[simp] theorem State.endTransfer_rdata (ok : Bool) : (State.endTransfer ok s).rdata = s.rdata := by cases ok <;> rfl
@[simp] theorem State.endTransfer_lastFlags (ok : Bool) : (State.endTransfer ok s).lastFlags = s.lastFlags := by cases ok <;> rfl
@[simp] theorem State.endTransfer_freq (ok : Bool) : (State.endTransfer ok s).freq = s.freq := by cases ok <;> rfl
@[simp] theorem State.endTransfer_tune (ok : Bool) : (State.endTransfer ok s).tune = s.tune := by cases ok <;> rfl
@[simp] theorem State.endTransfer_buf (ok : Bool) : (State.endTransfer ok s).buf = s.buf := by cases ok <;> rfl
@[simp] theorem State.endTransfer_csN (ok : Bool) : (State.endTransfer ok s).csN = s.csN := by cases ok <;> rfl
@[simp] theorem State.endTransfer_trace (ok : Bool) : (State.endTransfer ok s).trace = s.trace := by cases ok <;> rfl
@[simp] theorem State.endTransfer_cfg (ok : Bool) : (State.endTransfer ok s).cfg = s.cfg := by cases ok <;> rfl
@[simp] theorem State.endTransfer_inputs (ok : Bool) : (State.endTransfer ok s).inputs = s.inputs := by cases ok <;> rfl
@[simp] theorem State.endTransfer_radio (ok : Bool) : (State.endTransfer ok s).radio = s.radio := by cases ok <;> rfl
@[simp] theorem State.endTransfer_draws (ok : Bool) : (State.endTransfer ok s).draws = s.draws := by cases ok <;> rfl
@[simp] theorem State.endTransfer_busData (ok : Bool) : (State.endTransfer ok s).busData = s.busData := by cases ok <;> rfl
@[simp] theorem State.endTransfer_edgeHeld (ok : Bool) : (State.endTransfer ok s).edgeHeld = s.edgeHeld := by cases ok <;> rfl

/-! ### setIrqp -/

@[simp] theorem State.setIrqp_busy : (s.setIrqp).busy = s.busy := rfl
@[simp] theorem State.setIrqp_cmdl : (s.setIrqp).cmdl = s.cmdl := rfl
@[simp] theorem State.setIrqp_txc : (s.setIrqp).txc = s.txc := rfl
@[simp] theorem State.setIrqp_rxc : (s.setIrqp).rxc = s.rxc := rfl
@[simp] theorem State.setIrqp_crcd : (s.setIrqp).crcd = s.crcd := rfl
@[simp] theorem State.setIrqp_irqp : (s.setIrqp).irqp = true := rfl
@[simp] theorem State.setIrqp_sync : (s.setIrqp).sync = s.sync := rfl
@[simp] theorem State.setIrqp_eprev : (s.setIrqp).eprev = s.eprev := rfl
@[simp] theorem State.setIrqp_mode : (s.setIrqp).mode = s.mode := rfl
@[simp] theorem State.setIrqp_mvalid : (s.setIrqp).mvalid = s.mvalid := rfl
@[simp] theorem State.setIrqp_result : (s.setIrqp).result = s.result := rfl
@[simp] theorem State.setIrqp_svc : (s.setIrqp).svc = s.svc := rfl
@[simp] theorem State.setIrqp_ovr : (s.setIrqp).ovr = s.ovr := rfl
@[simp] theorem State.setIrqp_radioRst : (s.setIrqp).radioRst = s.radioRst := rfl
@[simp] theorem State.setIrqp_pollen : (s.setIrqp).pollen = s.pollen := rfl
@[simp] theorem State.setIrqp_rdata : (s.setIrqp).rdata = s.rdata := rfl
@[simp] theorem State.setIrqp_lastFlags : (s.setIrqp).lastFlags = s.lastFlags := rfl
@[simp] theorem State.setIrqp_freq : (s.setIrqp).freq = s.freq := rfl
@[simp] theorem State.setIrqp_tune : (s.setIrqp).tune = s.tune := rfl
@[simp] theorem State.setIrqp_buf : (s.setIrqp).buf = s.buf := rfl
@[simp] theorem State.setIrqp_csN : (s.setIrqp).csN = s.csN := rfl
@[simp] theorem State.setIrqp_trace : (s.setIrqp).trace = s.trace := rfl
@[simp] theorem State.setIrqp_cfg : (s.setIrqp).cfg = s.cfg := rfl
@[simp] theorem State.setIrqp_inputs : (s.setIrqp).inputs = s.inputs := rfl
@[simp] theorem State.setIrqp_radio : (s.setIrqp).radio = s.radio := rfl
@[simp] theorem State.setIrqp_draws : (s.setIrqp).draws = s.draws := rfl
@[simp] theorem State.setIrqp_busData : (s.setIrqp).busData = s.busData := rfl
@[simp] theorem State.setIrqp_edgeHeld : (s.setIrqp).edgeHeld = s.edgeHeld := rfl

/-! ### deferEdge -/

@[simp] theorem State.deferEdge_busy : (s.deferEdge).busy = s.busy := rfl
@[simp] theorem State.deferEdge_cmdl : (s.deferEdge).cmdl = s.cmdl := rfl
@[simp] theorem State.deferEdge_txc : (s.deferEdge).txc = s.txc := rfl
@[simp] theorem State.deferEdge_rxc : (s.deferEdge).rxc = s.rxc := rfl
@[simp] theorem State.deferEdge_crcd : (s.deferEdge).crcd = s.crcd := rfl
@[simp] theorem State.deferEdge_irqp : (s.deferEdge).irqp = (s.irqp || !s.busy) := rfl
@[simp] theorem State.deferEdge_sync : (s.deferEdge).sync = s.sync := rfl
@[simp] theorem State.deferEdge_eprev : (s.deferEdge).eprev = s.eprev := rfl
@[simp] theorem State.deferEdge_mode : (s.deferEdge).mode = s.mode := rfl
@[simp] theorem State.deferEdge_mvalid : (s.deferEdge).mvalid = s.mvalid := rfl
@[simp] theorem State.deferEdge_result : (s.deferEdge).result = s.result := rfl
@[simp] theorem State.deferEdge_svc : (s.deferEdge).svc = s.svc := rfl
@[simp] theorem State.deferEdge_ovr : (s.deferEdge).ovr = s.ovr := rfl
@[simp] theorem State.deferEdge_radioRst : (s.deferEdge).radioRst = s.radioRst := rfl
@[simp] theorem State.deferEdge_pollen : (s.deferEdge).pollen = s.pollen := rfl
@[simp] theorem State.deferEdge_rdata : (s.deferEdge).rdata = s.rdata := rfl
@[simp] theorem State.deferEdge_lastFlags : (s.deferEdge).lastFlags = s.lastFlags := rfl
@[simp] theorem State.deferEdge_freq : (s.deferEdge).freq = s.freq := rfl
@[simp] theorem State.deferEdge_tune : (s.deferEdge).tune = s.tune := rfl
@[simp] theorem State.deferEdge_buf : (s.deferEdge).buf = s.buf := rfl
@[simp] theorem State.deferEdge_csN : (s.deferEdge).csN = s.csN := rfl
@[simp] theorem State.deferEdge_trace : (s.deferEdge).trace = s.trace := rfl
@[simp] theorem State.deferEdge_cfg : (s.deferEdge).cfg = s.cfg := rfl
@[simp] theorem State.deferEdge_inputs : (s.deferEdge).inputs = s.inputs := rfl
@[simp] theorem State.deferEdge_radio : (s.deferEdge).radio = s.radio := rfl
@[simp] theorem State.deferEdge_draws : (s.deferEdge).draws = s.draws := rfl
@[simp] theorem State.deferEdge_busData : (s.deferEdge).busData = s.busData := rfl
@[simp] theorem State.deferEdge_edgeHeld : (s.deferEdge).edgeHeld = (s.edgeHeld || s.busy) := rfl

/-! ### releaseEdge -/

@[simp] theorem State.releaseEdge_busy : (s.releaseEdge).busy = s.busy := rfl
@[simp] theorem State.releaseEdge_cmdl : (s.releaseEdge).cmdl = s.cmdl := rfl
@[simp] theorem State.releaseEdge_txc : (s.releaseEdge).txc = s.txc := rfl
@[simp] theorem State.releaseEdge_rxc : (s.releaseEdge).rxc = s.rxc := rfl
@[simp] theorem State.releaseEdge_crcd : (s.releaseEdge).crcd = s.crcd := rfl
@[simp] theorem State.releaseEdge_sync : (s.releaseEdge).sync = s.sync := rfl
@[simp] theorem State.releaseEdge_eprev : (s.releaseEdge).eprev = s.eprev := rfl
@[simp] theorem State.releaseEdge_mode : (s.releaseEdge).mode = s.mode := rfl
@[simp] theorem State.releaseEdge_mvalid : (s.releaseEdge).mvalid = s.mvalid := rfl
@[simp] theorem State.releaseEdge_result : (s.releaseEdge).result = s.result := rfl
@[simp] theorem State.releaseEdge_svc : (s.releaseEdge).svc = s.svc := rfl
@[simp] theorem State.releaseEdge_ovr : (s.releaseEdge).ovr = s.ovr := rfl
@[simp] theorem State.releaseEdge_radioRst : (s.releaseEdge).radioRst = s.radioRst := rfl
@[simp] theorem State.releaseEdge_pollen : (s.releaseEdge).pollen = s.pollen := rfl
@[simp] theorem State.releaseEdge_rdata : (s.releaseEdge).rdata = s.rdata := rfl
@[simp] theorem State.releaseEdge_lastFlags : (s.releaseEdge).lastFlags = s.lastFlags := rfl
@[simp] theorem State.releaseEdge_freq : (s.releaseEdge).freq = s.freq := rfl
@[simp] theorem State.releaseEdge_tune : (s.releaseEdge).tune = s.tune := rfl
@[simp] theorem State.releaseEdge_buf : (s.releaseEdge).buf = s.buf := rfl
@[simp] theorem State.releaseEdge_csN : (s.releaseEdge).csN = s.csN := rfl
@[simp] theorem State.releaseEdge_trace : (s.releaseEdge).trace = s.trace := rfl
@[simp] theorem State.releaseEdge_cfg : (s.releaseEdge).cfg = s.cfg := rfl
@[simp] theorem State.releaseEdge_inputs : (s.releaseEdge).inputs = s.inputs := rfl
@[simp] theorem State.releaseEdge_radio : (s.releaseEdge).radio = s.radio := rfl
@[simp] theorem State.releaseEdge_draws : (s.releaseEdge).draws = s.draws := rfl
@[simp] theorem State.releaseEdge_busData : (s.releaseEdge).busData = s.busData := rfl
@[simp] theorem State.releaseEdge_irqp : (s.releaseEdge).irqp = (s.irqp || s.edgeHeld) := rfl
@[simp] theorem State.releaseEdge_edgeHeld : (s.releaseEdge).edgeHeld = false := rfl

/-! ### noteRawWrite -/

@[simp] theorem State.noteRawWrite_busy (a : RegAddr) (n : Nat) : (s.noteRawWrite a n).busy = s.busy := rfl
@[simp] theorem State.noteRawWrite_cmdl (a : RegAddr) (n : Nat) : (s.noteRawWrite a n).cmdl = s.cmdl := rfl
@[simp] theorem State.noteRawWrite_txc (a : RegAddr) (n : Nat) : (s.noteRawWrite a n).txc = s.txc := rfl
@[simp] theorem State.noteRawWrite_rxc (a : RegAddr) (n : Nat) : (s.noteRawWrite a n).rxc = s.rxc := rfl
@[simp] theorem State.noteRawWrite_crcd (a : RegAddr) (n : Nat) : (s.noteRawWrite a n).crcd = s.crcd := rfl
@[simp] theorem State.noteRawWrite_irqp (a : RegAddr) (n : Nat) : (s.noteRawWrite a n).irqp = s.irqp := rfl
@[simp] theorem State.noteRawWrite_sync (a : RegAddr) (n : Nat) : (s.noteRawWrite a n).sync = s.sync := rfl
@[simp] theorem State.noteRawWrite_eprev (a : RegAddr) (n : Nat) : (s.noteRawWrite a n).eprev = s.eprev := rfl
@[simp] theorem State.noteRawWrite_mode (a : RegAddr) (n : Nat) : (s.noteRawWrite a n).mode = s.mode := rfl
@[simp] theorem State.noteRawWrite_mvalid (a : RegAddr) (n : Nat) : (s.noteRawWrite a n).mvalid = (s.mvalid && !(decide (a = addrOpMode s.cfg) && decide (1 ≤ n))) := rfl
@[simp] theorem State.noteRawWrite_result (a : RegAddr) (n : Nat) : (s.noteRawWrite a n).result = s.result := rfl
@[simp] theorem State.noteRawWrite_svc (a : RegAddr) (n : Nat) : (s.noteRawWrite a n).svc = s.svc := rfl
@[simp] theorem State.noteRawWrite_ovr (a : RegAddr) (n : Nat) : (s.noteRawWrite a n).ovr = s.ovr := rfl
@[simp] theorem State.noteRawWrite_radioRst (a : RegAddr) (n : Nat) : (s.noteRawWrite a n).radioRst = s.radioRst := rfl
@[simp] theorem State.noteRawWrite_pollen (a : RegAddr) (n : Nat) : (s.noteRawWrite a n).pollen = s.pollen := rfl
@[simp] theorem State.noteRawWrite_rdata (a : RegAddr) (n : Nat) : (s.noteRawWrite a n).rdata = s.rdata := rfl
@[simp] theorem State.noteRawWrite_lastFlags (a : RegAddr) (n : Nat) : (s.noteRawWrite a n).lastFlags = s.lastFlags := rfl
@[simp] theorem State.noteRawWrite_freq (a : RegAddr) (n : Nat) : (s.noteRawWrite a n).freq = s.freq := rfl
@[simp] theorem State.noteRawWrite_tune (a : RegAddr) (n : Nat) : (s.noteRawWrite a n).tune = s.tune := rfl
@[simp] theorem State.noteRawWrite_buf (a : RegAddr) (n : Nat) : (s.noteRawWrite a n).buf = s.buf := rfl
@[simp] theorem State.noteRawWrite_csN (a : RegAddr) (n : Nat) : (s.noteRawWrite a n).csN = s.csN := rfl
@[simp] theorem State.noteRawWrite_trace (a : RegAddr) (n : Nat) : (s.noteRawWrite a n).trace = s.trace := rfl
@[simp] theorem State.noteRawWrite_cfg (a : RegAddr) (n : Nat) : (s.noteRawWrite a n).cfg = s.cfg := rfl
@[simp] theorem State.noteRawWrite_inputs (a : RegAddr) (n : Nat) : (s.noteRawWrite a n).inputs = s.inputs := rfl
@[simp] theorem State.noteRawWrite_radio (a : RegAddr) (n : Nat) : (s.noteRawWrite a n).radio = s.radio := rfl
@[simp] theorem State.noteRawWrite_draws (a : RegAddr) (n : Nat) : (s.noteRawWrite a n).draws = s.draws := rfl
@[simp] theorem State.noteRawWrite_busData (a : RegAddr) (n : Nat) : (s.noteRawWrite a n).busData = s.busData := rfl
@[simp] theorem State.noteRawWrite_edgeHeld (a : RegAddr) (n : Nat) : (s.noteRawWrite a n).edgeHeld = s.edgeHeld := rfl

/-! ### recordMode -/

@[simp] theorem State.recordMode_busy (m : OpMode) (ok : Bool) : (s.recordMode m ok).busy = s.busy := by cases ok <;> rfl
@[simp] theorem State.recordMode_cmdl (m : OpMode) (ok : Bool) : (s.recordMode m ok).cmdl = s.cmdl := by cases ok <;> rfl
@[simp] theorem State.recordMode_txc (m : OpMode) (ok : Bool) : (s.recordMode m ok).txc = s.txc := by cases ok <;> rfl
@[simp] theorem State.recordMode_rxc (m : OpMode) (ok : Bool) : (s.recordMode m ok).rxc = s.rxc := by cases ok <;> rfl
@[simp] theorem State.recordMode_crcd (m : OpMode) (ok : Bool) : (s.recordMode m ok).crcd = s.crcd := by cases ok <;> rfl
@[simp] theorem State.recordMode_irqp (m : OpMode) (ok : Bool) : (s.recordMode m ok).irqp = s.irqp := by cases ok <;> rfl
@[simp] theorem State.recordMode_sync (m : OpMode) (ok : Bool) : (s.recordMode m ok).sync = s.sync := by cases ok <;> rfl
@[simp] theorem State.recordMode_eprev (m : OpMode) (ok : Bool) : (s.recordMode m ok).eprev = s.eprev := by cases ok <;> rfl
@[simp] theorem State.recordMode_mode (m : OpMode) (ok : Bool) : (s.recordMode m ok).mode = if ok then m else s.mode := by cases ok <;> rfl
@[simp] theorem State.recordMode_mvalid (m : OpMode) (ok : Bool) : (s.recordMode m ok).mvalid = ok := by cases ok <;> rfl
@[simp] theorem State.recordMode_result (m : OpMode) (ok : Bool) : (s.recordMode m ok).result = s.result := by cases ok <;> rfl
@[simp] theorem State.recordMode_svc (m : OpMode) (ok : Bool) : (s.recordMode m ok).svc = s.svc := by cases ok <;> rfl
@[simp] theorem State.recordMode_ovr (m : OpMode) (ok : Bool) : (s.recordMode m ok).ovr = s.ovr := by cases ok <;> rfl
@[simp] theorem State.recordMode_radioRst (m : OpMode) (ok : Bool) : (s.recordMode m ok).radioRst = s.radioRst := by cases ok <;> rfl
@[simp] theorem State.recordMode_pollen (m : OpMode) (ok : Bool) : (s.recordMode m ok).pollen = s.pollen := by cases ok <;> rfl
@[simp] theorem State.recordMode_rdata (m : OpMode) (ok : Bool) : (s.recordMode m ok).rdata = s.rdata := by cases ok <;> rfl
@[simp] theorem State.recordMode_lastFlags (m : OpMode) (ok : Bool) : (s.recordMode m ok).lastFlags = s.lastFlags := by cases ok <;> rfl
@[simp] theorem State.recordMode_freq (m : OpMode) (ok : Bool) : (s.recordMode m ok).freq = s.freq := by cases ok <;> rfl
@[simp] theorem State.recordMode_tune (m : OpMode) (ok : Bool) : (s.recordMode m ok).tune = s.tune := by cases ok <;> rfl
@[simp] theorem State.recordMode_buf (m : OpMode) (ok : Bool) : (s.recordMode m ok).buf = s.buf := by cases ok <;> rfl
@[simp] theorem State.recordMode_csN (m : OpMode) (ok : Bool) : (s.recordMode m ok).csN = s.csN := by cases ok <;> rfl
@[simp] theorem State.recordMode_trace (m : OpMode) (ok : Bool) : (s.recordMode m ok).trace = s.trace := by cases ok <;> rfl
@[simp] theorem State.recordMode_cfg (m : OpMode) (ok : Bool) : (s.recordMode m ok).cfg = s.cfg := by cases ok <;> rfl
@[simp] theorem State.recordMode_inputs (m : OpMode) (ok : Bool) : (s.recordMode m ok).inputs = s.inputs := by cases ok <;> rfl
@[simp] theorem State.recordMode_radio (m : OpMode) (ok : Bool) : (s.recordMode m ok).radio = s.radio := by cases ok <;> rfl
@[simp] theorem State.recordMode_draws (m : OpMode) (ok : Bool) : (s.recordMode m ok).draws = s.draws := by cases ok <;> rfl
@[simp] theorem State.recordMode_busData (m : OpMode) (ok : Bool) : (s.recordMode m ok).busData = s.busData := by cases ok <;> rfl
@[simp] theorem State.recordMode_edgeHeld (m : OpMode) (ok : Bool) : (s.recordMode m ok).edgeHeld = s.edgeHeld := by cases ok <;> rfl

/-! ### latchTune -/

@[simp] theorem State.latchTune_busy : (s.latchTune).busy = s.busy := rfl
@[simp] theorem State.latchTune_cmdl : (s.latchTune).cmdl = s.cmdl := rfl
@[simp] theorem State.latchTune_txc : (s.latchTune).txc = s.txc := rfl
@[simp] theorem State.latchTune_rxc : (s.latchTune).rxc = s.rxc := rfl
@[simp] theorem State.latchTune_crcd : (s.latchTune).crcd = s.crcd := rfl
@[simp] theorem State.latchTune_irqp : (s.latchTune).irqp = s.irqp := rfl
@[simp] theorem State.latchTune_sync : (s.latchTune).sync = s.sync := rfl
@[simp] theorem State.latchTune_eprev : (s.latchTune).eprev = s.eprev := rfl
@[simp] theorem State.latchTune_mode : (s.latchTune).mode = s.mode := rfl
@[simp] theorem State.latchTune_mvalid : (s.latchTune).mvalid = s.mvalid := rfl
@[simp] theorem State.latchTune_result : (s.latchTune).result = s.result := rfl
@[simp] theorem State.latchTune_svc : (s.latchTune).svc = s.svc := rfl
@[simp] theorem State.latchTune_ovr : (s.latchTune).ovr = s.ovr := rfl
@[simp] theorem State.latchTune_radioRst : (s.latchTune).radioRst = s.radioRst := rfl
@[simp] theorem State.latchTune_pollen : (s.latchTune).pollen = s.pollen := rfl
@[simp] theorem State.latchTune_rdata : (s.latchTune).rdata = s.rdata := rfl
@[simp] theorem State.latchTune_lastFlags : (s.latchTune).lastFlags = s.lastFlags := rfl
@[simp] theorem State.latchTune_freq : (s.latchTune).freq = s.freq := rfl
@[simp] theorem State.latchTune_tune : (s.latchTune).tune = tuneOf s.freq := rfl
@[simp] theorem State.latchTune_buf : (s.latchTune).buf = s.buf := rfl
@[simp] theorem State.latchTune_csN : (s.latchTune).csN = s.csN := rfl
@[simp] theorem State.latchTune_trace : (s.latchTune).trace = s.trace := rfl
@[simp] theorem State.latchTune_cfg : (s.latchTune).cfg = s.cfg := rfl
@[simp] theorem State.latchTune_inputs : (s.latchTune).inputs = s.inputs := rfl
@[simp] theorem State.latchTune_radio : (s.latchTune).radio = s.radio := rfl
@[simp] theorem State.latchTune_draws : (s.latchTune).draws = s.draws := rfl
@[simp] theorem State.latchTune_busData : (s.latchTune).busData = s.busData := rfl
@[simp] theorem State.latchTune_edgeHeld : (s.latchTune).edgeHeld = s.edgeHeld := rfl

/-! ### clockSync -/

@[simp] theorem State.clockSync_busy (d : Bool) : (s.clockSync d).busy = s.busy := rfl
@[simp] theorem State.clockSync_cmdl (d : Bool) : (s.clockSync d).cmdl = s.cmdl := rfl
@[simp] theorem State.clockSync_txc (d : Bool) : (s.clockSync d).txc = s.txc := rfl
@[simp] theorem State.clockSync_rxc (d : Bool) : (s.clockSync d).rxc = s.rxc := rfl
@[simp] theorem State.clockSync_crcd (d : Bool) : (s.clockSync d).crcd = s.crcd := rfl
@[simp] theorem State.clockSync_irqp (d : Bool) : (s.clockSync d).irqp =
    (s.irqp || edgeDetected s.cfg.irqEdge s.lastStage s.eprev) := rfl
@[simp] theorem State.clockSync_sync (d : Bool) : (s.clockSync d).sync = (d :: s.sync).take s.sync.length := rfl
@[simp] theorem State.clockSync_eprev (d : Bool) : (s.clockSync d).eprev = s.lastStage := rfl
@[simp] theorem State.clockSync_mode (d : Bool) : (s.clockSync d).mode = s.mode := rfl
@[simp] theorem State.clockSync_mvalid (d : Bool) : (s.clockSync d).mvalid = s.mvalid := rfl
@[simp] theorem State.clockSync_result (d : Bool) : (s.clockSync d).result = s.result := rfl
@[simp] theorem State.clockSync_svc (d : Bool) : (s.clockSync d).svc = s.svc := rfl
@[simp] theorem State.clockSync_ovr (d : Bool) : (s.clockSync d).ovr = s.ovr := rfl
@[simp] theorem State.clockSync_radioRst (d : Bool) : (s.clockSync d).radioRst = s.radioRst := rfl
@[simp] theorem State.clockSync_pollen (d : Bool) : (s.clockSync d).pollen = s.pollen := rfl
@[simp] theorem State.clockSync_rdata (d : Bool) : (s.clockSync d).rdata = s.rdata := rfl
@[simp] theorem State.clockSync_lastFlags (d : Bool) : (s.clockSync d).lastFlags = s.lastFlags := rfl
@[simp] theorem State.clockSync_freq (d : Bool) : (s.clockSync d).freq = s.freq := rfl
@[simp] theorem State.clockSync_tune (d : Bool) : (s.clockSync d).tune = s.tune := rfl
@[simp] theorem State.clockSync_buf (d : Bool) : (s.clockSync d).buf = s.buf := rfl
@[simp] theorem State.clockSync_csN (d : Bool) : (s.clockSync d).csN = s.csN := rfl
@[simp] theorem State.clockSync_trace (d : Bool) : (s.clockSync d).trace = s.trace := rfl
@[simp] theorem State.clockSync_cfg (d : Bool) : (s.clockSync d).cfg = s.cfg := rfl
@[simp] theorem State.clockSync_inputs (d : Bool) : (s.clockSync d).inputs = s.inputs := rfl
@[simp] theorem State.clockSync_radio (d : Bool) : (s.clockSync d).radio = s.radio := rfl
@[simp] theorem State.clockSync_draws (d : Bool) : (s.clockSync d).draws = s.draws := rfl
@[simp] theorem State.clockSync_busData (d : Bool) : (s.clockSync d).busData = s.busData := rfl
@[simp] theorem State.clockSync_edgeHeld (d : Bool) : (s.clockSync d).edgeHeld = s.edgeHeld := rfl

/-! ### noService -/

@[simp] theorem State.noService_busy : (s.noService).busy = s.busy := rfl
@[simp] theorem State.noService_cmdl : (s.noService).cmdl = s.cmdl := rfl
@[simp] theorem State.noService_txc : (s.noService).txc = s.txc := rfl
@[simp] theorem State.noService_rxc : (s.noService).rxc = s.rxc := rfl
@[simp] theorem State.noService_crcd : (s.noService).crcd = s.crcd := rfl
@[simp] theorem State.noService_irqp : (s.noService).irqp = s.irqp := rfl
@[simp] theorem State.noService_sync : (s.noService).sync = s.sync := rfl
@[simp] theorem State.noService_eprev : (s.noService).eprev = s.eprev := rfl
@[simp] theorem State.noService_mode : (s.noService).mode = s.mode := rfl
@[simp] theorem State.noService_mvalid : (s.noService).mvalid = s.mvalid := rfl
@[simp] theorem State.noService_result : (s.noService).result = s.result := rfl
@[simp] theorem State.noService_svc : (s.noService).svc = .none := rfl
@[simp] theorem State.noService_ovr : (s.noService).ovr = s.ovr := rfl
@[simp] theorem State.noService_radioRst : (s.noService).radioRst = s.radioRst := rfl
@[simp] theorem State.noService_pollen : (s.noService).pollen = s.pollen := rfl
@[simp] theorem State.noService_rdata : (s.noService).rdata = s.rdata := rfl
@[simp] theorem State.noService_lastFlags : (s.noService).lastFlags = s.lastFlags := rfl
@[simp] theorem State.noService_freq : (s.noService).freq = s.freq := rfl
@[simp] theorem State.noService_tune : (s.noService).tune = s.tune := rfl
@[simp] theorem State.noService_buf : (s.noService).buf = s.buf := rfl
@[simp] theorem State.noService_csN : (s.noService).csN = s.csN := rfl
@[simp] theorem State.noService_trace : (s.noService).trace = s.trace := rfl
@[simp] theorem State.noService_cfg : (s.noService).cfg = s.cfg := rfl
@[simp] theorem State.noService_inputs : (s.noService).inputs = s.inputs := rfl
@[simp] theorem State.noService_radio : (s.noService).radio = s.radio := rfl
@[simp] theorem State.noService_draws : (s.noService).draws = s.draws := rfl
@[simp] theorem State.noService_busData : (s.noService).busData = s.busData := rfl
@[simp] theorem State.noService_edgeHeld : (s.noService).edgeHeld = s.edgeHeld := rfl

/-! ### recordClass -/

@[simp] theorem State.recordClass_busy (c : SvcClass) : (s.recordClass c).busy = s.busy := by cases c <;> rfl
@[simp] theorem State.recordClass_cmdl (c : SvcClass) : (s.recordClass c).cmdl = s.cmdl := by cases c <;> rfl
@[simp] theorem State.recordClass_txc (c : SvcClass) : (s.recordClass c).txc = (s.txc || decide (c = .tx)) := by cases c <;> simp [State.recordClass]
@[simp] theorem State.recordClass_rxc (c : SvcClass) : (s.recordClass c).rxc = (s.rxc || decide (c = .rx)) := by cases c <;> simp [State.recordClass]
@[simp] theorem State.recordClass_crcd (c : SvcClass) : (s.recordClass c).crcd = (s.crcd || decide (c = .crc)) := by cases c <;> simp [State.recordClass]
@[simp] theorem State.recordClass_irqp (c : SvcClass) : (s.recordClass c).irqp = s.irqp := by cases c <;> rfl
@[simp] theorem State.recordClass_sync (c : SvcClass) : (s.recordClass c).sync = s.sync := by cases c <;> rfl
@[simp] theorem State.recordClass_eprev (c : SvcClass) : (s.recordClass c).eprev = s.eprev := by cases c <;> rfl
@[simp] theorem State.recordClass_mode (c : SvcClass) : (s.recordClass c).mode = s.mode := by cases c <;> rfl
@[simp] theorem State.recordClass_mvalid (c : SvcClass) : (s.recordClass c).mvalid = s.mvalid := by cases c <;> rfl
@[simp] theorem State.recordClass_result (c : SvcClass) : (s.recordClass c).result = s.result := by cases c <;> rfl
@[simp] theorem State.recordClass_svc (c : SvcClass) : (s.recordClass c).svc = c := by cases c <;> simp [State.recordClass]
@[simp] theorem State.recordClass_ovr (c : SvcClass) : (s.recordClass c).ovr = s.ovr := by cases c <;> rfl
@[simp] theorem State.recordClass_radioRst (c : SvcClass) : (s.recordClass c).radioRst = s.radioRst := by cases c <;> rfl
@[simp] theorem State.recordClass_pollen (c : SvcClass) : (s.recordClass c).pollen = s.pollen := by cases c <;> rfl
@[simp] theorem State.recordClass_rdata (c : SvcClass) : (s.recordClass c).rdata = s.rdata := by cases c <;> rfl
@[simp] theorem State.recordClass_lastFlags (c : SvcClass) : (s.recordClass c).lastFlags = s.lastFlags := by cases c <;> rfl
@[simp] theorem State.recordClass_freq (c : SvcClass) : (s.recordClass c).freq = s.freq := by cases c <;> rfl
@[simp] theorem State.recordClass_tune (c : SvcClass) : (s.recordClass c).tune = s.tune := by cases c <;> rfl
@[simp] theorem State.recordClass_buf (c : SvcClass) : (s.recordClass c).buf = s.buf := by cases c <;> rfl
@[simp] theorem State.recordClass_csN (c : SvcClass) : (s.recordClass c).csN = s.csN := by cases c <;> rfl
@[simp] theorem State.recordClass_trace (c : SvcClass) : (s.recordClass c).trace = s.trace := by cases c <;> rfl
@[simp] theorem State.recordClass_cfg (c : SvcClass) : (s.recordClass c).cfg = s.cfg := by cases c <;> rfl
@[simp] theorem State.recordClass_inputs (c : SvcClass) : (s.recordClass c).inputs = s.inputs := by cases c <;> rfl
@[simp] theorem State.recordClass_radio (c : SvcClass) : (s.recordClass c).radio = s.radio := by cases c <;> rfl
@[simp] theorem State.recordClass_draws (c : SvcClass) : (s.recordClass c).draws = s.draws := by cases c <;> rfl
@[simp] theorem State.recordClass_busData (c : SvcClass) : (s.recordClass c).busData = s.busData := by cases c <;> rfl
@[simp] theorem State.recordClass_edgeHeld (c : SvcClass) : (s.recordClass c).edgeHeld = s.edgeHeld := by cases c <;> rfl

/-! ### clearSticky -/

@[simp] theorem State.clearSticky_busy (m : BitVec 4) : (s.clearSticky m).busy = s.busy := rfl
@[simp] theorem State.clearSticky_cmdl (m : BitVec 4) : (s.clearSticky m).cmdl = s.cmdl := rfl
@[simp] theorem State.clearSticky_txc (m : BitVec 4) : (s.clearSticky m).txc = (s.txc && !m.getLsbD 0) := rfl
@[simp] theorem State.clearSticky_rxc (m : BitVec 4) : (s.clearSticky m).rxc = (s.rxc && !m.getLsbD 1) := rfl
@[simp] theorem State.clearSticky_crcd (m : BitVec 4) : (s.clearSticky m).crcd = (s.crcd && !m.getLsbD 2) := rfl
@[simp] theorem State.clearSticky_irqp (m : BitVec 4) : (s.clearSticky m).irqp = s.irqp := rfl
@[simp] theorem State.clearSticky_sync (m : BitVec 4) : (s.clearSticky m).sync = s.sync := rfl
@[simp] theorem State.clearSticky_eprev (m : BitVec 4) : (s.clearSticky m).eprev = s.eprev := rfl
@[simp] theorem State.clearSticky_mode (m : BitVec 4) : (s.clearSticky m).mode = s.mode := rfl
@[simp] theorem State.clearSticky_mvalid (m : BitVec 4) : (s.clearSticky m).mvalid = s.mvalid := rfl
@[simp] theorem State.clearSticky_result (m : BitVec 4) : (s.clearSticky m).result = s.result := rfl
@[simp] theorem State.clearSticky_svc (m : BitVec 4) : (s.clearSticky m).svc = s.svc := rfl
@[simp] theorem State.clearSticky_ovr (m : BitVec 4) : (s.clearSticky m).ovr = (s.ovr && !m.getLsbD 3) := rfl
@[simp] theorem State.clearSticky_radioRst (m : BitVec 4) : (s.clearSticky m).radioRst = s.radioRst := rfl
@[simp] theorem State.clearSticky_pollen (m : BitVec 4) : (s.clearSticky m).pollen = s.pollen := rfl
@[simp] theorem State.clearSticky_rdata (m : BitVec 4) : (s.clearSticky m).rdata = s.rdata := rfl
@[simp] theorem State.clearSticky_lastFlags (m : BitVec 4) : (s.clearSticky m).lastFlags = s.lastFlags := rfl
@[simp] theorem State.clearSticky_freq (m : BitVec 4) : (s.clearSticky m).freq = s.freq := rfl
@[simp] theorem State.clearSticky_tune (m : BitVec 4) : (s.clearSticky m).tune = s.tune := rfl
@[simp] theorem State.clearSticky_buf (m : BitVec 4) : (s.clearSticky m).buf = s.buf := rfl
@[simp] theorem State.clearSticky_csN (m : BitVec 4) : (s.clearSticky m).csN = s.csN := rfl
@[simp] theorem State.clearSticky_trace (m : BitVec 4) : (s.clearSticky m).trace = s.trace := rfl
@[simp] theorem State.clearSticky_cfg (m : BitVec 4) : (s.clearSticky m).cfg = s.cfg := rfl
@[simp] theorem State.clearSticky_inputs (m : BitVec 4) : (s.clearSticky m).inputs = s.inputs := rfl
@[simp] theorem State.clearSticky_radio (m : BitVec 4) : (s.clearSticky m).radio = s.radio := rfl
@[simp] theorem State.clearSticky_draws (m : BitVec 4) : (s.clearSticky m).draws = s.draws := rfl
@[simp] theorem State.clearSticky_busData (m : BitVec 4) : (s.clearSticky m).busData = s.busData := rfl
@[simp] theorem State.clearSticky_edgeHeld (m : BitVec 4) : (s.clearSticky m).edgeHeld = s.edgeHeld := rfl

/-! ### popInput -/

@[simp] theorem State.popInput_busy : (s.popInput).busy = s.busy := rfl
@[simp] theorem State.popInput_cmdl : (s.popInput).cmdl = s.cmdl := rfl
@[simp] theorem State.popInput_txc : (s.popInput).txc = s.txc := rfl
@[simp] theorem State.popInput_rxc : (s.popInput).rxc = s.rxc := rfl
@[simp] theorem State.popInput_crcd : (s.popInput).crcd = s.crcd := rfl
@[simp] theorem State.popInput_irqp : (s.popInput).irqp = s.irqp := rfl
@[simp] theorem State.popInput_sync : (s.popInput).sync = s.sync := rfl
@[simp] theorem State.popInput_eprev : (s.popInput).eprev = s.eprev := rfl
@[simp] theorem State.popInput_mode : (s.popInput).mode = s.mode := rfl
@[simp] theorem State.popInput_mvalid : (s.popInput).mvalid = s.mvalid := rfl
@[simp] theorem State.popInput_result : (s.popInput).result = s.result := rfl
@[simp] theorem State.popInput_svc : (s.popInput).svc = s.svc := rfl
@[simp] theorem State.popInput_ovr : (s.popInput).ovr = s.ovr := rfl
@[simp] theorem State.popInput_radioRst : (s.popInput).radioRst = s.radioRst := rfl
@[simp] theorem State.popInput_pollen : (s.popInput).pollen = s.pollen := rfl
@[simp] theorem State.popInput_rdata : (s.popInput).rdata = s.rdata := rfl
@[simp] theorem State.popInput_lastFlags : (s.popInput).lastFlags = s.lastFlags := rfl
@[simp] theorem State.popInput_freq : (s.popInput).freq = s.freq := rfl
@[simp] theorem State.popInput_tune : (s.popInput).tune = s.tune := rfl
@[simp] theorem State.popInput_buf : (s.popInput).buf = s.buf := rfl
@[simp] theorem State.popInput_csN : (s.popInput).csN = s.csN := rfl
@[simp] theorem State.popInput_trace : (s.popInput).trace = s.trace := rfl
@[simp] theorem State.popInput_cfg : (s.popInput).cfg = s.cfg := rfl
@[simp] theorem State.popInput_inputs : (s.popInput).inputs = s.inputs.tail := rfl
@[simp] theorem State.popInput_radio : (s.popInput).radio = s.radio := rfl
@[simp] theorem State.popInput_draws : (s.popInput).draws = s.draws := rfl
@[simp] theorem State.popInput_busData : (s.popInput).busData = s.busData := rfl
@[simp] theorem State.popInput_edgeHeld : (s.popInput).edgeHeld = s.edgeHeld := rfl

/-! ### schedule -/

@[simp] theorem State.schedule_busy (i : Input) : (s.schedule i).busy = s.busy := rfl
@[simp] theorem State.schedule_cmdl (i : Input) : (s.schedule i).cmdl = s.cmdl := rfl
@[simp] theorem State.schedule_txc (i : Input) : (s.schedule i).txc = s.txc := rfl
@[simp] theorem State.schedule_rxc (i : Input) : (s.schedule i).rxc = s.rxc := rfl
@[simp] theorem State.schedule_crcd (i : Input) : (s.schedule i).crcd = s.crcd := rfl
@[simp] theorem State.schedule_irqp (i : Input) : (s.schedule i).irqp = s.irqp := rfl
@[simp] theorem State.schedule_sync (i : Input) : (s.schedule i).sync = s.sync := rfl
@[simp] theorem State.schedule_eprev (i : Input) : (s.schedule i).eprev = s.eprev := rfl
@[simp] theorem State.schedule_mode (i : Input) : (s.schedule i).mode = s.mode := rfl
@[simp] theorem State.schedule_mvalid (i : Input) : (s.schedule i).mvalid = s.mvalid := rfl
@[simp] theorem State.schedule_result (i : Input) : (s.schedule i).result = s.result := rfl
@[simp] theorem State.schedule_svc (i : Input) : (s.schedule i).svc = s.svc := rfl
@[simp] theorem State.schedule_ovr (i : Input) : (s.schedule i).ovr = s.ovr := rfl
@[simp] theorem State.schedule_radioRst (i : Input) : (s.schedule i).radioRst = s.radioRst := rfl
@[simp] theorem State.schedule_pollen (i : Input) : (s.schedule i).pollen = s.pollen := rfl
@[simp] theorem State.schedule_rdata (i : Input) : (s.schedule i).rdata = s.rdata := rfl
@[simp] theorem State.schedule_lastFlags (i : Input) : (s.schedule i).lastFlags = s.lastFlags := rfl
@[simp] theorem State.schedule_freq (i : Input) : (s.schedule i).freq = s.freq := rfl
@[simp] theorem State.schedule_tune (i : Input) : (s.schedule i).tune = s.tune := rfl
@[simp] theorem State.schedule_buf (i : Input) : (s.schedule i).buf = s.buf := rfl
@[simp] theorem State.schedule_csN (i : Input) : (s.schedule i).csN = s.csN := rfl
@[simp] theorem State.schedule_trace (i : Input) : (s.schedule i).trace = s.trace := rfl
@[simp] theorem State.schedule_cfg (i : Input) : (s.schedule i).cfg = s.cfg := rfl
@[simp] theorem State.schedule_inputs (i : Input) : (s.schedule i).inputs = i :: s.inputs := rfl
@[simp] theorem State.schedule_radio (i : Input) : (s.schedule i).radio = s.radio := rfl
@[simp] theorem State.schedule_draws (i : Input) : (s.schedule i).draws = s.draws := rfl
@[simp] theorem State.schedule_busData (i : Input) : (s.schedule i).busData = s.busData := rfl
@[simp] theorem State.schedule_edgeHeld (i : Input) : (s.schedule i).edgeHeld = s.edgeHeld := rfl

/-! ### hostRead -/

@[simp] theorem State.hostRead_busy (off : Nat) : (s.hostRead off).busy = s.busy := rfl
@[simp] theorem State.hostRead_cmdl (off : Nat) : (s.hostRead off).cmdl = s.cmdl := rfl
@[simp] theorem State.hostRead_txc (off : Nat) : (s.hostRead off).txc = s.txc := rfl
@[simp] theorem State.hostRead_rxc (off : Nat) : (s.hostRead off).rxc = s.rxc := rfl
@[simp] theorem State.hostRead_crcd (off : Nat) : (s.hostRead off).crcd = s.crcd := rfl
@[simp] theorem State.hostRead_irqp (off : Nat) : (s.hostRead off).irqp = s.irqp := rfl
@[simp] theorem State.hostRead_sync (off : Nat) : (s.hostRead off).sync = s.sync := rfl
@[simp] theorem State.hostRead_eprev (off : Nat) : (s.hostRead off).eprev = s.eprev := rfl
@[simp] theorem State.hostRead_mode (off : Nat) : (s.hostRead off).mode = s.mode := rfl
@[simp] theorem State.hostRead_mvalid (off : Nat) : (s.hostRead off).mvalid = s.mvalid := rfl
@[simp] theorem State.hostRead_result (off : Nat) : (s.hostRead off).result = s.result := rfl
@[simp] theorem State.hostRead_svc (off : Nat) : (s.hostRead off).svc = s.svc := rfl
@[simp] theorem State.hostRead_ovr (off : Nat) : (s.hostRead off).ovr = s.ovr := rfl
@[simp] theorem State.hostRead_radioRst (off : Nat) : (s.hostRead off).radioRst = s.radioRst := rfl
@[simp] theorem State.hostRead_pollen (off : Nat) : (s.hostRead off).pollen = s.pollen := rfl
@[simp] theorem State.hostRead_rdata (off : Nat) : (s.hostRead off).rdata = s.rdata := rfl
@[simp] theorem State.hostRead_lastFlags (off : Nat) : (s.hostRead off).lastFlags = s.lastFlags := rfl
@[simp] theorem State.hostRead_freq (off : Nat) : (s.hostRead off).freq = s.freq := rfl
@[simp] theorem State.hostRead_tune (off : Nat) : (s.hostRead off).tune = s.tune := rfl
@[simp] theorem State.hostRead_buf (off : Nat) : (s.hostRead off).buf = s.buf := rfl
@[simp] theorem State.hostRead_csN (off : Nat) : (s.hostRead off).csN = s.csN := rfl
@[simp] theorem State.hostRead_trace (off : Nat) : (s.hostRead off).trace = s.trace := rfl
@[simp] theorem State.hostRead_cfg (off : Nat) : (s.hostRead off).cfg = s.cfg := rfl
@[simp] theorem State.hostRead_inputs (off : Nat) : (s.hostRead off).inputs = s.inputs := rfl
@[simp] theorem State.hostRead_radio (off : Nat) : (s.hostRead off).radio = s.radio := rfl
@[simp] theorem State.hostRead_draws (off : Nat) : (s.hostRead off).draws = s.draws + 1 := rfl
@[simp] theorem State.hostRead_busData (off : Nat) : (s.hostRead off).busData = some (s.readValue (windowReg off)) := rfl
@[simp] theorem State.hostRead_edgeHeld (off : Nat) : (s.hostRead off).edgeHeld = s.edgeHeld := rfl

/-! ### latchCommand -/

@[simp] theorem State.latchCommand_busy (w : Word) : (s.latchCommand w).busy = true := rfl
@[simp] theorem State.latchCommand_cmdl (w : Word) : (s.latchCommand w).cmdl = w := rfl
@[simp] theorem State.latchCommand_txc (w : Word) : (s.latchCommand w).txc = s.txc := rfl
@[simp] theorem State.latchCommand_rxc (w : Word) : (s.latchCommand w).rxc = s.rxc := rfl
@[simp] theorem State.latchCommand_crcd (w : Word) : (s.latchCommand w).crcd = s.crcd := rfl
@[simp] theorem State.latchCommand_irqp (w : Word) : (s.latchCommand w).irqp = s.irqp := rfl
@[simp] theorem State.latchCommand_sync (w : Word) : (s.latchCommand w).sync = s.sync := rfl
@[simp] theorem State.latchCommand_eprev (w : Word) : (s.latchCommand w).eprev = s.eprev := rfl
@[simp] theorem State.latchCommand_mode (w : Word) : (s.latchCommand w).mode = s.mode := rfl
@[simp] theorem State.latchCommand_mvalid (w : Word) : (s.latchCommand w).mvalid = s.mvalid := rfl
@[simp] theorem State.latchCommand_result (w : Word) : (s.latchCommand w).result = s.result := rfl
@[simp] theorem State.latchCommand_svc (w : Word) : (s.latchCommand w).svc = s.svc := rfl
@[simp] theorem State.latchCommand_ovr (w : Word) : (s.latchCommand w).ovr = s.ovr := rfl
@[simp] theorem State.latchCommand_radioRst (w : Word) : (s.latchCommand w).radioRst = s.radioRst := rfl
@[simp] theorem State.latchCommand_pollen (w : Word) : (s.latchCommand w).pollen = s.pollen := rfl
@[simp] theorem State.latchCommand_rdata (w : Word) : (s.latchCommand w).rdata = s.rdata := rfl
@[simp] theorem State.latchCommand_lastFlags (w : Word) : (s.latchCommand w).lastFlags = s.lastFlags := rfl
@[simp] theorem State.latchCommand_freq (w : Word) : (s.latchCommand w).freq = s.freq := rfl
@[simp] theorem State.latchCommand_tune (w : Word) : (s.latchCommand w).tune = s.tune := rfl
@[simp] theorem State.latchCommand_buf (w : Word) : (s.latchCommand w).buf = s.buf := rfl
@[simp] theorem State.latchCommand_csN (w : Word) : (s.latchCommand w).csN = s.csN := rfl
@[simp] theorem State.latchCommand_trace (w : Word) : (s.latchCommand w).trace = s.trace := rfl
@[simp] theorem State.latchCommand_cfg (w : Word) : (s.latchCommand w).cfg = s.cfg := rfl
@[simp] theorem State.latchCommand_inputs (w : Word) : (s.latchCommand w).inputs = s.inputs := rfl
@[simp] theorem State.latchCommand_radio (w : Word) : (s.latchCommand w).radio = s.radio := rfl
@[simp] theorem State.latchCommand_draws (w : Word) : (s.latchCommand w).draws = s.draws := rfl
@[simp] theorem State.latchCommand_busData (w : Word) : (s.latchCommand w).busData = s.busData := rfl
@[simp] theorem State.latchCommand_edgeHeld (w : Word) : (s.latchCommand w).edgeHeld = s.edgeHeld := rfl

/-! ### writeCtrl -/

@[simp] theorem State.writeCtrl_busy (v : Word) : (s.writeCtrl v).busy = s.busy := rfl
@[simp] theorem State.writeCtrl_cmdl (v : Word) : (s.writeCtrl v).cmdl = s.cmdl := rfl
@[simp] theorem State.writeCtrl_txc (v : Word) : (s.writeCtrl v).txc = s.txc := rfl
@[simp] theorem State.writeCtrl_rxc (v : Word) : (s.writeCtrl v).rxc = s.rxc := rfl
@[simp] theorem State.writeCtrl_crcd (v : Word) : (s.writeCtrl v).crcd = s.crcd := rfl
@[simp] theorem State.writeCtrl_irqp (v : Word) : (s.writeCtrl v).irqp = s.irqp := rfl
@[simp] theorem State.writeCtrl_sync (v : Word) : (s.writeCtrl v).sync = s.sync := rfl
@[simp] theorem State.writeCtrl_eprev (v : Word) : (s.writeCtrl v).eprev = s.eprev := rfl
@[simp] theorem State.writeCtrl_mode (v : Word) : (s.writeCtrl v).mode = s.mode := rfl
@[simp] theorem State.writeCtrl_mvalid (v : Word) : (s.writeCtrl v).mvalid = s.mvalid := rfl
@[simp] theorem State.writeCtrl_result (v : Word) : (s.writeCtrl v).result = s.result := rfl
@[simp] theorem State.writeCtrl_svc (v : Word) : (s.writeCtrl v).svc = s.svc := rfl
@[simp] theorem State.writeCtrl_ovr (v : Word) : (s.writeCtrl v).ovr = s.ovr := rfl
@[simp] theorem State.writeCtrl_radioRst (v : Word) : (s.writeCtrl v).radioRst = v.getLsbD 0 := rfl
@[simp] theorem State.writeCtrl_pollen (v : Word) : (s.writeCtrl v).pollen = v.getLsbD 1 := rfl
@[simp] theorem State.writeCtrl_rdata (v : Word) : (s.writeCtrl v).rdata = s.rdata := rfl
@[simp] theorem State.writeCtrl_lastFlags (v : Word) : (s.writeCtrl v).lastFlags = s.lastFlags := rfl
@[simp] theorem State.writeCtrl_freq (v : Word) : (s.writeCtrl v).freq = s.freq := rfl
@[simp] theorem State.writeCtrl_tune (v : Word) : (s.writeCtrl v).tune = s.tune := rfl
@[simp] theorem State.writeCtrl_buf (v : Word) : (s.writeCtrl v).buf = s.buf := rfl
@[simp] theorem State.writeCtrl_csN (v : Word) : (s.writeCtrl v).csN = s.csN := rfl
@[simp] theorem State.writeCtrl_trace (v : Word) : (s.writeCtrl v).trace = s.trace := rfl
@[simp] theorem State.writeCtrl_cfg (v : Word) : (s.writeCtrl v).cfg = s.cfg := rfl
@[simp] theorem State.writeCtrl_inputs (v : Word) : (s.writeCtrl v).inputs = s.inputs := rfl
@[simp] theorem State.writeCtrl_radio (v : Word) : (s.writeCtrl v).radio = s.radio := rfl
@[simp] theorem State.writeCtrl_draws (v : Word) : (s.writeCtrl v).draws = s.draws := rfl
@[simp] theorem State.writeCtrl_busData (v : Word) : (s.writeCtrl v).busData = s.busData := rfl
@[simp] theorem State.writeCtrl_edgeHeld (v : Word) : (s.writeCtrl v).edgeHeld = s.edgeHeld := rfl

/-! ### writeBufWord -/

@[simp] theorem State.writeBufWord_busy (k : Nat) (v : Word) : (s.writeBufWord k v).busy = s.busy := rfl
@[simp] theorem State.writeBufWord_cmdl (k : Nat) (v : Word) : (s.writeBufWord k v).cmdl = s.cmdl := rfl
@[simp] theorem State.writeBufWord_txc (k : Nat) (v : Word) : (s.writeBufWord k v).txc = s.txc := rfl
@[simp] theorem State.writeBufWord_rxc (k : Nat) (v : Word) : (s.writeBufWord k v).rxc = s.rxc := rfl
@[simp] theorem State.writeBufWord_crcd (k : Nat) (v : Word) : (s.writeBufWord k v).crcd = s.crcd := rfl
@[simp] theorem State.writeBufWord_irqp (k : Nat) (v : Word) : (s.writeBufWord k v).irqp = s.irqp := rfl
@[simp] theorem State.writeBufWord_sync (k : Nat) (v : Word) : (s.writeBufWord k v).sync = s.sync := rfl
@[simp] theorem State.writeBufWord_eprev (k : Nat) (v : Word) : (s.writeBufWord k v).eprev = s.eprev := rfl
@[simp] theorem State.writeBufWord_mode (k : Nat) (v : Word) : (s.writeBufWord k v).mode = s.mode := rfl
@[simp] theorem State.writeBufWord_mvalid (k : Nat) (v : Word) : (s.writeBufWord k v).mvalid = s.mvalid := rfl
@[simp] theorem State.writeBufWord_result (k : Nat) (v : Word) : (s.writeBufWord k v).result = s.result := rfl
@[simp] theorem State.writeBufWord_svc (k : Nat) (v : Word) : (s.writeBufWord k v).svc = s.svc := rfl
@[simp] theorem State.writeBufWord_ovr (k : Nat) (v : Word) : (s.writeBufWord k v).ovr = s.ovr := rfl
@[simp] theorem State.writeBufWord_radioRst (k : Nat) (v : Word) : (s.writeBufWord k v).radioRst = s.radioRst := rfl
@[simp] theorem State.writeBufWord_pollen (k : Nat) (v : Word) : (s.writeBufWord k v).pollen = s.pollen := rfl
@[simp] theorem State.writeBufWord_rdata (k : Nat) (v : Word) : (s.writeBufWord k v).rdata = s.rdata := rfl
@[simp] theorem State.writeBufWord_lastFlags (k : Nat) (v : Word) : (s.writeBufWord k v).lastFlags = s.lastFlags := rfl
@[simp] theorem State.writeBufWord_freq (k : Nat) (v : Word) : (s.writeBufWord k v).freq = s.freq := rfl
@[simp] theorem State.writeBufWord_tune (k : Nat) (v : Word) : (s.writeBufWord k v).tune = s.tune := rfl
@[simp] theorem State.writeBufWord_buf (k : Nat) (v : Word) : (s.writeBufWord k v).buf = Memory.writeBytes s.buf (4 * k) (wordLanes v) := rfl
@[simp] theorem State.writeBufWord_csN (k : Nat) (v : Word) : (s.writeBufWord k v).csN = s.csN := rfl
@[simp] theorem State.writeBufWord_trace (k : Nat) (v : Word) : (s.writeBufWord k v).trace = s.trace := rfl
@[simp] theorem State.writeBufWord_cfg (k : Nat) (v : Word) : (s.writeBufWord k v).cfg = s.cfg := rfl
@[simp] theorem State.writeBufWord_inputs (k : Nat) (v : Word) : (s.writeBufWord k v).inputs = s.inputs := rfl
@[simp] theorem State.writeBufWord_radio (k : Nat) (v : Word) : (s.writeBufWord k v).radio = s.radio := rfl
@[simp] theorem State.writeBufWord_draws (k : Nat) (v : Word) : (s.writeBufWord k v).draws = s.draws := rfl
@[simp] theorem State.writeBufWord_busData (k : Nat) (v : Word) : (s.writeBufWord k v).busData = s.busData := rfl
@[simp] theorem State.writeBufWord_edgeHeld (k : Nat) (v : Word) : (s.writeBufWord k v).edgeHeld = s.edgeHeld := rfl

/-! ### blockReset -/

@[simp] theorem State.blockReset_busy : (s.blockReset).busy = false := rfl
@[simp] theorem State.blockReset_cmdl : (s.blockReset).cmdl = 0#32 := rfl
@[simp] theorem State.blockReset_txc : (s.blockReset).txc = false := rfl
@[simp] theorem State.blockReset_rxc : (s.blockReset).rxc = false := rfl
@[simp] theorem State.blockReset_crcd : (s.blockReset).crcd = false := rfl
@[simp] theorem State.blockReset_irqp : (s.blockReset).irqp = false := rfl
@[simp] theorem State.blockReset_sync : (s.blockReset).sync = List.replicate s.cfg.syncStages false := rfl
@[simp] theorem State.blockReset_eprev : (s.blockReset).eprev = false := rfl
@[simp] theorem State.blockReset_mode : (s.blockReset).mode = .sleep := rfl
@[simp] theorem State.blockReset_mvalid : (s.blockReset).mvalid = false := rfl
@[simp] theorem State.blockReset_result : (s.blockReset).result = .ok := rfl
@[simp] theorem State.blockReset_svc : (s.blockReset).svc = .none := rfl
@[simp] theorem State.blockReset_ovr : (s.blockReset).ovr = false := rfl
@[simp] theorem State.blockReset_radioRst : (s.blockReset).radioRst = false := rfl
@[simp] theorem State.blockReset_pollen : (s.blockReset).pollen = true := rfl
@[simp] theorem State.blockReset_rdata : (s.blockReset).rdata = 0#8 := rfl
@[simp] theorem State.blockReset_lastFlags : (s.blockReset).lastFlags = 0#8 := rfl
@[simp] theorem State.blockReset_freq : (s.blockReset).freq = 0#32 := rfl
@[simp] theorem State.blockReset_tune : (s.blockReset).tune = 0#24 := rfl
@[simp] theorem State.blockReset_buf : (s.blockReset).buf = [] := rfl
@[simp] theorem State.blockReset_csN : (s.blockReset).csN = true := rfl
@[simp] theorem State.blockReset_trace : (s.blockReset).trace = [] := rfl
@[simp] theorem State.blockReset_cfg : (s.blockReset).cfg = s.cfg := rfl
@[simp] theorem State.blockReset_inputs : (s.blockReset).inputs = s.inputs := rfl
@[simp] theorem State.blockReset_radio : (s.blockReset).radio = s.radio := rfl
@[simp] theorem State.blockReset_draws : (s.blockReset).draws = s.draws := rfl
@[simp] theorem State.blockReset_busData : (s.blockReset).busData = s.busData := rfl
@[simp] theorem State.blockReset_edgeHeld : (s.blockReset).edgeHeld = false := rfl

/-! ### setRdata -/

@[simp] theorem State.setRdata_busy (b : Byte) : (s.setRdata b).busy = s.busy := rfl
@[simp] theorem State.setRdata_cmdl (b : Byte) : (s.setRdata b).cmdl = s.cmdl := rfl
@[simp] theorem State.setRdata_txc (b : Byte) : (s.setRdata b).txc = s.txc := rfl
@[simp] theorem State.setRdata_rxc (b : Byte) : (s.setRdata b).rxc = s.rxc := rfl
@[simp] theorem State.setRdata_crcd (b : Byte) : (s.setRdata b).crcd = s.crcd := rfl
@[simp] theorem State.setRdata_irqp (b : Byte) : (s.setRdata b).irqp = s.irqp := rfl
@[simp] theorem State.setRdata_sync (b : Byte) : (s.setRdata b).sync = s.sync := rfl
@[simp] theorem State.setRdata_eprev (b : Byte) : (s.setRdata b).eprev = s.eprev := rfl
@[simp] theorem State.setRdata_mode (b : Byte) : (s.setRdata b).mode = s.mode := rfl
@[simp] theorem State.setRdata_mvalid (b : Byte) : (s.setRdata b).mvalid = s.mvalid := rfl
@[simp] theorem State.setRdata_result (b : Byte) : (s.setRdata b).result = s.result := rfl
@[simp] theorem State.setRdata_svc (b : Byte) : (s.setRdata b).svc = s.svc := rfl
@[simp] theorem State.setRdata_ovr (b : Byte) : (s.setRdata b).ovr = s.ovr := rfl
@[simp] theorem State.setRdata_radioRst (b : Byte) : (s.setRdata b).radioRst = s.radioRst := rfl
@[simp] theorem State.setRdata_pollen (b : Byte) : (s.setRdata b).pollen = s.pollen := rfl
@[simp] theorem State.setRdata_rdata (b : Byte) : (s.setRdata b).rdata = b := rfl
@[simp] theorem State.setRdata_lastFlags (b : Byte) : (s.setRdata b).lastFlags = s.lastFlags := rfl
@[simp] theorem State.setRdata_freq (b : Byte) : (s.setRdata b).freq = s.freq := rfl
@[simp] theorem State.setRdata_tune (b : Byte) : (s.setRdata b).tune = s.tune := rfl
@[simp] theorem State.setRdata_buf (b : Byte) : (s.setRdata b).buf = s.buf := rfl
@[simp] theorem State.setRdata_csN (b : Byte) : (s.setRdata b).csN = s.csN := rfl
@[simp] theorem State.setRdata_trace (b : Byte) : (s.setRdata b).trace = s.trace := rfl
@[simp] theorem State.setRdata_cfg (b : Byte) : (s.setRdata b).cfg = s.cfg := rfl
@[simp] theorem State.setRdata_inputs (b : Byte) : (s.setRdata b).inputs = s.inputs := rfl
@[simp] theorem State.setRdata_radio (b : Byte) : (s.setRdata b).radio = s.radio := rfl
@[simp] theorem State.setRdata_draws (b : Byte) : (s.setRdata b).draws = s.draws := rfl
@[simp] theorem State.setRdata_busData (b : Byte) : (s.setRdata b).busData = s.busData := rfl
@[simp] theorem State.setRdata_edgeHeld (b : Byte) : (s.setRdata b).edgeHeld = s.edgeHeld := rfl

/-! ### setLastFlags -/

@[simp] theorem State.setLastFlags_busy (b : Byte) : (s.setLastFlags b).busy = s.busy := rfl
@[simp] theorem State.setLastFlags_cmdl (b : Byte) : (s.setLastFlags b).cmdl = s.cmdl := rfl
@[simp] theorem State.setLastFlags_txc (b : Byte) : (s.setLastFlags b).txc = s.txc := rfl
@[simp] theorem State.setLastFlags_rxc (b : Byte) : (s.setLastFlags b).rxc = s.rxc := rfl
@[simp] theorem State.setLastFlags_crcd (b : Byte) : (s.setLastFlags b).crcd = s.crcd := rfl
@[simp] theorem State.setLastFlags_irqp (b : Byte) : (s.setLastFlags b).irqp = s.irqp := rfl
@[simp] theorem State.setLastFlags_sync (b : Byte) : (s.setLastFlags b).sync = s.sync := rfl
@[simp] theorem State.setLastFlags_eprev (b : Byte) : (s.setLastFlags b).eprev = s.eprev := rfl
@[simp] theorem State.setLastFlags_mode (b : Byte) : (s.setLastFlags b).mode = s.mode := rfl
@[simp] theorem State.setLastFlags_mvalid (b : Byte) : (s.setLastFlags b).mvalid = s.mvalid := rfl
@[simp] theorem State.setLastFlags_result (b : Byte) : (s.setLastFlags b).result = s.result := rfl
@[simp] theorem State.setLastFlags_svc (b : Byte) : (s.setLastFlags b).svc = s.svc := rfl
@[simp] theorem State.setLastFlags_ovr (b : Byte) : (s.setLastFlags b).ovr = s.ovr := rfl
@[simp] theorem State.setLastFlags_radioRst (b : Byte) : (s.setLastFlags b).radioRst = s.radioRst := rfl
@[simp] theorem State.setLastFlags_pollen (b : Byte) : (s.setLastFlags b).pollen = s.pollen := rfl
@[simp] theorem State.setLastFlags_rdata (b : Byte) : (s.setLastFlags b).rdata = s.rdata := rfl
@[simp] theorem State.setLastFlags_lastFlags (b : Byte) : (s.setLastFlags b).lastFlags = b := rfl
@[simp] theorem State.setLastFlags_freq (b : Byte) : (s.setLastFlags b).freq = s.freq := rfl
@[simp] theorem State.setLastFlags_tune (b : Byte) : (s.setLastFlags b).tune = s.tune := rfl
@[simp] theorem State.setLastFlags_buf (b : Byte) : (s.setLastFlags b).buf = s.buf := rfl
@[simp] theorem State.setLastFlags_csN (b : Byte) : (s.setLastFlags b).csN = s.csN := rfl
@[simp] theorem State.setLastFlags_trace (b : Byte) : (s.setLastFlags b).trace = s.trace := rfl
@[simp] theorem State.setLastFlags_cfg (b : Byte) : (s.setLastFlags b).cfg = s.cfg := rfl
@[simp] theorem State.setLastFlags_inputs (b : Byte) : (s.setLastFlags b).inputs = s.inputs := rfl
@[simp] theorem State.setLastFlags_radio (b : Byte) : (s.setLastFlags b).radio = s.radio := rfl
@[simp] theorem State.setLastFlags_draws (b : Byte) : (s.setLastFlags b).draws = s.draws := rfl
@[simp] theorem State.setLastFlags_busData (b : Byte) : (s.setLastFlags b).busData = s.busData := rfl
@[simp] theorem State.setLastFlags_edgeHeld (b : Byte) : (s.setLastFlags b).edgeHeld = s.edgeHeld := rfl

/-! ### setFreq -/

@[simp] theorem State.setFreq_busy (f : Word) : (s.setFreq f).busy = s.busy := rfl
@[simp] theorem State.setFreq_cmdl (f : Word) : (s.setFreq f).cmdl = s.cmdl := rfl
@[simp] theorem State.setFreq_txc (f : Word) : (s.setFreq f).txc = s.txc := rfl
@[simp] theorem State.setFreq_rxc (f : Word) : (s.setFreq f).rxc = s.rxc := rfl
@[simp] theorem State.setFreq_crcd (f : Word) : (s.setFreq f).crcd = s.crcd := rfl
@[simp] theorem State.setFreq_irqp (f : Word) : (s.setFreq f).irqp = s.irqp := rfl
@[simp] theorem State.setFreq_sync (f : Word) : (s.setFreq f).sync = s.sync := rfl
@[simp] theorem State.setFreq_eprev (f : Word) : (s.setFreq f).eprev = s.eprev := rfl
@[simp] theorem State.setFreq_mode (f : Word) : (s.setFreq f).mode = s.mode := rfl
@[simp] theorem State.setFreq_mvalid (f : Word) : (s.setFreq f).mvalid = s.mvalid := rfl
@[simp] theorem State.setFreq_result (f : Word) : (s.setFreq f).result = s.result := rfl
@[simp] theorem State.setFreq_svc (f : Word) : (s.setFreq f).svc = s.svc := rfl
@[simp] theorem State.setFreq_ovr (f : Word) : (s.setFreq f).ovr = s.ovr := rfl
@[simp] theorem State.setFreq_radioRst (f : Word) : (s.setFreq f).radioRst = s.radioRst := rfl
@[simp] theorem State.setFreq_pollen (f : Word) : (s.setFreq f).pollen = s.pollen := rfl
@[simp] theorem State.setFreq_rdata (f : Word) : (s.setFreq f).rdata = s.rdata := rfl
@[simp] theorem State.setFreq_lastFlags (f : Word) : (s.setFreq f).lastFlags = s.lastFlags := rfl
@[simp] theorem State.setFreq_freq (f : Word) : (s.setFreq f).freq = f := rfl
@[simp] theorem State.setFreq_tune (f : Word) : (s.setFreq f).tune = s.tune := rfl
@[simp] theorem State.setFreq_buf (f : Word) : (s.setFreq f).buf = s.buf := rfl
@[simp] theorem State.setFreq_csN (f : Word) : (s.setFreq f).csN = s.csN := rfl
@[simp] theorem State.setFreq_trace (f : Word) : (s.setFreq f).trace = s.trace := rfl
@[simp] theorem State.setFreq_cfg (f : Word) : (s.setFreq f).cfg = s.cfg := rfl
@[simp] theorem State.setFreq_inputs (f : Word) : (s.setFreq f).inputs = s.inputs := rfl
@[simp] theorem State.setFreq_radio (f : Word) : (s.setFreq f).radio = s.radio := rfl
@[simp] theorem State.setFreq_draws (f : Word) : (s.setFreq f).draws = s.draws := rfl
@[simp] theorem State.setFreq_busData (f : Word) : (s.setFreq f).busData = s.busData := rfl
@[simp] theorem State.setFreq_edgeHeld (f : Word) : (s.setFreq f).edgeHeld = s.edgeHeld := rfl

/-! ### setOvr -/

@[simp] theorem State.setOvr_busy : (s.setOvr).busy = s.busy := rfl
@[simp] theorem State.setOvr_cmdl : (s.setOvr).cmdl = s.cmdl := rfl
@[simp] theorem State.setOvr_txc : (s.setOvr).txc = s.txc := rfl
@[simp] theorem State.setOvr_rxc : (s.setOvr).rxc = s.rxc := rfl
@[simp] theorem State.setOvr_crcd : (s.setOvr).crcd = s.crcd := rfl
@[simp] theorem State.setOvr_irqp : (s.setOvr).irqp = s.irqp := rfl
@[simp] theorem State.setOvr_sync : (s.setOvr).sync = s.sync := rfl
@[simp] theorem State.setOvr_eprev : (s.setOvr).eprev = s.eprev := rfl
@[simp] theorem State.setOvr_mode : (s.setOvr).mode = s.mode := rfl
@[simp] theorem State.setOvr_mvalid : (s.setOvr).mvalid = s.mvalid := rfl
@[simp] theorem State.setOvr_result : (s.setOvr).result = s.result := rfl
@[simp] theorem State.setOvr_svc : (s.setOvr).svc = s.svc := rfl
@[simp] theorem State.setOvr_ovr : (s.setOvr).ovr = true := rfl
@[simp] theorem State.setOvr_radioRst : (s.setOvr).radioRst = s.radioRst := rfl
@[simp] theorem State.setOvr_pollen : (s.setOvr).pollen = s.pollen := rfl
@[simp] theorem State.setOvr_rdata : (s.setOvr).rdata = s.rdata := rfl
@[simp] theorem State.setOvr_lastFlags : (s.setOvr).lastFlags = s.lastFlags := rfl
@[simp] theorem State.setOvr_freq : (s.setOvr).freq = s.freq := rfl
@[simp] theorem State.setOvr_tune : (s.setOvr).tune = s.tune := rfl
@[simp] theorem State.setOvr_buf : (s.setOvr).buf = s.buf := rfl
@[simp] theorem State.setOvr_csN : (s.setOvr).csN = s.csN := rfl
@[simp] theorem State.setOvr_trace : (s.setOvr).trace = s.trace := rfl
@[simp] theorem State.setOvr_cfg : (s.setOvr).cfg = s.cfg := rfl
@[simp] theorem State.setOvr_inputs : (s.setOvr).inputs = s.inputs := rfl
@[simp] theorem State.setOvr_radio : (s.setOvr).radio = s.radio := rfl
@[simp] theorem State.setOvr_draws : (s.setOvr).draws = s.draws := rfl
@[simp] theorem State.setOvr_busData : (s.setOvr).busData = s.busData := rfl
@[simp] theorem State.setOvr_edgeHeld : (s.setOvr).edgeHeld = s.edgeHeld := rfl

/-! ### writeBuf -/

@[simp] theorem State.writeBuf_busy (a : Nat) (l : List Byte) : (s.writeBuf a l).busy = s.busy := rfl
@[simp] theorem State.writeBuf_cmdl (a : Nat) (l : List Byte) : (s.writeBuf a l).cmdl = s.cmdl := rfl
@[simp] theorem State.writeBuf_txc (a : Nat) (l : List Byte) : (s.writeBuf a l).txc = s.txc := rfl
@[simp] theorem State.writeBuf_rxc (a : Nat) (l : List Byte) : (s.writeBuf a l).rxc = s.rxc := rfl
@[simp] theorem State.writeBuf_crcd (a : Nat) (l : List Byte) : (s.writeBuf a l).crcd = s.crcd := rfl
@[simp] theorem State.writeBuf_irqp (a : Nat) (l : List Byte) : (s.writeBuf a l).irqp = s.irqp := rfl
@[simp] theorem State.writeBuf_sync (a : Nat) (l : List Byte) : (s.writeBuf a l).sync = s.sync := rfl
@[simp] theorem State.writeBuf_eprev (a : Nat) (l : List Byte) : (s.writeBuf a l).eprev = s.eprev := rfl
@[simp] theorem State.writeBuf_mode (a : Nat) (l : List Byte) : (s.writeBuf a l).mode = s.mode := rfl
@[simp] theorem State.writeBuf_mvalid (a : Nat) (l : List Byte) : (s.writeBuf a l).mvalid = s.mvalid := rfl
@[simp] theorem State.writeBuf_result (a : Nat) (l : List Byte) : (s.writeBuf a l).result = s.result := rfl
@[simp] theorem State.writeBuf_svc (a : Nat) (l : List Byte) : (s.writeBuf a l).svc = s.svc := rfl
@[simp] theorem State.writeBuf_ovr (a : Nat) (l : List Byte) : (s.writeBuf a l).ovr = s.ovr := rfl
@[simp] theorem State.writeBuf_radioRst (a : Nat) (l : List Byte) : (s.writeBuf a l).radioRst = s.radioRst := rfl
@[simp] theorem State.writeBuf_pollen (a : Nat) (l : List Byte) : (s.writeBuf a l).pollen = s.pollen := rfl
@[simp] theorem State.writeBuf_rdata (a : Nat) (l : List Byte) : (s.writeBuf a l).rdata = s.rdata := rfl
@[simp] theorem State.writeBuf_lastFlags (a : Nat) (l : List Byte) : (s.writeBuf a l).lastFlags = s.lastFlags := rfl
@[simp] theorem State.writeBuf_freq (a : Nat) (l : List Byte) : (s.writeBuf a l).freq = s.freq := rfl
@[simp] theorem State.writeBuf_tune (a : Nat) (l : List Byte) : (s.writeBuf a l).tune = s.tune := rfl
@[simp] theorem State.writeBuf_buf (a : Nat) (l : List Byte) : (s.writeBuf a l).buf = Memory.writeBytes s.buf a l := rfl
@[simp] theorem State.writeBuf_csN (a : Nat) (l : List Byte) : (s.writeBuf a l).csN = s.csN := rfl
@[simp] theorem State.writeBuf_trace (a : Nat) (l : List Byte) : (s.writeBuf a l).trace = s.trace := rfl
@[simp] theorem State.writeBuf_cfg (a : Nat) (l : List Byte) : (s.writeBuf a l).cfg = s.cfg := rfl
@[simp] theorem State.writeBuf_inputs (a : Nat) (l : List Byte) : (s.writeBuf a l).inputs = s.inputs := rfl
@[simp] theorem State.writeBuf_radio (a : Nat) (l : List Byte) : (s.writeBuf a l).radio = s.radio := rfl
@[simp] theorem State.writeBuf_draws (a : Nat) (l : List Byte) : (s.writeBuf a l).draws = s.draws := rfl
@[simp] theorem State.writeBuf_busData (a : Nat) (l : List Byte) : (s.writeBuf a l).busData = s.busData := rfl
@[simp] theorem State.writeBuf_edgeHeld (a : Nat) (l : List Byte) : (s.writeBuf a l).edgeHeld = s.edgeHeld := rfl

/-! ### clearIrqp -/

@[simp] theorem State.clearIrqp_busy : (s.clearIrqp).busy = s.busy := rfl
@[simp] theorem State.clearIrqp_cmdl : (s.clearIrqp).cmdl = s.cmdl := rfl
@[simp] theorem State.clearIrqp_txc : (s.clearIrqp).txc = s.txc := rfl
@[simp] theorem State.clearIrqp_rxc : (s.clearIrqp).rxc = s.rxc := rfl
@[simp] theorem State.clearIrqp_crcd : (s.clearIrqp).crcd = s.crcd := rfl
@[simp] theorem State.clearIrqp_irqp : (s.clearIrqp).irqp = false := rfl
@[simp] theorem State.clearIrqp_sync : (s.clearIrqp).sync = s.sync := rfl
@[simp] theorem State.clearIrqp_eprev : (s.clearIrqp).eprev = s.eprev := rfl
@[simp] theorem State.clearIrqp_mode : (s.clearIrqp).mode = s.mode := rfl
@[simp] theorem State.clearIrqp_mvalid : (s.clearIrqp).mvalid = s.mvalid := rfl
@[simp] theorem State.clearIrqp_result : (s.clearIrqp).result = s.result := rfl
@[simp] theorem State.clearIrqp_svc : (s.clearIrqp).svc = s.svc := rfl
@[simp] theorem State.clearIrqp_ovr : (s.clearIrqp).ovr = s.ovr := rfl
@[simp] theorem State.clearIrqp_radioRst : (s.clearIrqp).radioRst = s.radioRst := rfl
@[simp] theorem State.clearIrqp_pollen : (s.clearIrqp).pollen = s.pollen := rfl
@[simp] theorem State.clearIrqp_rdata : (s.clearIrqp).rdata = s.rdata := rfl
@[simp] theorem State.clearIrqp_lastFlags : (s.clearIrqp).lastFlags = s.lastFlags := rfl
@[simp] theorem State.clearIrqp_freq : (s.clearIrqp).freq = s.freq := rfl
@[simp] theorem State.clearIrqp_tune : (s.clearIrqp).tune = s.tune := rfl
@[simp] theorem State.clearIrqp_buf : (s.clearIrqp).buf = s.buf := rfl
@[simp] theorem State.clearIrqp_csN : (s.clearIrqp).csN = s.csN := rfl
@[simp] theorem State.clearIrqp_trace : (s.clearIrqp).trace = s.trace := rfl
@[simp] theorem State.clearIrqp_cfg : (s.clearIrqp).cfg = s.cfg := rfl
@[simp] theorem State.clearIrqp_inputs : (s.clearIrqp).inputs = s.inputs := rfl
@[simp] theorem State.clearIrqp_radio : (s.clearIrqp).radio = s.radio := rfl
@[simp] theorem State.clearIrqp_draws : (s.clearIrqp).draws = s.draws := rfl
@[simp] theorem State.clearIrqp_busData : (s.clearIrqp).busData = s.busData := rfl
@[simp] theorem State.clearIrqp_edgeHeld : (s.clearIrqp).edgeHeld = s.edgeHeld := rfl

end Sys2Proof.Machine
end

