-- ==== Sys2Proof/Laws/Ops.lean ====
section
/-! SUPPORT. What each shared operation does, said once: cells (read after write, the canonical form), one
transaction, several writes, SERVICE's bus part, the schedule and the step. Cite these instead of
unfolding the operation. -/

namespace Sys2Proof.Machine

/-! ### Cells -/

@[simp] theorem Memory.read_nil (a : Nat) : Memory.read [] a = unlistedByte := rfl

/-- A canonical form is one within any wider bounds. -/
theorem Memory.wfWithin_mono {lo lo' hi : Nat} {m : Memory} (h : Memory.wfWithin lo hi m = true)
    (hl : lo' ≤ lo) : Memory.wfWithin lo' hi m = true := by
  cases m with
  | nil => rfl
  | cons c rest =>
    simp only [Memory.wfWithin, Bool.and_eq_true, decide_eq_true_eq] at h ⊢
    exact ⟨⟨⟨by omega, h.1.1.2⟩, h.1.2⟩, h.2⟩

/-- Below its lower bound a canonical memory lists nothing. -/
theorem Memory.read_below {lo hi : Nat} {m : Memory} (h : Memory.wfWithin lo hi m = true) {a : Nat}
    (ha : a < lo) : Memory.read m a = unlistedByte := by
  induction m generalizing lo with
  | nil => rfl
  | cons c rest ih =>
    obtain ⟨k, v⟩ := c
    simp only [Memory.wfWithin, Bool.and_eq_true, decide_eq_true_eq] at h
    rw [Memory.read, if_neg (by omega)]
    exact ih h.2 (by omega)

/-- A write keeps the canonical form. -/
theorem Memory.write_wfWithin {lo hi : Nat} {m : Memory} (h : Memory.wfWithin lo hi m = true) {a : Nat}
    (hl : lo ≤ a) (hh : a < hi) (b : Byte) : Memory.wfWithin lo hi (Memory.write m a b) = true := by
  induction m generalizing lo with
  | nil =>
    by_cases hb : b = unlistedByte <;> simp [Memory.write, Memory.wfWithin, hb, hl, hh]
  | cons c rest ih =>
    obtain ⟨k, v⟩ := c
    simp only [Memory.wfWithin, Bool.and_eq_true, decide_eq_true_eq, bne_iff_ne] at h
    obtain ⟨⟨⟨h1, h2⟩, h3⟩, h4⟩ := h
    rw [Memory.write]
    split
    · split
      · simp [Memory.wfWithin, h1, h2, h3, h4]
      · rename_i hlt hb
        have hk : a + 1 ≤ k := hlt
        simp [Memory.wfWithin, hl, hh, hb, hk, h2, h3, h4]
    · split
      · split
        · exact Memory.wfWithin_mono h4 (by omega)
        · rename_i heq hb
          subst heq
          simp [Memory.wfWithin, hl, hh, hb, h4]
      · simp only [Memory.wfWithin, Bool.and_eq_true, decide_eq_true_eq, bne_iff_ne]
        exact ⟨⟨⟨h1, h2⟩, h3⟩, ih h4 (by omega)⟩

/-- A read after a write: the byte written at its address, the old byte elsewhere. -/
theorem Memory.read_write {lo hi : Nat} {m : Memory} (h : Memory.wfWithin lo hi m = true) (a : Nat)
    (b : Byte) (x : Nat) :
    Memory.read (Memory.write m a b) x = if x = a then b else Memory.read m x := by
  induction m generalizing lo with
  | nil =>
    by_cases hb : b = unlistedByte
    · simp [Memory.write, hb]
    · by_cases hx : x = a
      · simp [Memory.write, Memory.read, hb, hx]
      · simp [Memory.write, Memory.read, hb, hx, Ne.symm hx]
  | cons c rest ih =>
    obtain ⟨k, v⟩ := c
    simp only [Memory.wfWithin, Bool.and_eq_true, decide_eq_true_eq, bne_iff_ne] at h
    obtain ⟨-, h4⟩ := h
    rw [Memory.write]
    split
    · rename_i hlt
      split
      · rename_i hb
        split
        · rename_i hx
          subst hx
          rw [Memory.read, if_neg (by omega), hb]
          exact Memory.read_below h4 (by omega)
        · rfl
      · rw [Memory.read]
        by_cases hx : x = a
        · simp [hx]
        · rw [if_neg (Ne.symm hx), if_neg hx]
    · split
      · rename_i heq
        subst heq
        split
        · rename_i hb
          split
          · rename_i hx
            subst hx
            rw [hb]
            exact Memory.read_below h4 (by omega)
          · rename_i hx
            rw [Memory.read, if_neg (Ne.symm hx)]
        · rw [Memory.read]
          by_cases hx : x = a
          · simp [hx]
          · rw [if_neg (Ne.symm hx), if_neg hx, Memory.read, if_neg (Ne.symm hx)]
      · rename_i hne
        rw [Memory.read, Memory.read]
        by_cases hx : k = x
        · rw [if_pos hx, if_pos hx, if_neg (fun e => hne (by omega))]
        · rw [if_neg hx, if_neg hx]
          exact ih h4

/-- Writing several bytes keeps the canonical form. -/
theorem Memory.writeBytes_wf {size : Nat} {m : Memory} (h : Memory.wf size m = true) (a : Nat)
    (l : List Byte) (hl : a + l.length ≤ size) : Memory.wf size (Memory.writeBytes m a l) = true := by
  induction l generalizing m a with
  | nil => exact h
  | cons b rest ih =>
    simp only [List.length_cons] at hl
    exact ih (Memory.write_wfWithin h (Nat.zero_le _) (by omega) b) (a + 1) (by omega)

/-- A read after writing several bytes that fit: the list's byte inside, the old byte outside. -/
theorem Memory.read_writeBytes {size : Nat} {m : Memory} (h : Memory.wf size m = true) (a : Nat)
    (l : List Byte) (hl : a + l.length ≤ size) (x : Nat) :
    Memory.read (Memory.writeBytes m a l) x =
      if a ≤ x then (l[x - a]?).getD (Memory.read m x) else Memory.read m x := by
  induction l generalizing m a with
  | nil => simp [Memory.writeBytes]
  | cons b rest ih =>
    simp only [List.length_cons] at hl
    have hw : Memory.wf size (Memory.write m a b) = true :=
      Memory.write_wfWithin h (Nat.zero_le _) (by omega) b
    rw [Memory.writeBytes, ih hw (a + 1) (by omega), Memory.read_write h]
    by_cases hx : x = a
    · subst hx
      simp
    · by_cases hax : a + 1 ≤ x
      · obtain ⟨d, rfl⟩ : ∃ d, x = a + 1 + d := ⟨x - (a + 1), by omega⟩
        have e1 : a + 1 + d - (a + 1) = d := by omega
        have e2 : a + 1 + d - a = d + 1 := by omega
        rw [if_pos hax, if_neg hx, if_pos (by omega), e1, e2, List.getElem?_cons_succ]
      · rw [if_neg hax, if_neg hx, if_neg (by omega)]

@[simp] theorem Memory.readBytes_length (m : Memory) (a n : Nat) :
    (Memory.readBytes m a n).length = n := by
  simp [Memory.readBytes]

@[simp] theorem State.burstData_length (s : State) (n : Nat) : (s.burstData n).length = n := by
  simp [State.burstData]

@[simp] theorem State.misoBytes_length (s : State) (n : Nat) : (s.misoBytes n).length = n := by
  simp [State.misoBytes]

@[simp] theorem State.misoBytes_one (s : State) : s.misoBytes 1 = [s.misoByte 0] := rfl

@[simp] theorem State.misoBytes_zero (s : State) : s.misoBytes 0 = [] := rfl

@[simp] theorem State.burstData_zero (s : State) : s.burstData 0 = [] := rfl

/-! ### Transactions -/

/-- A read transaction: one frame, its `ok`, its data bytes. -/
theorem State.memRead_eq (a : RegAddr) (n : Nat) (s : State) :
    s.memRead a n = (s.frame n (.rd a n (s.misoBytes n) s.answersOk), s.answersOk, s.misoBytes n) := rfl

/-- A write transaction: one frame and its `ok`. -/
theorem State.memWrite_eq (a : RegAddr) (v : List Byte) (s : State) :
    s.memWrite a v = (s.frame v.length (.wr a v s.answersOk), s.answersOk) := rfl

/-- Without XFER_CAN_FAIL every transaction answers `ok`. -/
theorem State.answersOk_of_cannot_fail {s : State} (h : s.cfg.xferCanFail = false) :
    s.answersOk = true := by
  simp [State.answersOk, h]

/-- What a frame leaves, as one record. -/
theorem State.frame_eq (n : Nat) (t : Txn) (s : State) :
    s.frame n t = { s with csN := true, trace := s.trace ++ [t], radio := s.radio.tail, draws := s.draws + n + 1 } :=
  rfl

/-- Several one-byte writes: nothing for an empty list; otherwise the first one's frame, and the rest only
if it completed. -/
theorem State.writeEach_cons (a : RegAddr) (b : Byte) (rest : List (RegAddr × Byte)) (s : State) :
    State.writeEach ((a, b) :: rest) s =
      if s.answersOk then State.writeEach rest (s.frame 1 (.wr a [b] true))
      else (s.frame 1 (.wr a [b] false), false) := by
  rw [State.writeEach, State.memWrite_eq]
  cases s.answersOk <;> rfl

@[simp] theorem State.writeEach_nil (s : State) : State.writeEach [] s = (s, true) := rfl

@[simp] theorem State.classify_eq (v : Byte) (s : State) :
    s.classify v = s.recordClass (classOf s.cfg v) := rfl

/-- SERVICE's bus part: a failed read, a failed write-back, or the classification. -/
theorem State.readAndClearFlags_eq (s : State) :
    s.readAndClearFlags =
      (let a := addrIrqFlags s.cfg
       let v := s.misoByte 0
       let u := (s.frame 1 (.rd a 1 [v] true)).setLastFlags v
       if s.answersOk then
         (if u.answersOk then ((u.frame 1 (.wr a [v] true)).classify v).complete
          else (u.frame 1 (.wr a [v] false)).noService.raise .xferFail)
       else (s.frame 1 (.rd a 1 [v] false)).noService.raise .xferFail) := by
  unfold State.readAndClearFlags
  rw [State.memRead_eq]
  cases h : s.answersOk with
  | false => simp
  | true =>
    simp only [State.misoBytes_one, List.headD_cons, State.memWrite_eq, if_true]
    cases h2 : (((s.frame 1 (.rd (addrIrqFlags s.cfg) 1 [s.misoByte 0] true)).setLastFlags
      (s.misoByte 0)).answersOk) <;> simp

/-! ### The tuning word -/

/-- The tuning word fits in 24 bits exactly below 1 024 000 000 Hz. -/
theorem tuningWord_lt_iff (f : Word) : tuningWord f < 2 ^ 24 ↔ f.toNat < 1024000000 := by
  simp only [tuningWord, Config.frfShift, Config.fxosc]
  omega

/-- The range check, as a bound on FREQ. -/
theorem freqOutOfRange_iff (f : Word) : freqOutOfRange f = true ↔ 1024000000 ≤ f.toNat := by
  have h := tuningWord_lt_iff f
  unfold freqOutOfRange Config.twWidth
  rw [decide_eq_true_iff]
  omega

/-! ### The step -/

/-- What a step can do: in a configuration that may run, the agent whose turn it is moves; otherwise the
configuration is refused. -/
theorem step_eq (s : State) :
    step s = if s.cfg.wf then agentStep s.nextInput s.popInput else .refused .refusedConfiguration := rfl

/-- A step that answers a next state ran in a configuration that may run. -/
theorem step_next {s t : State} (h : step s = .next t) :
    s.cfg.wf = true ∧ agentStep s.nextInput s.popInput = .next t := by
  rw [step_eq] at h
  split at h
  · exact ⟨‹_›, h⟩
  · cases h

/-- What follows in a step that goes on: the step answered a next state, and it followed. -/
theorem onNext_next {f : State → State} {o : Host.Outcome State Fault Refusal} {t : State}
    (h : onNext f o = .next t) : ∃ u, o = .next u ∧ t = f u := by
  cases o with
  | next u =>
    injection h with h
    exact ⟨u, rfl, h.symm⟩
  | fault r => cases h
  | refused r => cases h

/-- The sequencer's turn: nothing when idle; otherwise the decoded command, or RESULT = ILLEGAL, and then the
deferred edge. -/
theorem sequencerStep_next {s t : State} (h : sequencerStep s = .next t) :
    (s.busy = false ∧ t = s) ∨
    (s.busy = true ∧ ∃ i u, decode s.cmdl = .command i ∧ exec i s = .next u ∧ t = u.releaseEdge) ∨
    (s.busy = true ∧ ∃ c, decode s.cmdl = .illegal c ∧ t = (s.raise .illegal).releaseEdge) := by
  unfold sequencerStep at h
  split at h
  · rename_i hb
    obtain ⟨u, hu, rfl⟩ := onNext_next h
    unfold performLatched at hu
    split at hu
    · exact .inr (.inl ⟨hb, _, u, ‹_›, hu, rfl⟩)
    · rename_i hd
      injection hu with hu
      exact .inr (.inr ⟨hb, _, hd, by rw [← hu]; rfl⟩)
  · injection h with h
    exact .inl ⟨by simpa using ‹¬ s.busy = true›, h.symm⟩

/-- A host access that answers a next state was admitted, and is a read or a write. -/
theorem hostAccess_next {acc : BusAccess} {s t : State} (h : hostAccess acc s = .next t) :
    acc.admitted = true ∧
      ((acc.write = none ∧ t = s.hostRead acc.off) ∨ ∃ v, acc.write = some v ∧ t = s.hostWrite acc.off v) := by
  unfold hostAccess at h
  split at h
  · rename_i ha
    split at h
    · injection h with h
      exact ⟨ha, .inl ⟨‹_›, h.symm⟩⟩
    · injection h with h
      exact ⟨ha, .inr ⟨_, ‹_›, h.symm⟩⟩
  · cases h

/-- An edge beside the sequencer's turn: the turn, then IRQP set. -/
theorem coincidentEdge_next {o : Host.Outcome State Fault Refusal} {t : State}
    (h : coincidentEdge o = .next t) : ∃ u, o = .next u ∧ t = u.setIrqp := onNext_next h

/-- The moves of a step that answers a next state, one case per agent. -/
theorem step_cases {s t : State} (h : step s = .next t) :
    (s.nextInput = .sequencer ∧ sequencerStep s.popInput = .next t) ∨
    (s.nextInput = .sequencerWithEdge ∧ ∃ u, sequencerStep s.popInput = .next u ∧ t = u.setIrqp) ∨
    (∃ acc, s.nextInput = .host acc ∧ hostAccess acc s.popInput = .next t) ∨
    (s.nextInput = .edge ∧ t = s.popInput.setIrqp) ∨
    (s.nextInput = .edgeDuring ∧ t = s.popInput.deferEdge) ∨
    (∃ d, s.nextInput = .clock d ∧ t = s.popInput.clockSync d) ∨
    (s.nextInput = .blockReset ∧ t = s.popInput.blockReset) := by
  obtain ⟨-, h⟩ := step_next h
  cases hi : s.nextInput with
  | sequencer =>
    rw [hi] at h
    exact .inl ⟨rfl, h⟩
  | sequencerWithEdge =>
    rw [hi] at h
    exact .inr (.inl ⟨rfl, coincidentEdge_next h⟩)
  | host acc =>
    rw [hi] at h
    exact .inr (.inr (.inl ⟨acc, rfl, h⟩))
  | edge =>
    rw [hi] at h
    injection h with h
    exact .inr (.inr (.inr (.inl ⟨rfl, h.symm⟩)))
  | edgeDuring =>
    rw [hi] at h
    injection h with h
    exact .inr (.inr (.inr (.inr (.inl ⟨rfl, h.symm⟩))))
  | clock d =>
    rw [hi] at h
    injection h with h
    exact .inr (.inr (.inr (.inr (.inr (.inl ⟨d, rfl, h.symm⟩)))))
  | blockReset =>
    rw [hi] at h
    injection h with h
    exact .inr (.inr (.inr (.inr (.inr (.inr ⟨rfl, h.symm⟩)))))

/-- Scheduling a move and taking it again gives the state back. -/
@[simp] theorem State.popInput_schedule (i : Input) (s : State) : (s.schedule i).popInput = s := rfl

@[simp] theorem State.nextInput_schedule (i : Input) (s : State) : (s.schedule i).nextInput = i := rfl

/-- What a host write can do: nothing, OVR, or the register's own effect. -/
theorem State.hostWrite_cases (off : Nat) (v : Word) (s : State) :
    s.hostWrite off v = s ∨
    (s.busy = true ∧ (off = 0x000 ∨ off = 0x010 ∨ 0x100 ≤ off) ∧ s.hostWrite off v = s.setOvr) ∨
    (off = 0x000 ∧ s.busy = false ∧ s.hostWrite off v = s.latchCommand v) ∨
    (off = 0x008 ∧ s.hostWrite off v = s.writeCtrl v) ∨
    (off = 0x010 ∧ s.busy = false ∧ s.hostWrite off v = s.setFreq v) ∨
    (0x100 ≤ off ∧ s.busy = false ∧ s.hostWrite off v = s.writeBufWord ((off - 0x100) / 4) v) := by
  unfold State.hostWrite windowReg State.unlessBusy
  cases hb : s.busy <;> simp only [if_true, Bool.false_eq_true, if_false] <;>
    split_ifs <;> simp_all

end Sys2Proof.Machine
end

