-- ==== Sys2Proof/Laws/Exec.lean ====
section
/-! SUPPORT. The meanings of the commands as one record each, and what every command leaves alone: cite these
instead of unfolding a meaning. -/

namespace Sys2Proof.Machine

/-! ### Several writes -/

/-- What several one-byte writes can do: a number of frames, each a write of the list, all completed, or
all but the last. -/
theorem State.writeEach_spec (l : List (RegAddr × Byte)) (s : State) :
    ∃ evs : List Txn,
      (State.writeEach l s).1 = { s with
        csN := if l = [] then s.csN else true
        trace := s.trace ++ evs
        radio := s.radio.drop evs.length
        draws := s.draws + 2 * evs.length } ∧
      evs.length ≤ l.length ∧
      (∀ e ∈ evs, ∃ a b ok, (a, b) ∈ l ∧ e = .wr a [b] ok) ∧
      ((State.writeEach l s).2 = true → evs.length = l.length ∧ ∀ e ∈ evs, e.ok = true) ∧
      ((State.writeEach l s).2 = false → s.cfg.xferCanFail = true ∧
        ∃ front e, evs = front ++ [e] ∧ e.ok = false ∧ ∀ x ∈ front, x.ok = true) := by
  induction l generalizing s with
  | nil => exact ⟨[], by simp⟩
  | cons c rest ih =>
    obtain ⟨a, b⟩ := c
    rw [State.writeEach_cons]
    cases h : s.answersOk with
    | true =>
      simp only [if_true]
      obtain ⟨evs, h1, h2, h3, h4, h5⟩ := ih (s.frame 1 (.wr a [b] true))
      refine ⟨.wr a [b] true :: evs, ?_, ?_, ?_, ?_, ?_⟩
      · rw [h1]
        apply State.ext <;> simp
        omega
      · simpa using h2
      · intro e he
        rcases List.mem_cons.1 he with rfl | he
        · exact ⟨a, b, true, by simp, rfl⟩
        · obtain ⟨a', b', ok, hm, rfl⟩ := h3 e he
          exact ⟨a', b', ok, List.mem_cons_of_mem _ hm, rfl⟩
      · intro hh
        obtain ⟨x, y⟩ := h4 hh
        refine ⟨by simp [x], fun e he => ?_⟩
        rcases List.mem_cons.1 he with rfl | he
        · rfl
        · exact y e he
      · intro hh
        obtain ⟨hc, front, e, rfl, he, hf⟩ := h5 hh
        refine ⟨hc, .wr a [b] true :: front, e, rfl, he, fun x hx => ?_⟩
        rcases List.mem_cons.1 hx with rfl | hx
        · rfl
        · exact hf x hx
    | false =>
      refine ⟨[.wr a [b] false], ?_, by simp, by simp, by simp, fun _ => ⟨?_, [], _, rfl, rfl, by simp⟩⟩
      · apply State.ext <;> simp
      · by_contra hc
        rw [State.answersOk_of_cannot_fail (by simpa using hc)] at h
        cases h

/-! ### The meanings with a branch, as one next state -/

/-- CALCFREQ always answers a next state. -/
theorem exec_calcfreq_eq (s : State) :
    exec .calcfreq s =
      .next (if freqOutOfRange s.freq then s.raise .freqRange else s.latchTune.complete) := by
  simp only [exec, execCalcfreq]
  split <;> rfl

/-- SETFREQ always answers a next state. -/
theorem exec_setfreq_eq (s : State) :
    exec .setfreq s =
      .next (if freqOutOfRange s.freq then s.raise .freqRange
        else State.endTransfer (State.writeEach (tuneWrites s.cfg (tuneOf s.freq)) s.latchTune).2
          (State.writeEach (tuneWrites s.cfg (tuneOf s.freq)) s.latchTune).1) := by
  simp only [exec, execSetfreq]
  split <;> rfl

/-- SERVICE always answers a next state. -/
theorem exec_service_eq (s : State) :
    exec .service s =
      .next (if !s.irqp && !s.pollen then s.clearIrqp.noService.complete
        else s.clearIrqp.readAndClearFlags) := by
  show (if (!s.irqp && !s.clearIrqp.pollen) = true then _ else _) = _
  rw [State.clearIrqp_pollen]
  cases (!s.irqp && !s.pollen) <;> rfl

/-! ### What a command leaves alone -/

/-- The elements no command writes, whatever it does. -/
def State.SameBeside (s t : State) : Prop :=
  t.cmdl = s.cmdl ∧ t.sync = s.sync ∧ t.eprev = s.eprev ∧ t.radioRst = s.radioRst ∧ t.pollen = s.pollen ∧
    t.freq = s.freq ∧ t.cfg = s.cfg ∧ t.inputs = s.inputs ∧ t.busData = s.busData ∧
    t.edgeHeld = s.edgeHeld

/-- No command writes CMDL, SYNC, EPREV, RADIO_RST, POLLEN or FREQ, nor the model's own cfg, inputs,
busData and edgeHeld. -/
theorem exec_sameBeside {i : Instr} {s t : State} (h : exec i s = .next t) : s.SameBeside t := by
  cases i with
  | nop => cases h; simp [State.SameBeside]
  | rdreg a => cases h; simp [State.SameBeside]
  | wrreg a d => cases h; simp [State.SameBeside]
  | rdburst a n => cases h; simp [State.SameBeside]
  | wrburst a n => cases h; simp [State.SameBeside]
  | setmode m => cases h; simp [State.SameBeside]
  | calcfreq =>
    rw [exec_calcfreq_eq] at h
    cases h
    split <;> simp [State.SameBeside]
  | setfreq =>
    obtain ⟨evs, h1, -⟩ := State.writeEach_spec (tuneWrites s.cfg (tuneOf s.freq)) s.latchTune
    rw [exec_setfreq_eq] at h
    cases h
    split
    · simp [State.SameBeside]
    · simp [State.SameBeside, h1]
  | service =>
    rw [exec_service_eq] at h
    cases h
    split
    · simp [State.SameBeside]
    · rw [State.readAndClearFlags_eq]
      simp only []
      split
      · split <;> simp [State.SameBeside]
      · simp [State.SameBeside]
  | clrflags m => cases h; simp [State.SameBeside]

/-! ### What a command may write -/

/-- Each element beside RESULT that commands write: unchanged, or by one of the commands R30 names (WRBURST at
ADDR_OPMODE by R115, log 22). -/
def State.WrittenBy (i : Instr) (s t : State) : Prop :=
  (t.txc = s.txc ∨ i = .service ∨ ∃ m, i = .clrflags m ∧ m.getLsbD 0 = true) ∧
  (t.rxc = s.rxc ∨ i = .service ∨ ∃ m, i = .clrflags m ∧ m.getLsbD 1 = true) ∧
  (t.crcd = s.crcd ∨ i = .service ∨ ∃ m, i = .clrflags m ∧ m.getLsbD 2 = true) ∧
  (t.ovr = s.ovr ∨ ∃ m, i = .clrflags m ∧ m.getLsbD 3 = true) ∧
  (t.irqp = s.irqp ∨ i = .service) ∧
  (t.svc = s.svc ∨ i = .service) ∧
  (t.lastFlags = s.lastFlags ∨ i = .service) ∧
  (t.mode = s.mode ∨ i = .setmode t.mode) ∧
  (t.mvalid = s.mvalid ∨ (∃ m, i = .setmode m) ∨ (∃ d, i = .wrreg (addrOpMode s.cfg) d) ∨
    ∃ n, 1 ≤ n.toNat ∧ i = .wrburst (addrOpMode s.cfg) n) ∧
  (t.rdata = s.rdata ∨ ∃ a, i = .rdreg a) ∧
  (t.tune = s.tune ∨ i = .calcfreq ∨ i = .setfreq) ∧
  (t.buf = s.buf ∨ ∃ a n, i = .rdburst a n) ∧
  ((t.csN = s.csN ∧ t.trace = s.trace) ∨ (i ≠ .nop ∧ i ≠ .calcfreq ∧ ∀ m, i ≠ .clrflags m))

/-- Every command ends with BUSY = 0 and writes no element but its own. -/
theorem exec_writtenBy {i : Instr} {s t : State} (h : exec i s = .next t) :
    t.busy = false ∧ s.WrittenBy i t := by
  cases i with
  | nop => cases h; simp [State.WrittenBy]
  | rdreg a => cases h; simp [State.WrittenBy]
  | wrreg a d =>
    cases h
    simp [State.WrittenBy]
    by_cases ha : a = addrOpMode s.cfg <;> simp [ha]
  | rdburst a n => cases h; simp [State.WrittenBy]
  | wrburst a n =>
    cases h
    simp [State.WrittenBy]
    by_cases ha : a = addrOpMode s.cfg <;> by_cases hn : 1 ≤ n.toNat <;> simp_all
  | setmode m =>
    cases h
    simp [State.WrittenBy]
    cases s.answersOk <;> simp
  | calcfreq =>
    rw [exec_calcfreq_eq] at h
    cases h
    split <;> simp [State.WrittenBy]
  | setfreq =>
    obtain ⟨evs, h1, -⟩ := State.writeEach_spec (tuneWrites s.cfg (tuneOf s.freq)) s.latchTune
    rw [exec_setfreq_eq] at h
    cases h
    split
    · simp [State.WrittenBy]
    · simp [State.WrittenBy, h1]
  | service =>
    rw [exec_service_eq] at h
    cases h
    split
    · simp [State.WrittenBy]
    · rw [State.readAndClearFlags_eq]
      simp only []
      split
      · split <;> simp [State.WrittenBy]
      · simp [State.WrittenBy]
  | clrflags m =>
    cases h
    simp only [State.WrittenBy, State.complete_busy, true_and]
    cases h0 : m.getLsbD 0 <;> cases h1 : m.getLsbD 1 <;> cases h2 : m.getLsbD 2 <;> cases h3 : m.getLsbD 3 <;>
      simp_all

/-! ### IRQP and the deferred edge (R78, R182) -/

/-- The state with other values of IRQP and of the deferred edge. -/
def State.withEdges (p e : Bool) (s : State) : State := { s with irqp := p, edgeHeld := e }

/-- Several writes read neither. -/
theorem State.writeEach_withEdges (l : List (RegAddr × Byte)) (s : State) (p e : Bool) :
    State.writeEach l (s.withEdges p e) = ((State.writeEach l s).1.withEdges p e, (State.writeEach l s).2) := by
  induction l generalizing s with
  | nil => rfl
  | cons c rest ih =>
    obtain ⟨x, y⟩ := c
    rw [State.writeEach_cons, State.writeEach_cons, show (s.withEdges p e).answersOk = s.answersOk from rfl]
    cases s.answersOk with
    | false => rfl
    | true => exact ih (s.frame 1 (.wr x [y] true))

/-- Nor does the end of a command. -/
theorem State.endTransfer_withEdges (ok : Bool) (s : State) (p e : Bool) :
    State.endTransfer ok (s.withEdges p e) = (State.endTransfer ok s).withEdges p e := by cases ok <;> rfl

/-- Nor does recording a class. -/
theorem State.recordClass_withEdges (c : SvcClass) (s : State) (p e : Bool) :
    (s.withEdges p e).recordClass c = (s.recordClass c).withEdges p e := by cases c <;> rfl

/-- Nor does SERVICE's bus part. -/
theorem State.readAndClearFlags_withEdges (s : State) (p e : Bool) :
    (s.withEdges p e).readAndClearFlags = s.readAndClearFlags.withEdges p e := by
  rw [State.readAndClearFlags_eq, State.readAndClearFlags_eq,
    show (s.withEdges p e).answersOk = s.answersOk from rfl]
  cases s.answersOk with
  | false => rfl
  | true =>
    simp only [if_true]
    obtain ⟨u, hu⟩ : ∃ u, u = State.setLastFlags (s.misoByte 0)
      (State.frame 1 (.rd (addrIrqFlags s.cfg) 1 [s.misoByte 0] true) s) := ⟨_, rfl⟩
    have hb : State.setLastFlags ((s.withEdges p e).misoByte 0) (State.frame 1
        (.rd (addrIrqFlags (s.withEdges p e).cfg) 1 [(s.withEdges p e).misoByte 0] true) (s.withEdges p e)) =
        u.withEdges p e := by rw [hu]; rfl
    rw [hb, ← hu, show (u.withEdges p e).answersOk = u.answersOk from rfl]
    cases u.answersOk with
    | false => rfl
    | true =>
      simp only [if_true]
      exact congrArg State.complete (State.recordClass_withEdges (classOf u.cfg (s.misoByte 0))
        (u.frame 1 (.wr (addrIrqFlags s.cfg) [s.misoByte 0] true)) p e)

/-- SERVICE's bus part leaves IRQP alone. -/
theorem State.readAndClearFlags_irqp (s : State) : s.readAndClearFlags.irqp = s.irqp := by
  have k := congrArg State.irqp (State.readAndClearFlags_withEdges s s.irqp s.edgeHeld)
  exact k

/-- No command but SERVICE reads or writes IRQP, and none a deferred edge. -/
theorem exec_withEdges {i : Instr} {s t : State} (p e : Bool) (hi : i ≠ .service) (h : exec i s = .next t) :
    exec i (s.withEdges p e) = .next (t.withEdges p e) := by
  have ha : (s.withEdges p e).answersOk = s.answersOk := rfl
  cases i with
  | nop => cases h; rfl
  | rdreg a =>
    cases h
    simp only [exec, execRdreg, State.memRead_eq, ha]
    cases s.answersOk <;> rfl
  | wrreg a d =>
    cases h
    simp only [exec, execWrreg, State.memWrite_eq, ha]
    cases s.answersOk <;> rfl
  | rdburst a n =>
    cases h
    simp only [exec, execRdburst, State.memRead_eq, ha]
    cases s.answersOk <;> rfl
  | wrburst a n =>
    cases h
    simp only [exec, execWrburst, State.memWrite_eq, ha]
    cases s.answersOk <;> rfl
  | setmode m =>
    cases h
    simp only [exec, execSetmode, State.memWrite_eq, ha]
    cases s.answersOk <;> rfl
  | calcfreq =>
    rw [exec_calcfreq_eq] at h ⊢
    cases h
    rw [show (s.withEdges p e).freq = s.freq from rfl]
    split <;> rfl
  | setfreq =>
    rw [exec_setfreq_eq] at h ⊢
    cases h
    rw [show (s.withEdges p e).freq = s.freq from rfl]
    split
    · rfl
    · rw [show State.writeEach (tuneWrites (s.withEdges p e).cfg (tuneOf s.freq)) (s.withEdges p e).latchTune = _
        from State.writeEach_withEdges (tuneWrites s.cfg (tuneOf s.freq)) s.latchTune p e]
      exact congrArg Host.Outcome.next (State.endTransfer_withEdges _ _ p e)
  | service => exact absurd rfl hi
  | clrflags m => cases h; rfl

/-- No command, SERVICE included, reads or writes a deferred edge. -/
theorem exec_withHeld {i : Instr} {s t : State} (e : Bool) (h : exec i s = .next t) :
    exec i (s.withEdges s.irqp e) = .next (t.withEdges t.irqp e) := by
  by_cases hi : i = .service
  · subst hi
    rw [exec_service_eq] at h ⊢
    cases h
    rw [show (s.withEdges s.irqp e).irqp = s.irqp from rfl, show (s.withEdges s.irqp e).pollen = s.pollen from rfl]
    split
    · rfl
    · have k := State.readAndClearFlags_withEdges s.clearIrqp false e
      refine congrArg Host.Outcome.next (k.trans ?_)
      rw [show s.clearIrqp.readAndClearFlags.irqp = false from State.readAndClearFlags_irqp s.clearIrqp]
  · rw [((exec_writtenBy h).2.2.2.2.2.1).resolve_right hi]
    exact exec_withEdges s.irqp e hi h

end Sys2Proof.Machine
end

