-- ==== Sys2Proof/Laws/Decode.lean ====
section
/-! SUPPORT. The fields of a packed word, and decoding by the opcode: cite these instead of unfolding
`decode`, `packWord` or a field. -/

namespace Sys2Proof

/-! ### The fields of a packed word (R90) -/

variable (o : BitVec 4) (m : BitVec 2) (a : RegAddr) (l d : Byte)

@[simp] theorem fieldOpc_packWord : fieldOpc (packWord o m a l d) = o := by
  ext i hi
  simp [fieldOpc, packWord]
  interval_cases i <;> simp

@[simp] theorem fieldMode_packWord : fieldMode (packWord o m a l d) = m := by
  ext i hi
  simp [fieldMode, packWord]
  interval_cases i <;> simp

@[simp] theorem fieldAddr_packWord : fieldAddr (packWord o m a l d) = a := by
  ext i hi
  simp [fieldAddr, packWord]
  interval_cases i <;> simp

@[simp] theorem fieldLen_packWord : fieldLen (packWord o m a l d) = l := by
  ext i hi
  simp [fieldLen, packWord]
  interval_cases i <;> simp

@[simp] theorem fieldData_packWord : fieldData (packWord o m a l d) = d := by
  ext i hi
  simp [fieldData, packWord]
  interval_cases i <;> simp

@[simp] theorem fieldMask_packWord : fieldMask (packWord o m a l d) = d.extractLsb' 0 4 := by
  ext i hi
  simp [fieldMask, packWord]
  interval_cases i <;> simp

@[simp] theorem modeOfSelector_modeSelector (m : OpMode) : modeOfSelector (modeSelector m) = m := by
  cases m <;> rfl

/-! ### Rows of the opcode map (R95) -/

/-- A row whose pattern is only its opcode is selected by that opcode with the row's other bits zero. -/
theorem opcode_and_zeros_iff (w z : Word) (p : BitVec 4) (hz : z &&& 0xF0000000#32 = 0#32) :
    w &&& (0xF0000000#32 ||| z) = p.setWidth 32 <<< 28 ↔ fieldOpc w = p ∧ w &&& z = 0#32 := by
  have hi : ∀ j, j < 28 → (0xF0000000#32).getLsbD j = false := by decide
  have hz' : ∀ j, 28 ≤ j → j < 32 → z.getLsbD j = false := by
    intro j h1 h2
    have h := congrArg (fun x => x.getLsbD j) hz
    have hm : (0xF0000000#32).getLsbD j = true := by interval_cases j <;> rfl
    simpa [hm] using h
  constructor
  · intro h
    constructor
    · ext i hi4
      have h' := congrArg (fun x => x.getLsbD (28 + i)) h
      have hm : (0xF0000000#32).getLsbD (28 + i) = true := by interval_cases i <;> rfl
      simp only [BitVec.getLsbD_and, BitVec.getLsbD_or, hm, Bool.true_or, Bool.and_true] at h'
      simp only [fieldOpc, BitVec.getElem_extractLsb', h', BitVec.getLsbD_shiftLeft, BitVec.getLsbD_setWidth]
      have h32 : i < 32 := by omega
      have h32' : 28 + i < 32 := by omega
      simp [hi4, h32, h32']
    · apply BitVec.eq_of_getLsbD_eq
      intro j hj
      by_cases h28 : j < 28
      · have h' := congrArg (fun x => x.getLsbD j) h
        simpa [hi j h28, h28] using h'
      · simp [hz' j (by omega) hj]
  · rintro ⟨h1, h2⟩
    rw [← h1]
    apply BitVec.eq_of_getLsbD_eq
    intro j hj
    by_cases h28 : j < 28
    · have h' := congrArg (fun x => x.getLsbD j) h2
      simp [hi j h28, h28] at h' ⊢
      exact h'
    · have hm : (0xF0000000#32).getLsbD j = true := by
        have : 28 ≤ j := by omega
        interval_cases j <;> rfl
      simp [hm, h28, hj, fieldOpc, show 28 + (j - 28) = j by omega, show j - 28 < 4 by omega]

/-- Decoding by the opcode: the row's unused bits are zero and the operands are assembled, or the word is
Illegal. -/
theorem decode_eq (w : Word) :
    decode w =
      if fieldOpc w = 0x0#4 ∧ w &&& 0x0FFFFFFF#32 = 0#32 then .command .nop
      else if fieldOpc w = 0x1#4 ∧ w &&& 0x0F80FFFF#32 = 0#32 then .command (.rdreg (fieldAddr w))
      else if fieldOpc w = 0x2#4 ∧ w &&& 0x0F80FF00#32 = 0#32 then
        .command (.wrreg (fieldAddr w) (fieldData w))
      else if fieldOpc w = 0x3#4 ∧ w &&& 0x0F8000FF#32 = 0#32 then
        .command (.rdburst (fieldAddr w) (fieldLen w))
      else if fieldOpc w = 0x4#4 ∧ w &&& 0x0F8000FF#32 = 0#32 then
        .command (.wrburst (fieldAddr w) (fieldLen w))
      else if fieldOpc w = 0x5#4 ∧ w &&& 0x0CFFFFFF#32 = 0#32 then
        .command (.setmode (modeOfSelector (fieldMode w)))
      else if fieldOpc w = 0x6#4 ∧ w &&& 0x0FFFFFFF#32 = 0#32 then .command .calcfreq
      else if fieldOpc w = 0x7#4 ∧ w &&& 0x0FFFFFFF#32 = 0#32 then .command .setfreq
      else if fieldOpc w = 0x8#4 ∧ w &&& 0x0FFFFFFF#32 = 0#32 then .command .service
      else if fieldOpc w = 0x9#4 ∧ w &&& 0x0FFFFFF0#32 = 0#32 then .command (.clrflags (fieldMask w))
      else .illegal (illegalCause w) := by
  have r0 : (w &&& 0xFFFFFFFF#32 = 0x00000000#32) = (fieldOpc w = 0x0#4 ∧ w &&& 0x0FFFFFFF#32 = 0#32) :=
    propext (opcode_and_zeros_iff w 0x0FFFFFFF#32 0x0#4 rfl)
  have r1 : (w &&& 0xFF80FFFF#32 = 0x10000000#32) = (fieldOpc w = 0x1#4 ∧ w &&& 0x0F80FFFF#32 = 0#32) :=
    propext (opcode_and_zeros_iff w 0x0F80FFFF#32 0x1#4 rfl)
  have r2 : (w &&& 0xFF80FF00#32 = 0x20000000#32) = (fieldOpc w = 0x2#4 ∧ w &&& 0x0F80FF00#32 = 0#32) :=
    propext (opcode_and_zeros_iff w 0x0F80FF00#32 0x2#4 rfl)
  have r3 : (w &&& 0xFF8000FF#32 = 0x30000000#32) = (fieldOpc w = 0x3#4 ∧ w &&& 0x0F8000FF#32 = 0#32) :=
    propext (opcode_and_zeros_iff w 0x0F8000FF#32 0x3#4 rfl)
  have r4 : (w &&& 0xFF8000FF#32 = 0x40000000#32) = (fieldOpc w = 0x4#4 ∧ w &&& 0x0F8000FF#32 = 0#32) :=
    propext (opcode_and_zeros_iff w 0x0F8000FF#32 0x4#4 rfl)
  have r5 : (w &&& 0xFCFFFFFF#32 = 0x50000000#32) = (fieldOpc w = 0x5#4 ∧ w &&& 0x0CFFFFFF#32 = 0#32) :=
    propext (opcode_and_zeros_iff w 0x0CFFFFFF#32 0x5#4 rfl)
  have r6 : (w &&& 0xFFFFFFFF#32 = 0x60000000#32) = (fieldOpc w = 0x6#4 ∧ w &&& 0x0FFFFFFF#32 = 0#32) :=
    propext (opcode_and_zeros_iff w 0x0FFFFFFF#32 0x6#4 rfl)
  have r7 : (w &&& 0xFFFFFFFF#32 = 0x70000000#32) = (fieldOpc w = 0x7#4 ∧ w &&& 0x0FFFFFFF#32 = 0#32) :=
    propext (opcode_and_zeros_iff w 0x0FFFFFFF#32 0x7#4 rfl)
  have r8 : (w &&& 0xFFFFFFFF#32 = 0x80000000#32) = (fieldOpc w = 0x8#4 ∧ w &&& 0x0FFFFFFF#32 = 0#32) :=
    propext (opcode_and_zeros_iff w 0x0FFFFFFF#32 0x8#4 rfl)
  have r9 : (w &&& 0xFFFFFFF0#32 = 0x90000000#32) = (fieldOpc w = 0x9#4 ∧ w &&& 0x0FFFFFF0#32 = 0#32) :=
    propext (opcode_and_zeros_iff w 0x0FFFFFF0#32 0x9#4 rfl)
  have next : ∀ (r : OpRow) (rs : List OpRow),
      ((r :: rs).find? (fun r => r.selects w)).elim (Decoded.illegal (illegalCause w))
        (fun r => .command (r.build w)) =
      if w &&& r.mask = r.pattern then .command (r.build w)
      else (rs.find? (fun r => r.selects w)).elim (.illegal (illegalCause w))
        (fun r => .command (r.build w)) := by
    intro r rs
    by_cases h : w &&& r.mask = r.pattern
    · simp [OpRow.selects, h]
    · rw [List.find?_cons_of_neg (by simp [OpRow.selects, h]), if_neg h]
  have start : decode w = (opcodeMap.find? (fun r => r.selects w)).elim (.illegal (illegalCause w))
      (fun r => .command (r.build w)) := by
    unfold decode
    split <;> rename_i h <;> rw [h] <;> rfl
  rw [start]
  unfold opcodeMap
  iterate 10 rw [next]
  simp only [r0, r1, r2, r3, r4, r5, r6, r7, r8, r9]
  rfl

end Sys2Proof
end

