-- ==== Sys2Proof/Laws/Window.lean ====
section
/-! SUPPORT. The host window: the bits of STATUS and CTRL, which register an offset names, what a read or a
write of the host does, and the last write to a radio register in a trace. -/

namespace Sys2Proof.Machine

/-! ### Words of one-bit fields (R33, R34) -/

/-- A one-bit field has its bit at its place and zeros elsewhere. -/
@[simp] theorem flagBit_getLsbD (b : Bool) (k j : Nat) :
    (flagBit b k).getLsbD j = (b && (decide (j = k) && decide (k < 32))) := by
  cases b
  · simp [flagBit]
  · simp only [flagBit, if_true, BitVec.getLsbD_shiftLeft, BitVec.getLsbD_one, Bool.true_and]
    by_cases h : j = k
    · subst h
      simp
    · by_cases h2 : j < k
      · simp [h, h2]
      · simp [h]
        omega

@[simp] theorem flagBit_getElem (b : Bool) (k j : Nat) (h : j < 32) :
    (flagBit b k)[j] = (b && (decide (j = k) && decide (k < 32))) := by
  rw [← BitVec.getLsbD_eq_getElem, flagBit_getLsbD]

/-! ### Which register an offset names (R31) -/

/-- Offsets between the last register and BUF are reserved. -/
theorem windowReg_reserved {off : Nat} (h1 : 0x01C ≤ off) (h2 : off < 0x100) :
    windowReg off = .reserved := by
  unfold windowReg
  iterate 7 rw [if_neg (by omega)]
  rw [if_pos h2]

/-- Offsets from 0x100 on are BUF words. -/
theorem windowReg_bufWord {off : Nat} (h : 0x100 ≤ off) : windowReg off = .bufWord ((off - 0x100) / 4) := by
  unfold windowReg
  iterate 8 rw [if_neg (by omega)]

/-! ### Addresses of the host (R31, R256) -/

/-- An access stands at the one address that names it. -/
theorem busAccessAt_address (p : Params) (acc : BusAccess) :
    busAccessAt p acc.width (acc.address p) acc.write = some acc := by
  simp [busAccessAt, BusAccess.address]

/-! ### Steps of the host (R70) -/

/-- An admitted read of the host: the window's value, and nothing else of the block. -/
theorem step_read {s : State} {off : Nat} (hw : s.cfg.wf = true) (hn : s.nextInput = .host ⟨32, off, none⟩)
    (h4 : off % 4 = 0) (hl : off < 0x200) : step s = .next (s.popInput.hostRead off) := by
  rw [step_eq, if_pos hw, hn]
  simp [agentStep, hostAccess, BusAccess.admitted, Config.windowSize, h4, hl]

/-- An admitted write of the host. -/
theorem step_write {s : State} {off : Nat} {v : Word} (hw : s.cfg.wf = true)
    (hn : s.nextInput = .host ⟨32, off, some v⟩) (h4 : off % 4 = 0) (hl : off < 0x200) :
    step s = .next (s.popInput.hostWrite off v) := by
  rw [step_eq, if_pos hw, hn]
  simp [agentStep, hostAccess, BusAccess.admitted, Config.windowSize, h4, hl]

/-- A host write never touches what only the sequencer, the synchronizer and reset write. -/
theorem State.hostWrite_keeps (off : Nat) (v : Word) (s : State) :
    (s.hostWrite off v).txc = s.txc ∧ (s.hostWrite off v).rxc = s.rxc ∧ (s.hostWrite off v).crcd = s.crcd ∧
      (s.hostWrite off v).irqp = s.irqp ∧ (s.hostWrite off v).sync = s.sync ∧
      (s.hostWrite off v).mode = s.mode ∧ (s.hostWrite off v).mvalid = s.mvalid ∧
      (s.hostWrite off v).result = s.result ∧ (s.hostWrite off v).csN = s.csN ∧
      (s.hostWrite off v).trace = s.trace ∧ (s.hostWrite off v).cfg = s.cfg := by
  rcases State.hostWrite_cases off v s with h | ⟨-, -, h⟩ | ⟨-, -, h⟩ | ⟨-, h⟩ | ⟨-, -, h⟩ | ⟨-, -, h⟩ <;>
    rw [h] <;> simp

/-! ### The last write in a trace -/

/-- One more transaction: it is the last write if it writes there. -/
theorem lastWriteTo_append_one (a : RegAddr) (tr : List Txn) (e : Txn) :
    lastWriteTo a (tr ++ [e]) = if e.writesTo a then some e else lastWriteTo a tr := by
  simp only [lastWriteTo, List.filter_append, List.filter_cons, List.filter_nil]
  split <;> simp

/-- Transactions that do not write there do not count. -/
theorem lastWriteTo_append_of_none (a : RegAddr) (tr evs : List Txn)
    (h : ∀ e ∈ evs, e.writesTo a = false) : lastWriteTo a (tr ++ evs) = lastWriteTo a tr := by
  have hf : evs.filter (Txn.writesTo a) = [] := by
    rw [List.filter_eq_nil_iff]
    intro e he
    rw [h e he]
    simp
  rw [lastWriteTo, List.filter_append, hf, List.append_nil, lastWriteTo]

end Sys2Proof.Machine
end

