-- ==== Sys2Proof/Laws/HostProg.lean ====
section
/-! SUPPORT. Host programs: what the polls of WAITIDLE do, the lanes FILL writes (R99), and what an exclusive section
protects (R212). -/

namespace Sys2Proof.Machine

/-! ### One move, and one access -/

/-- One move, and then the others. -/
theorem play_cons_of_next {i : Input} {rest : List Input} {s t : State} (h : step (s.schedule i) = .next t) :
    play (i :: rest) s = play rest t := by
  rw [play, h]

/-- A read of the host in a configuration that may run. -/
theorem step_busRead {s : State} {off : Nat} (hw : s.cfg.wf = true) (h4 : off % 4 = 0) (hl : off < 0x200) :
    step (s.schedule (busRead off)) = .next (s.hostRead off) :=
  step_read (s := s.schedule (busRead off)) hw rfl h4 hl

/-- The sequencer's turn, whatever the schedule of the state is. -/
theorem step_sequencer {s : State} (hw : s.cfg.wf = true) :
    step (s.schedule .sequencer) = sequencerStep s := by
  rw [step_eq, if_pos (show (s.schedule .sequencer).cfg.wf = true from hw)]
  rfl

/-- Every command answers a next state. -/
theorem exec_answers (i : Instr) (s : State) : ∃ t, exec i s = .next t := by
  cases i with
  | calcfreq => exact ⟨_, exec_calcfreq_eq s⟩
  | setfreq => exact ⟨_, exec_setfreq_eq s⟩
  | service => exact ⟨_, exec_service_eq s⟩
  | nop => exact ⟨_, rfl⟩
  | rdreg a => exact ⟨_, rfl⟩
  | wrreg a d => exact ⟨_, rfl⟩
  | rdburst a n => exact ⟨_, rfl⟩
  | wrburst a n => exact ⟨_, rfl⟩
  | setmode m => exact ⟨_, rfl⟩
  | clrflags m => exact ⟨_, rfl⟩

/-- After the sequencer's turn the block is idle, and the configuration is as before. -/
theorem sequencerStep_idle (s : State) :
    ∃ t, sequencerStep s = .next t ∧ t.busy = false ∧ t.cfg = s.cfg := by
  cases hb : s.busy with
  | false => exact ⟨s, by rw [sequencerStep, hb]; rfl, hb, rfl⟩
  | true =>
    rw [sequencerStep, hb, if_pos rfl, performLatched]
    cases decode s.cmdl with
    | command i =>
      obtain ⟨t, ht⟩ := exec_answers i s
      have hc := exec_sameBeside ht
      exact ⟨t.releaseEdge, by simp only [ht, onNext], (exec_writtenBy ht).1, hc.2.2.2.2.2.2.1⟩
    | illegal c => exact ⟨_, rfl, rfl, rfl⟩

/-- What a read hands to the host program. -/
@[simp] theorem State.hostRead_readData (off : Nat) (s : State) :
    (s.hostRead off).readData = s.readValue (windowReg off) := rfl

/-- Bit 0 of a STATUS read is BUSY, whatever BUSY is (R33, R49). -/
theorem statusBusy_read (s : State) : statusBusy (s.hostRead 0x004).readData = s.busy := by
  rw [State.hostRead_readData, show windowReg 0x004 = .status from rfl, State.readValue]
  cases hb : s.busy <;>
    simp [statusBusy, State.idleValue, State.busyValue, State.busyStatus, State.statusWord, statusExactMask, hb]

/-! ### WAITIDLE -/

/-- WAITIDLE ends only on a poll that shows BUSY = 0. -/
theorem pollIdle_shows_idle {moves rest : List (List Input)} {s t : State}
    (h : pollIdle moves s = some (rest, t)) : statusBusy t.readData = false := by
  induction moves generalizing s with
  | nil =>
    rw [pollIdle] at h
    split at h
    · split at h
      · cases h
      · cases h
        exact eq_false_of_ne_true ‹_›
    · cases h
  | cons m more ih =>
    rw [pollIdle] at h
    split at h
    · split at h
      · exact ih h
      · cases h
        exact eq_false_of_ne_true ‹_›
    · cases h

/-- With no other moves given, WAITIDLE is the sequencer's turn and one poll, and it ends. -/
theorem pollIdle_nil {s t : State} (hw : s.cfg.wf = true) (h : sequencerStep s = .next t) :
    pollIdle [] s = some ([], t.hostRead 0x004) := by
  obtain ⟨u, hu, hb, hc⟩ := sequencerStep_idle s
  rw [h] at hu
  cases hu
  have h1 : playAccess [] (busRead 0x004) s = some (t.hostRead 0x004) := by
    rw [playAccess, movesBefore, List.headD_nil, List.singleton_append,
      play_cons_of_next (by rw [step_sequencer hw, h]),
      play_cons_of_next (step_busRead (by rw [hc]; exact hw) (by decide) (by decide)), play]
  rw [pollIdle, h1]
  simp only [statusBusy_read, hb, Bool.false_eq_true, if_false]

/-- A poll while the command is pending, with no move before it: the block is as before, and WAITIDLE goes on. -/
theorem pollIdle_cons_busy {rest : List (List Input)} {s : State} (hw : s.cfg.wf = true) (hb : s.busy = true) :
    pollIdle ([] :: rest) s = pollIdle rest (s.hostRead 0x004) := by
  have h1 : playAccess [[]] (busRead 0x004) s = some (s.hostRead 0x004) := by
    rw [playAccess, movesBefore, List.headD_cons, List.nil_append,
      play_cons_of_next (step_busRead hw (by decide) (by decide)), play]
  rw [pollIdle, h1]
  simp only [statusBusy_read, hb, if_true]

/-! ### One program after another -/

/-- A program that is followed by nothing more than an answer runs as it does alone. -/
theorem HostProg.run_bind_ret {α β : Type} {f : α → HostProg β} {a : α} {b : β} (hf : f a = .ret b)
    {m : HostProg α} {w : Surroundings} {s t : State} (h : m.run w s = some (a, t)) :
    (m.bind f).run w s = some (b, t) := by
  induction m generalizing w s with
  | ret x =>
    simp only [HostProg.run, Option.some.injEq, Prod.mk.injEq] at h
    obtain ⟨rfl, rfl⟩ := h
    rw [HostProg.bind, hf, HostProg.run]
  | hwr off v k ih =>
    simp only [HostProg.bind, HostProg.run] at h ⊢
    split at h
    · exact ih h
    · cases h
  | hrd off k ih =>
    simp only [HostProg.bind, HostProg.run] at h ⊢
    split at h
    · exact ih _ h
    · cases h
  | waitIdle k ih =>
    simp only [HostProg.bind, HostProg.run] at h ⊢
    split at h
    · exact ih _ h
    · cases h
  | wait n k ih =>
    simp only [HostProg.bind, HostProg.run] at h ⊢
    exact ih h
  | now k ih =>
    simp only [HostProg.bind, HostProg.run] at h ⊢
    split at h
    · cases h
    · exact ih _ h

/-- After an initialization that failed a launch makes no further access: the state stays as `boot` left it
(R214). -/
theorem launch_stops_after_failure {α : Type} {p : Params} {hp : HostParams} {pollen : Option Bool}
    {app : HostProg α} {w : Surroundings} {s t : State} {o : HostOutcome} (ho : o ≠ .initOk)
    (h : (boot p hp pollen).run w s = some (o, t)) :
    (launch p hp pollen app).run w s = some (.error o, t) :=
  HostProg.run_bind_ret (by simp only [afterInit, if_neg ho]) h

/-! ### FILL -/

/-- Replacing one lane replaces that byte of the word and no other. -/
theorem wordLanes_setLane (w : Word) (lane : Nat) (b : Byte) (h : lane < 4) :
    wordLanes (setLane w lane b) = (wordLanes w).set lane b := by
  have hl : lane = 0 ∨ lane = 1 ∨ lane = 2 ∨ lane = 3 := by omega
  rcases hl with rfl | rfl | rfl | rfl <;>
    (simp only [wordLanes, setLane, List.set_cons_zero, List.set_cons_succ, List.cons.injEq, and_true]
     refine ⟨?_, ?_, ?_, ?_⟩ <;>
       (apply BitVec.eq_of_getLsbD_eq
        intro i hi
        interval_cases i <;> simp))

/-- FILL's word for four bytes has them in its lanes, the first in the lowest (R38). -/
theorem wordLanes_setLanes_full (b0 b1 b2 b3 : Byte) :
    wordLanes (setLanes 0#32 0 [b0, b1, b2, b3]) = [b0, b1, b2, b3] := by
  simp only [setLanes]
  rw [wordLanes_setLane _ 3 _ (by decide), wordLanes_setLane _ 2 _ (by decide),
    wordLanes_setLane _ 1 _ (by decide), wordLanes_setLane _ 0 _ (by decide)]
  rfl

/-! ### Exclusive sections (R212) -/

/-- What no other agent than the host and reset touches: the latched command, FREQ, CTRL and the
configuration. -/
def State.SameForHost (s t : State) : Prop :=
  t.cmdl = s.cmdl ∧ t.freq = s.freq ∧ t.radioRst = s.radioRst ∧ t.pollen = s.pollen ∧ t.cfg = s.cfg

/-- The sequencer's turn leaves what the host wrote alone. -/
theorem sequencerStep_sameForHost {s t : State} (h : sequencerStep s = .next t) : s.SameForHost t := by
  rcases sequencerStep_next h with ⟨-, rfl⟩ | ⟨-, i, u, -, he, rfl⟩ | ⟨-, c, -, rfl⟩
  · exact ⟨rfl, rfl, rfl, rfl, rfl⟩
  · obtain ⟨h1, -, -, h4, h5, h6, h7, -⟩ := exec_sameBeside he
    exact ⟨h1, h6, h4, h5, h7⟩
  · exact ⟨rfl, rfl, rfl, rfl, rfl⟩

/-- A step that is neither the host's nor reset leaves what the host wrote alone. -/
theorem step_sameForHost {s t : State} (h : step s = .next t) (hh : isHostMove s.nextInput = false)
    (hr : s.nextInput ≠ .blockReset) : s.SameForHost t := by
  rcases step_cases h with ⟨-, hs⟩ | ⟨-, u, hs, rfl⟩ | ⟨acc, hn, -⟩ | ⟨-, rfl⟩ | ⟨-, rfl⟩ | ⟨d, -, rfl⟩ | ⟨hn, -⟩
  · have k := sequencerStep_sameForHost hs
    exact k
  · have k := sequencerStep_sameForHost hs
    exact k
  · rw [hn] at hh
    cases hh
  · exact ⟨rfl, rfl, rfl, rfl, rfl⟩
  · exact ⟨rfl, rfl, rfl, rfl, rfl⟩
  · exact ⟨rfl, rfl, rfl, rfl, rfl⟩
  · exact absurd hn hr

/-- Inside an exclusive section nothing that happens between two accesses of the caller touches what it wrote:
the command it latched is the one performed, at the FREQ it wrote. -/
theorem play_sameForHost {moves : List Input} {s t : State} (h : play moves s = some t)
    (hx : ∀ i ∈ moves, isHostMove i = false ∧ i ≠ .blockReset) : s.SameForHost t := by
  induction moves generalizing s with
  | nil =>
    cases h
    exact ⟨rfl, rfl, rfl, rfl, rfl⟩
  | cons i rest ih =>
    rw [play] at h
    split at h
    · rename_i u hu
      obtain ⟨a1, a2, a3, a4, a5⟩ := step_sameForHost hu (hx i (by simp)).1 (hx i (by simp)).2
      obtain ⟨b1, b2, b3, b4, b5⟩ := ih h (fun j hj => hx j (by simp [hj]))
      exact ⟨b1.trans a1, b2.trans a2, b3.trans a3, b4.trans a4, b5.trans a5⟩
    · cases h
    · cases h

end Sys2Proof.Machine
end

