-- ==== Sys2Proof/Laws/PerInstr.lean ====
section
/-! SUPPORT. One law per command, as syntax: the encoder's word carries the row's opcode and zeros in every
field the row does not use (R92, R95). -/

namespace Sys2Proof.Laws.EncodedFields

/-- The opcode of each command (R95). -/
def opcode : Instr → BitVec 4
  | .nop => 0x0#4
  | .rdreg _ => 0x1#4
  | .wrreg _ _ => 0x2#4
  | .rdburst _ _ => 0x3#4
  | .wrburst _ _ => 0x4#4
  | .setmode _ => 0x5#4
  | .calcfreq => 0x6#4
  | .setfreq => 0x7#4
  | .service => 0x8#4
  | .clrflags _ => 0x9#4

/-- The bits of a command's word outside OPC and the fields its row uses (R92, R95). -/
def unusedBits : Instr → Word
  | .nop => 0x0FFFFFFF#32
  | .rdreg _ => 0x0F80FFFF#32
  | .wrreg _ _ => 0x0F80FF00#32
  | .rdburst _ _ => 0x0F8000FF#32
  | .wrburst _ _ => 0x0F8000FF#32
  | .setmode _ => 0x0CFFFFFF#32
  | .calcfreq => 0x0FFFFFFF#32
  | .setfreq => 0x0FFFFFFF#32
  | .service => 0x0FFFFFFF#32
  | .clrflags _ => 0x0FFFFFF0#32

/-- The law: the opcode in its place, zeros in the unused fields. -/
def Statement (i : Instr) : Prop :=
  fieldOpc (encode i) = opcode i ∧ encode i &&& unusedBits i = 0#32

theorem nop : Statement .nop := ⟨by decide, by decide⟩

theorem rdreg (a : RegAddr) : Statement (.rdreg a) := by
  refine ⟨by simp [encode, opcode], ?_⟩
  ext i hi
  simp only [encode, unusedBits, packWord]
  interval_cases i <;> simp

theorem wrreg (a : RegAddr) (d : Byte) : Statement (.wrreg a d) := by
  refine ⟨by simp [encode, opcode], ?_⟩
  ext i hi
  simp only [encode, unusedBits, packWord]
  interval_cases i <;> simp

theorem rdburst (a : RegAddr) (n : Byte) : Statement (.rdburst a n) := by
  refine ⟨by simp [encode, opcode], ?_⟩
  ext i hi
  simp only [encode, unusedBits, packWord]
  interval_cases i <;> simp

theorem wrburst (a : RegAddr) (n : Byte) : Statement (.wrburst a n) := by
  refine ⟨by simp [encode, opcode], ?_⟩
  ext i hi
  simp only [encode, unusedBits, packWord]
  interval_cases i <;> simp

theorem setmode (m : OpMode) : Statement (.setmode m) := by
  cases m <;> exact ⟨by decide, by decide⟩

theorem calcfreq : Statement .calcfreq := ⟨by decide, by decide⟩

theorem setfreq : Statement .setfreq := ⟨by decide, by decide⟩

theorem service : Statement .service := ⟨by decide, by decide⟩

theorem clrflags (m : BitVec 4) : Statement (.clrflags m) := by
  refine ⟨by simp [encode, opcode], ?_⟩
  ext i hi
  simp only [encode, unusedBits, packWord]
  interval_cases i <;> simp

end Sys2Proof.Laws.EncodedFields
end

