-- ==== Sys2Proof/Laws/RefRadio.lean ====
section
/-! SUPPORT. Bursts at the reference radio's FIFO (R83): what a run of bytes written or read there does. -/

namespace Sys2Proof.Machine

/-- Advancing the pointer adds one, around at 256. -/
theorem RefRadio.fptr_advance (p : Params) (r : RefRadio) (h : Memory.wf 128 r.reg = true) :
    (r.advance p).fptr p = (r.fptr p + 1) % 256 := by
  simp only [RefRadio.fptr, RefRadio.advance]
  rw [Memory.read_write h]
  simp

/-- Advancing keeps the registers canonical. -/
theorem RefRadio.advance_reg_wf (p : Params) (r : RefRadio) (h : Memory.wf 128 r.reg = true)
    (hp : p.regs.fifoAddrPtr < 128) : Memory.wf 128 (r.advance p).reg = true :=
  Memory.write_wfWithin h (Nat.zero_le _) hp _

@[simp] theorem RefRadio.advance_fifo (p : Params) (r : RefRadio) : (r.advance p).fifo = r.fifo := rfl

/-- Bytes written at the FIFO that do not pass its end: they land in order from the pointer on, the pointer
moves past them, and both memories stay canonical. -/
theorem RefRadio.takeBytes_fifo (p : Params) (a : RegAddr) (ha : a.toNat = p.regs.fifo)
    (hp : p.regs.fifoAddrPtr < 128) (l : List Byte) (k : Nat) (r : RefRadio)
    (h1 : Memory.wf 128 r.reg = true) (h2 : Memory.wf 256 r.fifo = true)
    (h3 : r.fptr p + l.length < 256) :
    ∃ r', RefRadio.takeBytes p a k l r = r' ∧ Memory.wf 128 r'.reg = true ∧
      Memory.wf 256 r'.fifo = true ∧ r'.fptr p = r.fptr p + l.length ∧
      ∀ x, x < 256 → Memory.read r'.fifo x =
        if r.fptr p ≤ x then (l[x - r.fptr p]?).getD (Memory.read r.fifo x) else Memory.read r.fifo x := by
  induction l generalizing k r with
  | nil => exact ⟨r, rfl, h1, h2, by simp, by simp⟩
  | cons b rest ih =>
    simp only [List.length_cons] at h3
    obtain ⟨q, hq⟩ : ∃ q : RefRadio, q = { r with fifo := Memory.write r.fifo (r.fptr p) b } := ⟨_, rfl⟩
    have q1 : Memory.wf 128 q.reg = true := by rw [hq]; exact h1
    have q2 : Memory.wf 256 q.fifo = true := by
      rw [hq]
      exact Memory.write_wfWithin h2 (Nat.zero_le _) (by omega) _
    have q3 : q.fptr p = r.fptr p := by rw [hq]; rfl
    have q4 : ∀ x, Memory.read q.fifo x = if x = r.fptr p then b else Memory.read r.fifo x := by
      rw [hq]
      exact fun x => Memory.read_write h2 _ _ _
    have f1 : (q.advance p).fptr p = r.fptr p + 1 := by
      rw [RefRadio.fptr_advance p q q1, q3]
      omega
    obtain ⟨r', e, a1, a2, a3, a4⟩ := ih (k + 1) (q.advance p) (RefRadio.advance_reg_wf p q q1 hp) q2
      (by rw [f1]; omega)
    refine ⟨r', ?_, a1, a2, by rw [a3, f1]; simp; omega, fun x hx => ?_⟩
    · rw [← e, hq]
      simp only [RefRadio.takeBytes, RefRadio.takeByte, ha, if_true]
    · rw [a4 x hx, f1, RefRadio.advance_fifo, q4]
      by_cases h : x = r.fptr p
      · subst h
        simp
      · by_cases hax : r.fptr p + 1 ≤ x
        · obtain ⟨d, rfl⟩ : ∃ d, x = r.fptr p + 1 + d := ⟨x - (r.fptr p + 1), by omega⟩
          have e1 : r.fptr p + 1 + d - (r.fptr p + 1) = d := by omega
          have e2 : r.fptr p + 1 + d - r.fptr p = d + 1 := by omega
          rw [if_pos hax, if_neg h, if_pos (by omega), e1, e2, List.getElem?_cons_succ]
        · rw [if_neg hax, if_neg h, if_neg (by omega)]

/-- Bytes read at the FIFO that do not pass its end: they come in order from the pointer on, and the pointer
moves past them. -/
theorem RefRadio.giveBytes_fifo (p : Params) (a : RegAddr) (ha : a.toNat = p.regs.fifo)
    (hp : p.regs.fifoAddrPtr < 128) (n k : Nat) (r : RefRadio) (h1 : Memory.wf 128 r.reg = true)
    (h2 : r.fptr p + n < 256) :
    (RefRadio.giveBytes p a k n r).1 = (List.range n).map (fun j => Memory.read r.fifo (r.fptr p + j)) ∧
      (RefRadio.giveBytes p a k n r).2.fptr p = r.fptr p + n := by
  induction n generalizing k r with
  | zero => exact ⟨rfl, rfl⟩
  | succ n ih =>
    have f1 : (r.advance p).fptr p = r.fptr p + 1 := by
      rw [RefRadio.fptr_advance p r h1]
      omega
    obtain ⟨x, y⟩ := ih (k + 1) _ (RefRadio.advance_reg_wf p r h1 hp) (by rw [f1]; omega)
    simp only [RefRadio.giveBytes, RefRadio.giveByte, ha, if_true]
    refine ⟨?_, by rw [y, f1]; omega⟩
    rw [x, List.range_succ_eq_map, f1]
    simp only [List.map_cons, List.map_map, Nat.add_zero, RefRadio.advance_fifo, List.cons.injEq, true_and]
    apply List.map_congr_left
    intro j hj
    simp only [Function.comp_apply]
    congr 1
    omega

end Sys2Proof.Machine
end

