-- ==== Sys2Proof/Tests/Slice0.lean ====
section
/-! SUPPORT. Tests on single steps, their expected results from the vectors of 95_test_vectors.md (named in
each comment) or computed by hand from the rules, and one witness for every statement with hypotheses. -/

namespace Sys2Proof.Tests

open Sys2Proof.Machine

/-! ### Small states -/

/-- The defaults with a transport that cannot fail (the test vectors' configuration). -/
def sureCfg : Params := { Params.default with xferCanFail := false }

/-- Just reset, in that configuration. -/
def idle : State := { State.reset with cfg := sureCfg }

/-- A state with the radio's next answers given. -/
def hearing (l : List Answer) (s : State) : State := { s with radio := l }

/-- A state with a command latched. -/
def latched (i : Instr) (s : State) : State := { s with cmdl := encode i, busy := true }

/-- The state an outcome goes on with, if any. -/
def after (o : Host.Outcome State Fault Refusal) : Option State :=
  match o with
  | .next t => some t
  | .fault _ => none
  | .refused _ => none

/-- The radio's answer to a one-byte read. -/
def oneByte (b : Byte) : Answer := ⟨true, [b]⟩

/-- A transaction that completes without data of its own. -/
def fine : Answer := ⟨true, []⟩

/-- A transaction that fails. -/
def fails : Answer := ⟨false, []⟩

/-- A state whose transport may fail. -/
def risky (l : List Answer) : State := hearing l State.reset

/-! ### Words written out from R90 and R95: OPC MODE ADDR LEN DATA -/

theorem test_word_nop : decode 0x00000000#32 = .command .nop := by decide
theorem test_word_rdreg : decode 0x10420000#32 = .command (.rdreg 0x42#7) := by decide
theorem test_word_wrreg : decode 0x201200FF#32 = .command (.wrreg 0x12#7 0xFF#8) := by decide
theorem test_word_rdburst : decode 0x3000FF00#32 = .command (.rdburst 0x00#7 255#8) := by decide
theorem test_word_wrburst : decode 0x407F0100#32 = .command (.wrburst 0x7F#7 1#8) := by decide
theorem test_word_setmode_sleep : decode 0x50000000#32 = .command (.setmode .sleep) := by decide
theorem test_word_setmode_rxcont : decode 0x53000000#32 = .command (.setmode .receiveContinuous) := by decide
theorem test_word_calcfreq : decode 0x60000000#32 = .command .calcfreq := by decide
theorem test_word_setfreq : decode 0x70000000#32 = .command .setfreq := by decide
theorem test_word_service : decode 0x80000000#32 = .command .service := by decide
theorem test_word_clrflags : decode 0x9000000F#32 = .command (.clrflags 0xF#4) := by decide

/-- Bit by bit: RDREG 0x42 is 0001, 00 and 00, 0, 1000010, then sixteen zeros. -/
theorem test_word_rdreg_bits :
    decode (0b0001#4 ++ 0b00#2 ++ 0b00#2 ++ 0b0#1 ++ 0b1000010#7 ++ 0b00000000#8 ++ 0b00000000#8) =
      .command (.rdreg 0b1000010#7) := by decide

/-- Vectors E2, E4, E5, E7, E11, E12, E14, E15, E16. -/
theorem test_words_illegal :
    [0x00000001#32, 0x10420001#32, 0x10C20000#32, 0x201201FF#32, 0x54000000#32, 0x53010000#32,
      0x90000010#32, 0x60000001#32].map decode = List.replicate 8 (.illegal .nonzeroUnusedField) ∧
    [0xA0000000#32, 0xF0000000#32].map decode = List.replicate 2 (.illegal .reservedOpcode) := by decide

theorem test_encode :
    encode (.rdreg 0x42#7) = 0x10420000#32 ∧ encode (.wrreg 0x40#7 0x40#8) = 0x20400040#32 ∧
    encode (.rdburst 0x00#7 5#8) = 0x30000500#32 ∧ encode (.wrburst 0x00#7 2#8) = 0x40000200#32 ∧
    encode (.setmode .transmit) = 0x52000000#32 ∧ encode (.clrflags 0x4#4) = 0x90000004#32 := by decide

theorem test_table_word : decodeTableWord 32 0x10420000 = some (.rdreg 0x42#7) := by decide

/-! ### Well-formedness: one ill-formed term for each check (R98, R10-R12, R14) -/

theorem test_wf_refuses_addr : (AsmLine.rdreg 0x80).wf = false ∧ (AsmLine.rdreg 0x7F).wf = true := by decide
theorem test_wf_refuses_data : (AsmLine.wrreg 1 256).wf = false ∧ (AsmLine.wrreg 0x80 1).wf = false := by decide
theorem test_wf_refuses_length :
    (AsmLine.rdburst 0 256).wf = false ∧ (AsmLine.wrburst 0 256).wf = false ∧
    (AsmLine.rdburst 128 0).wf = false ∧ (AsmLine.wrburst 128 0).wf = false := by decide
theorem test_wf_refuses_mask : (AsmLine.clrflags 16).wf = false ∧ (AsmLine.clrflags 15).wf = true := by decide
theorem test_wf_default : Params.default.wf = true := by decide
theorem test_wf_refuses_register :
    { Params.default with regs := { RadioRegs.default with lna := 0x80 } }.wf = false := by decide
theorem test_wf_refuses_third_tuning_register :
    { Params.default with regs := { RadioRegs.default with frfMsb := 0x7E } }.wf = false := by decide
theorem test_wf_refuses_mode_codes :
    { Params.default with codeSleep := 0x80 }.wf = false ∧
    { Params.default with codeSleep := 5 }.wf = false := by decide
theorem test_wf_refuses_irq_bits :
    { Params.default with bitTxDone := 8 }.wf = false ∧
    { Params.default with bitTxDone := 6 }.wf = false := by decide
theorem test_wf_refuses_ranges :
    { Params.default with spiMode := 4 }.wf = false ∧ { Params.default with sckDiv := 0 }.wf = false ∧
    { Params.default with bitDelay := 0 }.wf = false ∧ { Params.default with syncStages := 1 }.wf = false := by
  decide

/-! ### Transport: T1, T2, T6, T7, T8, T10 -/

theorem test_nop : (after (exec .nop (latched .nop idle))).map (fun t => (t.result, t.busy, t.trace)) =
    some (.ok, false, []) := by decide

theorem test_rdreg :
    (after (exec (.rdreg 0x42#7) (hearing [oneByte 0x12#8] idle))).map (fun t => (t.rdata, t.result, t.trace)) =
      some (0x12#8, .ok, [.rd 0x42#7 1 [0x12#8] true]) := by decide

theorem test_rdreg_fails :
    (after (exec (.rdreg 0x42#7) (risky [fails]))).map (fun t => (t.result, t.csN, t.busy)) =
      some (.xferFail, true, false) := by decide

theorem test_wrreg_opmode :
    (after (exec (.wrreg 0x01#7 0x05#8) (hearing [fine] { idle with mvalid := true, mode := .standby }))).map
      (fun t => (t.mvalid, t.mode, t.trace)) = some (false, .standby, [.wr 0x01#7 [0x05#8] true]) := by decide

theorem test_wrreg_elsewhere :
    (after (exec (.wrreg 0x12#7 0xFF#8) (hearing [fine] { idle with mvalid := true }))).map
      (fun t => (t.mvalid, t.trace.map (Txn.mosi sureCfg))) = some (true, [[0x92#8, 0xFF#8]]) := by decide

theorem test_rdburst :
    (after (exec (.rdburst 0x00#7 2#8) (hearing [⟨true, [0x11#8, 0x22#8]⟩] { idle with buf := [(2, 0x33#8)] }))).map
      (fun t => (t.buf, t.trace.map (Txn.mosi sureCfg))) =
      some ([(0, 0x11#8), (1, 0x22#8), (2, 0x33#8)], [[0x00#8, 0x00#8, 0x00#8]]) := by decide

theorem test_rdburst_zero :
    (after (exec (.rdburst 0x00#7 0#8) (hearing [fine] { idle with buf := [(0, 7#8)] }))).map
      (fun t => (t.buf, t.trace)) = some ([(0, 7#8)], [.rd 0x00#7 0 [] true]) := by decide

theorem test_wrburst :
    (after (exec (.wrburst 0x00#7 3#8)
      (hearing [fine] { idle with buf := [(0, 0x0A#8), (1, 0x0B#8), (2, 0x0C#8), (3, 0x0D#8)] }))).map
      (fun t => t.trace.map (Txn.mosi sureCfg)) = some [[0x80#8, 0x0A#8, 0x0B#8, 0x0C#8]] := by decide

theorem test_wrburst_opmode :
    (after (exec (.wrburst 0x01#7 1#8) (hearing [fine] { idle with mvalid := true }))).map (fun t => t.mvalid) =
      some false ∧
    (after (exec (.wrburst 0x01#7 0#8) (hearing [fine] { idle with mvalid := true }))).map (fun t => t.mvalid) =
      some true := by decide

/-! ### Mode: M3, M7; W5 -/

theorem test_setmode :
    (after (exec (.setmode .transmit) (hearing [fine] idle))).map
      (fun t => (t.mode, t.mvalid, t.trace.map (Txn.mosi sureCfg))) =
      some (.transmit, true, [[0x81#8, 0x83#8]]) := by decide

theorem test_setmode_fails :
    (after (exec (.setmode .standby) { risky [fails] with mvalid := true })).map
      (fun t => (t.mode, t.mvalid, t.result, t.trace)) =
      some (.sleep, false, .xferFail, [.wr 0x01#7 [0x81#8] false]) := by decide

/-! ### Frequency: W1, F4, F10, F11, F13 -/

theorem test_calcfreq :
    (after (exec .calcfreq { idle with freq := 433175000#32 })).map (fun t => (t.tune, t.result, t.trace)) =
      some (0x6C4B33#24, .ok, []) := by decide

theorem test_calcfreq_range :
    (after (exec .calcfreq { idle with freq := 1023999999#32 })).map (fun t => (t.tune, t.result)) =
      some (0xFFFFFF#24, .ok) ∧
    (after (exec .calcfreq { idle with freq := 1024000000#32, tune := 5#24 })).map
      (fun t => (t.tune, t.result)) = some (5#24, .freqRange) := by decide

theorem test_setfreq :
    (after (exec .setfreq (hearing [fine, fine, fine] { idle with freq := 915000000#32 }))).map
      (fun t => (t.tune, t.result, t.trace.map (Txn.mosi sureCfg))) =
      some (0xE4C000#24, .ok, [[0x86#8, 0xE4#8], [0x87#8, 0xC0#8], [0x88#8, 0x00#8]]) := by decide

theorem test_setfreq_fails :
    (after (exec .setfreq { risky [fine, fails, fine] with freq := 915000000#32 })).map
      (fun t => (t.tune, t.result, t.trace)) =
      some (0xE4C000#24, .xferFail, [.wr 0x06#7 [0xE4#8] true, .wr 0x07#7 [0xC0#8] false]) := by decide

/-! ### Detector: the classification table, S1, S2, S6, K1-K4 -/

theorem test_class_table :
    [0x00#8, 0x40#8, 0x08#8, 0x20#8, 0x60#8, 0x48#8, 0x28#8, 0x68#8, 0xFF#8, 0xC0#8, 0x97#8].map
      (classOf Params.default) =
      [.none, .rx, .tx, .crc, .crc, .rx, .tx, .tx, .tx, .rx, .none] := by decide

theorem test_service :
    (after (exec .service (hearing [oneByte 0x08#8, fine] { idle with irqp := true, pollen := false }))).map
      (fun t => (t.irqp, t.txc, t.svc, t.lastFlags, t.trace.map (Txn.mosi sureCfg))) =
      some (false, true, .tx, 0x08#8, [[0x12#8, 0x00#8], [0x92#8, 0x08#8]]) := by decide

theorem test_service_fails :
    (after (exec .service { risky [⟨false, [0x40#8]⟩, fine] with irqp := true })).map
      (fun t => (t.irqp, t.rxc, t.svc, t.result, t.trace)) =
      some (false, false, .none, .xferFail, [.rd 0x12#7 1 [0x40#8] false]) := by decide

theorem test_clrflags :
    (after (exec (.clrflags 0x1#4) { idle with txc := true, rxc := true, crcd := true, ovr := true })).map
      (fun t => (t.txc, t.rxc, t.crcd, t.ovr)) = some (false, true, true, true) := by decide

theorem test_clrflags_all :
    (after (exec (.clrflags 0xF#4)
      { idle with txc := true, rxc := true, crcd := true, ovr := true, irqp := true })).map
      (fun t => (t.txc, t.rxc, t.crcd, t.ovr, t.irqp)) = some (false, false, false, false, true) := by decide

/-! ### Steps of the other agents -/

/-- P6(b): a CMD write while BUSY = 1 is dropped and sets OVR. -/
theorem test_overrun :
    (after (step ((latched .nop idle).schedule (.host ⟨32, 0x000, some 0x10420000#32⟩)))).map
      (fun t => (t.cmdl, t.ovr)) = some (0#32, true) := by decide

/-- P2: `HWR 0x100, 0x0000F401` puts 01 and F4 in BUF[0] and BUF[1]. -/
theorem test_buf_lanes :
    (after (step (idle.schedule (.host ⟨32, 0x100, some 0x0000F401#32⟩)))).map (fun t => t.buf) =
      some [(0, 0x01#8), (1, 0xF4#8)] := by decide

/-- R33 by hand: SVC 2, RESULT 2, MODE 3, MVALID, RXC give 0x4000 + 0x200 + 0xC0 + 0x20 + 0x4. -/
theorem test_status :
    { idle with svc := .tx, result := .xferFail, mode := .receiveContinuous, mvalid := true, rxc := true }.statusWord
      = 0x42E4#32 := by decide

theorem test_illegal_word :
    (after (step { idle with cmdl := 0xA0000000#32, busy := true })).map (fun t => (t.result, t.busy, t.trace)) =
      some (.illegal, false, []) := by decide

/-- P1: what the host reads after CTRL was written with 3 is 3. -/
theorem test_ctrl :
    (after (step (idle.schedule (.host ⟨32, 0x008, some 0xFFFFFFFF#32⟩)))).map (fun t => t.ctrlWord) =
      some 3#32 := by decide

theorem test_fetch_word_runs :
    step (State.reset.withFetchWord 32 0x60000000) =
      exec .calcfreq { State.reset with cmdl := 0x60000000#32, busy := true } := rfl

/-- The reference radio of R83: vector T5, write-1-to-clear of bit 3 only. -/
theorem test_reference_radio :
    (RefRadio.replay1 sureCfg true (.wr 0x12#7 [0x08#8] true) ⟨[(0x12, 0x48#8)], [], none⟩).map (fun r => r.reg) =
      some [(0x12, 0x40#8)] := by decide

/-- W2: a raw 100 gives -57. -/
theorem test_rssi :
    ((rssi sureCfg).run ⟨[], []⟩ (hearing [oneByte 100#8] idle)).map Prod.fst = some (.ok (-57)) := by decide

/-- R249: an XFER_FAIL outside `init` is a TransportFailure. -/
theorem test_rssi_fails :
    ((rssi Params.default).run ⟨[], []⟩ (risky [⟨false, [100#8]⟩])).map Prod.fst =
      some (.error .transportFailure) := by decide

/-- R66, R14: what a read sends after the address byte is the configured MOSI_FILL, n times. -/
theorem test_mosi_fill :
    (after (exec (.rdburst 0x42#7 2#8)
      (hearing [fine] { idle with cfg := { sureCfg with mosiFill := 0xA5#8 } }))).map State.wires =
      some [.cs false, .mosi 0x42#8, .mosi 0xA5#8, .mosi 0xA5#8, .cs true] := by decide

/-- R99: WAITIDLE polls until bit 0 is 0: two polls while the command is pending, a third after its step. -/
theorem test_wait_idle :
    (pollIdle [[], [], [.sequencer], [.edge]] (latched .nop idle)).map
      (fun r => (r.1, r.2.busy, r.2.draws, r.2.irqp)) = some ([[.edge]], false, 3, false) := by
  rw [pollIdle_cons_busy (by decide) rfl, pollIdle_cons_busy (by decide) rfl]
  decide

/-- R99: `FILL 0` with five bytes is one write of a full word, and a read and a write of the partial one (a read
advances the draw counter). -/
theorem test_fill_full_then_partial :
    ((fill 0 [1#8, 2#8, 3#8, 4#8, 5#8] (.ret ())).run ⟨[], []⟩ { idle with buf := [(0, 7#8), (5, 9#8)] }).map
      (fun r => (r.2.buf, r.2.draws)) =
      some ([(0, 1#8), (1, 2#8), (2, 3#8), (3, 4#8), (4, 5#8), (5, 9#8)], 1) := by decide

/-- R99: `FILL 3` with six bytes has a partial word at either end, whose other lanes keep their bytes. -/
theorem test_fill_partial_ends :
    ((fill 3 [1#8, 2#8, 3#8, 4#8, 5#8, 6#8] (.ret ())).run ⟨[], []⟩ { idle with buf := [(2, 7#8), (9, 9#8)] }).map
      (fun r => (r.2.buf, r.2.draws)) =
      some ([(2, 7#8), (3, 1#8), (4, 2#8), (5, 3#8), (6, 4#8), (7, 5#8), (8, 6#8), (9, 9#8)], 2) := by decide

/-- R212: two callers that issue a NOP each, one section after the other; the second one's CMD write inside the
first one's section, before its section, and a section left while BUSY = 1. -/
theorem test_one_caller :
    keepsExclusion none
      [.enter 1, .move 1 (busWrite 0 0#32), .move 0 .edge, .move 0 .sequencer, .move 1 (busRead 4), .leave 1,
       .enter 2, .move 2 (busWrite 0 0#32), .move 0 .sequencer, .leave 2] idle = true ∧
    keepsExclusion none
      [.enter 1, .move 1 (busWrite 0 0#32), .move 0 .sequencer, .move 2 (busWrite 0 0#32)] idle = false ∧
    keepsExclusion none [.move 2 (busWrite 0 0#32)] idle = false ∧
    keepsExclusion none [.enter 1, .move 1 (busWrite 0 0#32), .leave 1] idle = false := by decide

/-- R212: another caller's access beside a host program's. -/
theorem test_exclusive_surroundings :
    (⟨[[.edge], [.sequencer]], []⟩ : Surroundings).exclusive = true ∧
    (⟨[[], [.sequencer, busRead 4]], []⟩ : Surroundings).exclusive = false := by decide

/-- R31: the window stands at HOST_BASE. -/
theorem test_host_base :
    busAccessAt { sureCfg with hostBase := 0x4000 } 32 0x4004 none = some ⟨32, 0x004, none⟩ ∧
    busAccessAt { sureCfg with hostBase := 0x4000 } 32 0x3FFC none = none := by decide

/-! ### Witnesses: the hypotheses of each statement can be met, each clause at a boundary -/

/-- A state in which the block may be asked anything next. -/
def turn (m : Input) (s : State) : State := s.schedule m

/-- The host's next access. -/
def hostTurn (off : Nat) (v : Option Word) (s : State) : State := s.schedule (.host ⟨32, off, v⟩)

theorem witness_EncodeOfDecodeIsTheWord : decode 0x207FFF00#32 ≠ decode 0x207F00FF#32 ∧
    decode 0x207F00FF#32 = .command (.wrreg 0x7F#7 0xFF#8) := by decide

theorem witness_IllegalWords :
    0xA#4 ≤ (0xA0000000#32).extractLsb' 28 4 ∧ 0xA#4 ≤ (0xFFFFFFFF#32).extractLsb' 28 4 ∧
    ((0x9FFFFFFF#32).extractLsb' 28 4 < 0xA#4 ∧
      0x9FFFFFFF#32 &&& Claims.mustBeZero ((0x9FFFFFFF#32).extractLsb' 28 4) ≠ 0#32) ∧
    ((0x9000000F#32).extractLsb' 28 4 < 0xA#4 ∧
      0x9000000F#32 &&& Claims.mustBeZero ((0x9000000F#32).extractLsb' 28 4) = 0#32) := by decide

theorem witness_AssembledWords :
    (AsmLine.rdreg 0x7F).word = some 0x107F0000#32 ∧ (AsmLine.rdreg 0x80).word = none ∧
    (AsmLine.wrreg 0x7F 255).word = some 0x207F00FF#32 ∧ (AsmLine.wrreg 0x7F 256).word = none ∧
    (AsmLine.rdburst 0 255).word = some 0x3000FF00#32 ∧ (AsmLine.rdburst 0 256).word = none ∧
    (AsmLine.wrburst 0 255).word = some 0x4000FF00#32 ∧ (AsmLine.wrburst 0x80 0).word = none ∧
    (AsmLine.clrflags 15).word = some 0x9000000F#32 ∧ (AsmLine.clrflags 16).word = none := by decide

/-- Both moves of the sequencer, a command and an Illegal word. -/
theorem witness_StepRunsTheDecodedCommand :
    (turn .sequencer (latched .service idle)).cfg.wf = true ∧
    (turn .sequencer (latched .service idle)).nextInput = .sequencer ∧
    (turn .sequencer (latched .service idle)).busy = true ∧
    decode (turn .sequencer (latched .service idle)).cmdl = .command .service ∧
    (turn .sequencerWithEdge (latched .nop idle)).nextInput = .sequencerWithEdge ∧
    (after (step (turn .sequencerWithEdge { idle with cmdl := 0xA0000000#32, busy := true }))).map
      (fun t => (t.result, t.busy, t.irqp)) = some (.illegal, false, true) := by decide

theorem witness_IllegalCommandChangesOnlyResultAndBusy :
    idle.cfg.wf = true ∧ ({ idle with cmdl := 0xF0000000#32, busy := true } : State).nextInput = .sequencer ∧
    decode 0xF0000000#32 = .illegal .reservedOpcode ∧
    decode 0x00000001#32 = .illegal .nonzeroUnusedField := by decide

theorem witness_IssuedCommandIsPerformed : idle.cfg.wf = true ∧ idle.busy = false := by decide

theorem witness_EveryCommandEndsIdle : idle.csN = true := by decide

/-- Each clause on RESULT happens. -/
theorem witness_EveryCommandEndsIdle_results :
    (after (exec (.rdreg 0#7) (risky [fails]))).map (fun t => t.result) = some .xferFail ∧
    (after (exec .setfreq { idle with freq := 1024000000#32 })).map (fun t => t.result) = some .freqRange ∧
    (after (exec .nop idle)).map (fun t => t.result) = some .ok := by decide

theorem witness_RdburstFillsTheFirstBytesOfBuf :
    Memory.wf bufSize [(0, 1#8), (255, 2#8)] = true ∧ Memory.wf bufSize idle.buf = true := by decide

theorem witness_TransfersFailOnlyWhenTheyCan :
    idle.cfg.xferCanFail = false ∧
    ((risky [fails]).radio = fails :: [] ∧ (risky [fails]).cfg.xferCanFail = true) ∧
    (0 < (oneByte 5#8).miso.length ∧ (hearing [oneByte 5#8] idle).radio = oneByte 5#8 :: []) := by decide

theorem witness_FrameBytesAndBits : 7 < (msbFirst 0x80#8).length ∧ (msbFirst 0x80#8)[0]? = some true := by decide

/-- All four outcomes of SETFREQ happen. -/
theorem witness_SetfreqWritesMsbMidLsb :
    idle.freq.toNat < 1024000000 ∧
    [[fails], [fine, fails], [fine, fine, fails], [fine, fine, fine]].map
      (fun l => (after (exec .setfreq (risky l))).map (fun t => t.trace.map Txn.ok)) =
      [some [false], some [true, false], some [true, true, false], some [true, true, true]] := by decide

theorem witness_TuningBytesAreTheWordMsbFirst : Params.default.wf = true ∧
    { Params.default with regs := { RadioRegs.default with frfMsb := 0x7D } }.wf = true := by decide

/-- Either premise, and each of the answers of the two transactions. -/
theorem witness_ServiceReadsClearsAndClassifies :
    ({ idle with irqp := true, pollen := false } : State).irqp = true ∧ idle.pollen = true ∧
    (risky [fails]).answersOk = false ∧ (risky [fine]).answersOk = true ∧
    (after (exec .service (risky [oneByte 0x40#8, fails]))).map (fun t => (t.svc, t.rxc, t.result)) =
      some (.none, false, .xferFail) ∧
    (after (exec .service (risky [oneByte 0x60#8, fine]))).map (fun t => (t.svc, t.crcd, t.rxc)) =
      some (.crc, true, false) := by decide

theorem witness_ModeChangesOnlyBySetmodeOrReset :
    (after (step (latched (.setmode .transmit) (hearing [fine] idle)))).map (fun t => t.mode) = some .transmit ∧
    (after (step (turn .blockReset { idle with mode := .transmit }))).map (fun t => t.mode) = some .sleep := by
  decide

/-- SERVICE sets each sticky flag, CLRFLAGS and reset clear them, and an edge sets IRQP, also while BUSY = 1. -/
theorem witness_OnlyServiceAndClrflagsTouchTheStickyFlags :
    [0x08#8, 0x40#8, 0x20#8].map (fun v =>
      (after (step (latched .service (hearing [oneByte v, fine] idle)))).map (fun t => (t.txc, t.rxc, t.crcd))) =
      [some (true, false, false), some (false, true, false), some (false, false, true)] ∧
    [0x1#4, 0x2#4, 0x4#4].map (fun m =>
      (after (step (latched (.clrflags m) { idle with txc := true, rxc := true, crcd := true }))).map
        (fun t => (t.txc, t.rxc, t.crcd))) =
      [some (false, true, true), some (true, false, true), some (true, true, false)] ∧
    (after (step (turn .blockReset { idle with txc := true, rxc := true, crcd := true }))).map
      (fun t => (t.txc, t.rxc, t.crcd)) = some (false, false, false) ∧
    (turn .edge idle).nextInput = .edge ∧
    (after (step (turn .edge idle))).map (fun t => t.irqp) = some true ∧
    (after (step (turn .edge (latched .service idle)))).map (fun t => t.irqp) = some true := by decide

theorem witness_OnlyDio0SetsAndOnlyServiceClearsIrqp :
    (after (step (turn (.clock false) { idle with sync := [true, true] }))).map (fun t => t.irqp) = some true ∧
    (after (step (turn .sequencerWithEdge idle))).map (fun t => t.irqp) = some true ∧
    (after (step (turn .edgeDuring idle))).map (fun t => t.irqp) = some true ∧
    (after (step (turn .edgeDuring (latched .nop idle)))).map (fun t => (t.irqp, t.edgeHeld)) =
      some (false, true) ∧
    (after (step (turn .sequencer { latched .nop idle with edgeHeld := true }))).map
      (fun t => (t.irqp, t.edgeHeld)) = some (true, false) ∧
    (after (step (latched .service (hearing [oneByte 0#8, fine] { idle with irqp := true })))).map
      (fun t => t.irqp) = some false ∧
    (after (step (turn .blockReset { idle with irqp := true }))).map (fun t => t.irqp) = some false := by decide

theorem witness_CoincidentEdgeWins :
    (turn .sequencerWithEdge (latched .service idle)).cfg.wf = true ∧
    (turn .sequencerWithEdge (latched .service idle)).nextInput = .sequencerWithEdge ∧
    (turn .sequencerWithEdge (latched .service idle)).busy = true ∧
    decode (turn .sequencerWithEdge (latched .service idle)).cmdl = .command .service := by decide

/-- R78, R254: a deferred edge while SERVICE is latched leaves what an edge just after its step leaves. R182, R185: a
plain one sets IRQP at once, like one before the CMD write, and several of them are one pending event. -/
theorem test_edge_around_service :
    let s : State := hearing [oneByte 0#8, fine] { idle with pollen := false }
    play [.edgeDuring, .sequencer] (latched .service s) = play [.sequencer, .edge] (latched .service s) ∧
    (play [.edgeDuring, .sequencer] (latched .service s)).map (fun t => (t.irqp, t.trace.length)) =
      some (true, 0) ∧
    (play [.edge] (latched .service s)).map (fun t => t.irqp) = some true ∧
    (play [.edge, busWrite 0 (encode .service), .edge, .sequencer] s).map (fun t => (t.irqp, t.trace.length)) =
      some (false, 2) := by decide

/-- R184, vector S5: IRQP was 1, an edge coincides with the test-and-clear, or is deferred, and the set wins. -/
theorem test_edge_during_service :
    [[.sequencerWithEdge], [.edgeDuring, .sequencer]].map (fun moves =>
      (play moves (latched .service (hearing [oneByte 0x40#8, fine] { idle with irqp := true }))).map
        (fun t => (t.irqp, t.rxc, t.edgeHeld))) = List.replicate 2 (some (true, true, false)) := by decide

/-- R210: FREQ_HZ once and before SETFREQ; a second write, another value, and a write after SETFREQ. -/
theorem test_freq_duty :
    keepsFreqDuty 5#32 false [busWrite 0x010 5#32, busWrite 0 (encode .setfreq), .sequencer] = true ∧
    keepsFreqDuty 5#32 false [busWrite 0x010 5#32, busWrite 0x010 5#32] = false ∧
    keepsFreqDuty 5#32 false [busWrite 0x010 6#32] = false ∧
    keepsFreqDuty 5#32 false [busWrite 0 (encode .setfreq), .sequencer, busWrite 0x010 5#32] = false := by decide

/-- R214: no command after a failed initialization, until reset; reading is no command. -/
theorem test_terminal_duty :
    keepsTerminalDuty [busRead 0x004, .edge, .blockReset, busWrite 0 0#32] = true ∧
    keepsTerminalDuty [busRead 0x004, busWrite 0 0#32] = false := by decide

/-- R214: a launch whose first command fails ends there, with one transaction and without its application. -/
theorem test_launch_fails (h : HostParams) :
    ((launch { Params.default with hasResetLine := false } h none (issue .service (fun _ => .ret ()))).run ⟨[], []⟩
      (risky [fails])).map (fun r => (r.1, r.2.trace.length)) = some (.error .initializationFailure, 1) := rfl

/-- R274: step 2 of the boot order is optional; without it no access is made between the poll and `init`. -/
theorem test_boot_without_pollen (h : HostParams) :
    bootIdle sureCfg h none = init sureCfg h true ∧
    bootIdle sureCfg h (some false) = .hwr 0x008 0#32 (init sureCfg h false) := ⟨rfl, rfl⟩

theorem witness_EdgeCommutesWithEveryOtherCommand :
    (latched .service idle).cfg.wf = true ∧ (latched .service idle).busy = true ∧
    ({ idle with cmdl := 0xA0000000#32, busy := true } : State).busy = true ∧
    decode 0xA0000000#32 ≠ .command .service ∧ decode (latched .setfreq idle).cmdl ≠ .command .service := by decide

theorem witness_SynchronizerDetectsARisingLine :
    idle.cfg.irqEdge = .rising ∧ idle.sync = List.replicate 2 false ∧ idle.eprev = false ∧
    idle.irqp = false ∧ 1 ≤ 2 ∧ ({ idle with sync := [false] } : State).sync = List.replicate 1 false := by decide

/-- SYNC_STAGES = 2: IRQP is set at the third clock of a low line. -/
theorem witness_SynchronizerDetectsAFallingLine :
    let s : State := { idle with
      cfg := { sureCfg with irqEdge := .falling }, sync := List.replicate 2 true, eprev := true }
    s.cfg.irqEdge = .falling ∧ s.sync = List.replicate 2 true ∧ s.eprev = true ∧ s.irqp = false ∧ 1 ≤ 2 ∧
      ((s.clockSync false).clockSync false).irqp = false ∧
      (((s.clockSync false).clockSync false).clockSync false).irqp = true := by decide

/-- SERVICE against a reference radio whose flags hold 0x48. -/
theorem witness_ServiceClearsWhatItReadAtTheReferenceRadio :
    ∃ (t : State) (r' : RefRadio),
      sureCfg.wf = true ∧ sureCfg.regs.irqFlags ≠ sureCfg.regs.fifo ∧
      sureCfg.regs.irqFlags ≠ sureCfg.regs.version ∧ Memory.wf 128 [(0x12, 0x48#8)] = true ∧
      exec .service (hearing [oneByte 0x48#8, fine] idle) = .next t ∧ t.result = .ok ∧
      RefRadio.replay sureCfg (t.trace.map (fun e => (e, true))) ⟨[(0x12, 0x48#8)], [], none⟩ = some r' :=
  ⟨_, _, by decide, by decide, by decide, by decide, rfl, by decide, rfl⟩

/-- Vector T9 with L = 2. -/
theorem witness_FifoRoundTripReturnsTheBytes :
    ∃ (s1 s2 s3 s4 : State) (r' : RefRadio),
      sureCfg.wf = true ∧ sureCfg.regs.fifo ≠ sureCfg.regs.fifoAddrPtr ∧
      sureCfg.regs.fifoAddrPtr ≠ sureCfg.regs.irqFlags ∧
      Memory.wf bufSize [(0, 0x0A#8), (1, 0x0B#8)] = true ∧
      exec (.wrreg 0x0D#7 0#8) (hearing [fine, fine, fine, ⟨true, [0x0A#8, 0x0B#8]⟩]
        { idle with buf := [(0, 0x0A#8), (1, 0x0B#8)] }) = .next s1 ∧
      exec (.wrburst 0x00#7 2#8) s1 = .next s2 ∧ exec (.wrreg 0x0D#7 0#8) s2 = .next s3 ∧
      exec (.rdburst 0x00#7 2#8) s3 = .next s4 ∧
      s1.result = .ok ∧ s2.result = .ok ∧ s3.result = .ok ∧ s4.result = .ok ∧
      RefRadio.replay sureCfg (s4.trace.map (fun e => (e, true))) ⟨[], [], none⟩ = some r' :=
  ⟨_, _, _, _, _, by decide, by decide, by decide, by decide, rfl, rfl, rfl, rfl, by decide, by decide, by decide,
    by decide, rfl⟩

/-- A wrong width, a wrong alignment, and the first offset beyond the window. -/
theorem witness_BadHostAccessIsABusError :
    idle.cfg.wf = true ∧
    (turn (.host ⟨8, 0x000, none⟩) idle).nextInput = .host ⟨8, 0x000, none⟩ ∧ (8 : Nat) ≠ 32 ∧
    (0x1FE % 4 : Nat) ≠ 0 ∧ (0x200 : Nat) ≤ 0x200 := by decide

theorem witness_OnlyBusErrorsAndBadConfigurationsStop :
    { Params.default with syncStages := 1 }.wf = false ∧
    admittedMove (.host ⟨32, 0x1FC, none⟩) = true ∧
    step (hostTurn 0x200 none idle) = .fault (.hostBusError 0x200) ∧
    step { idle with cfg := { Params.default with syncStages := 1 } } = .refused .refusedConfiguration :=
  ⟨by decide, by decide, rfl, rfl⟩

theorem witness_HostReadsHaveNoSideEffect :
    (hostTurn 0x1FC none idle).cfg.wf = true ∧
    (hostTurn 0x1FC none idle).nextInput = .host ⟨32, 0x1FC, none⟩ ∧ 0x1FC % 4 = 0 ∧ 0x1FC < 0x200 := by decide

theorem witness_StatusReadsItsFields :
    (hostTurn 0x004 none idle).nextInput = .host ⟨32, 0x004, none⟩ ∧ (hostTurn 0x004 none idle).busy = false := by
  decide

theorem witness_BusyReadsAreExactWhereTheSpecSaysSo :
    [0x004, 0x008, 0x010].map (fun off => (hostTurn off none (latched .nop idle)).busy) = [true, true, true] ∧
    (hostTurn 0x010 none (latched .nop idle)).nextInput = .host ⟨32, 0x010, none⟩ := by decide

/-- One offset for each clause, and both ends of the reserved range. -/
theorem witness_IdleReadsOfTheDataRegisters :
    [0x000, 0x01C, 0x0FC, 0x008, 0x010, 0x00C, 0x014, 0x018].map (fun off =>
      ((after (step (hostTurn off none
        { idle with freq := 9#32, rdata := 7#8, tune := 6#24, lastFlags := 5#8 }))).map
        (fun t => t.busData))) =
      [some (some 0#32), some (some 0#32), some (some 0#32), some (some 2#32), some (some 9#32),
        some (some 7#32), some (some 6#32), some (some 5#32)] := by decide

/-- The two registers and both ends of BUF. -/
theorem witness_OverrunDropsTheWriteAndSetsOvr :
    (latched .nop idle).busy = true ∧
    [0x000, 0x010, 0x100, 0x1FC].map (fun off =>
      (after (step (hostTurn off (some 0xFFFFFFFF#32) (latched .nop idle)))).map
        (fun t => (t.ovr, t.cmdl, t.freq, t.buf.length))) =
      List.replicate 4 (some (true, 0#32, 0#32, 0)) := by decide

theorem witness_OvrIsStickyUntilClrflags :
    (after (step (hostTurn 0x100 (some 1#32) (latched .nop idle)))).map (fun t => t.ovr) = some true ∧
    (after (step (latched (.clrflags 0x8#4) { idle with ovr := true }))).map (fun t => t.ovr) = some false ∧
    (after (step (turn .blockReset { idle with ovr := true }))).map (fun t => t.ovr) = some false := by decide

theorem witness_WritesToTheControlRegisters :
    [0x004, 0x00C, 0x014, 0x018, 0x01C, 0x0FC].map (fun off =>
      (after (step (hostTurn off (some 0xFFFFFFFF#32) idle))).map (fun t => decide (t = idle))) =
      List.replicate 6 (some true) ∧
    (after (step (hostTurn 0x010 (some 0xFFFFFFFF#32) idle))).map (fun t => t.freq) = some 0xFFFFFFFF#32 ∧
    (after (step (hostTurn 0x008 (some 1#32) idle))).map (fun t => (t.radioRst, t.pollen)) =
      some (true, false) := by decide

/-- The first and the last word of BUF. -/
theorem witness_BufWordsAreLittleEndianLanes :
    idle.cfg.wf = true ∧ Memory.wf bufSize idle.buf = true ∧ idle.busy = false ∧
    (after (step (hostTurn 0x100 (some 0x04030201#32) idle))).map (fun t => t.buf) =
      some [(0, 1#8), (1, 2#8), (2, 3#8), (3, 4#8)] ∧
    (after (step (hostTurn 0x1FC (some 0x04030201#32) idle))).map (fun t => t.buf) =
      some [(252, 1#8), (253, 2#8), (254, 3#8), (255, 4#8)] := by decide

theorem witness_BlockResetSetsEveryElement :
    (turn .blockReset (latched .nop idle)).cfg.wf = true ∧
    (turn .blockReset (latched .nop idle)).nextInput = .blockReset ∧
    (turn .blockReset (latched .nop idle)).cfg.hasResetLine = true := by decide

theorem witness_IdleBlockPerformsNothing : idle.cfg.wf = true ∧ idle.busy = false ∧ idle.inputs = [] := by decide

/-- A state with a failed transaction and an open command, sound, and its step. -/
theorem witness_EveryStepKeepsTheStateSound :
    State.Sound { latched .nop idle with trace := [.rd 0#7 255 (List.replicate 255 1#8) true] } ∧
    ∃ t, step { latched .nop idle with trace := [.rd 0#7 255 (List.replicate 255 1#8) true] } = .next t := by
  refine ⟨⟨by decide, by decide, by decide, by decide, ?_⟩, _, rfl⟩
  intro t ht
  simp only [List.mem_singleton] at ht
  subst ht
  rw [Txn.legal, List.length_replicate]
  decide

theorem witness_EveryStepKeepsFailuresExplained :
    State.FailuresExplained { risky [fine] with trace := [.wr 0#7 [1#8] false], result := .xferFail } ∧
    ∃ t, step { latched (.rdreg 1#7) (risky [fine]) with
      trace := [.wr 0#7 [1#8] false], result := .xferFail } = .next t := by
  refine ⟨⟨by decide, fun _ => ⟨_, rfl, rfl⟩⟩, _, rfl⟩

theorem witness_EveryStepKeepsMvalidTruthful :
    opModeApart sureCfg ∧
    State.ModeRecorded { latched (.wrreg 0x01#7 5#8) idle with
      mvalid := true, trace := [.wr 0x01#7 [0x80#8] true] } ∧
    ∃ t, step { latched (.wrreg 0x01#7 5#8) idle with
      mvalid := true, trace := [.wr 0x01#7 [0x80#8] true] } = .next t := by
  refine ⟨⟨by decide, by decide, by decide, by decide⟩, fun _ _ => by decide, _, rfl⟩

theorem witness_ConfigurationIsFixedAndTraceOnlyGrows :
    ∃ t, step (latched .service idle) = .next t ∧ ∃ u, step (turn .blockReset idle) = .next u :=
  ⟨_, rfl, _, rfl⟩

theorem witness_OnlyTheSequencerReachesTheRadio :
    (after (step (latched (.rdreg 1#7) (risky [fails])))).map (fun t => (t.trace, t.result)) ≠
      some (State.reset.trace, State.reset.result) ∧
    (after (step (turn .blockReset { idle with result := .illegal }))).map (fun t => t.result) = some .ok := by
  decide

theorem witness_SendRejectsABadLengthWithoutIo :
    ([] : List Byte).length = 0 ∧ 255 < (List.replicate 256 0#8).length :=
  ⟨rfl, by rw [List.length_replicate]; decide⟩

/-- Either answer of the transaction. -/
theorem witness_RssiIsTheRawByteLess157 :
    idle.cfg.wf = true ∧ idle.busy = false ∧ (⟨[], []⟩ : Surroundings).moves = [] ∧ idle.answersOk = true ∧
    (risky [fails]).cfg.wf = true ∧ (risky [fails]).busy = false ∧ (risky [fails]).answersOk = false := by decide

/-- A word of opcode 0 that is not NOP's. -/
theorem witness_NopOnlyReportsOk :
    (0x00000001#32).extractLsb' 28 4 = 0x0#4 ∧ 0x00000001#32 ≠ 0x00000000#32 := by decide

theorem witness_TransactionsPerCommand : decode ({ idle with cmdl := 0xA0000000#32 } : State).cmdl =
    .illegal .reservedOpcode := by decide

theorem witness_ModeByteAlwaysHasTheLongRangeBit : idle.cfg.wf = true ∧
    { Params.default with codeTransmit := 0x7F }.wf = true := by decide

theorem witness_CalcfreqLatchesTheTuningWord :
    Claims.specTune 1023999999#32 < 2 ^ 24 ∧ 2 ^ 24 ≤ Claims.specTune 1024000000#32 := by decide

theorem witness_OutOfRangeFrequencyWritesNothing :
    1024000000 ≤ ({ idle with freq := 1024000000#32 } : State).freq.toNat ∧
    ({ idle with freq := 1023999999#32 } : State).freq.toNat < 1024000000 := by decide

/-- Either value of POLLEN, and a completed SERVICE with its class. -/
theorem witness_PollAndInterruptPathsAgree :
    idle.pollen = true ∧ ({ idle with pollen := false } : State).pollen = false ∧
    (after (exec .service (hearing [oneByte 0x40#8, fine] idle))).map (fun t => (t.result, t.svc)) =
      some (.ok, .rx) := by decide

/-- Every access of the host in these witnesses meets the premises on the schedule and the configuration. -/
theorem witness_host_premises (off : Nat) (v : Option Word) :
    (hostTurn off v idle).cfg.wf = true ∧ (hostTurn off v idle).nextInput = .host ⟨32, off, v⟩ ∧
    (hostTurn off v (latched .nop idle)).cfg.wf = true ∧
    (hostTurn off v (latched .nop idle)).nextInput = .host ⟨32, off, v⟩ ∧
    (hostTurn off v idle).busy = false ∧ (hostTurn off v (latched .nop idle)).busy = true :=
  ⟨show sureCfg.wf = true by decide, rfl, show sureCfg.wf = true by decide, rfl, rfl, rfl⟩

/-- Each element changes through its own writer: the commands. -/
theorem witness_EachRegisterHasItsOwnWriters :
    (after (step (latched (.rdreg 0#7) (hearing [oneByte 9#8] idle)))).map (fun t => (t.rdata, t.busy)) =
      some (9#8, false) ∧
    (after (step (latched .service (hearing [oneByte 8#8, fine] idle)))).map
      (fun t => (t.lastFlags, t.svc, t.txc)) = some (8#8, .tx, true) ∧
    (after (step (latched (.clrflags 0xF#4) { idle with rxc := true, crcd := true, ovr := true }))).map
      (fun t => (t.rxc, t.crcd, t.ovr)) = some (false, false, false) ∧
    (after (step (latched .calcfreq { idle with freq := 62#32 }))).map (fun t => t.tune) = some 1#24 ∧
    (after (step (latched (.setmode .standby) (hearing [fine] idle)))).map (fun t => (t.mode, t.mvalid)) =
      some (.standby, true) ∧
    (after (step (latched (.wrburst 0x01#7 1#8) (hearing [fine] { idle with mvalid := true })))).map
      (fun t => t.mvalid) = some false ∧
    (after (step (latched (.rdburst 0#7 1#8) (hearing [oneByte 9#8] idle)))).map
      (fun t => (t.buf, t.trace.length)) = some ([(0, 9#8)], 1) := by decide

/-- Each element changes through its own writer: the host, DIO0 and an Illegal word. -/
theorem witness_EachRegisterHasItsOwnWriters_agents :
    (after (step (hostTurn 0x000 (some 0x60000000#32) idle))).map (fun t => (t.cmdl, t.busy)) =
      some (0x60000000#32, true) ∧
    (after (step (hostTurn 0x1FC (some 1#32) (latched .nop idle)))).map (fun t => t.ovr) = some true ∧
    (after (step (turn (.clock true) idle))).map (fun t => (t.sync, t.eprev)) = some ([true, false], false) ∧
    (after (step (turn (.clock false) { idle with sync := [false, true] }))).map (fun t => (t.eprev, t.irqp)) =
      some (true, true) ∧
    (after (step { idle with cmdl := 0xA0000000#32, busy := true })).map (fun t => (t.result, t.busy)) =
      some (.illegal, false) ∧
    (turn (.host ⟨32, 0x000, none⟩) idle).nextInput ≠ .blockReset := by decide

end Sys2Proof.Tests
end

section
/-! The statements of 00_scope.md: what a command ends with and appends to TRACE, what a step records, the bytes of a
frame, and the synchronizer at a level held for many clocks. -/

namespace Sys2Proof.Machine

open Sys2Proof.Claims

/-! ### How a command ends (R22, R241, R243, R244) -/

/-- The ends a command `i` can have, by its RESULT `r` and the transactions `evs` it performed: all completed and OK;
the last one failed and XFER_FAIL; none performed and FREQ_RANGE. `canFail` is XFER_CAN_FAIL. -/
inductive CommandEnd (i : Instr) (canFail : Bool) (evs : List Txn) (r : ResultCode) : Prop
  | ok (hr : r = .ok) (hok : ∀ e ∈ evs, e.ok = true)
  | xferFail (front : List Txn) (last : Txn) (hr : r = .xferFail) (hb : usesBus i = true)
      (hc : canFail = true) (hevs : evs = front ++ [last]) (hlast : last.ok = false)
      (hfront : ∀ e ∈ front, e.ok = true)
  | freqRange (hr : r = .freqRange) (hi : i = .calcfreq ∨ i = .setfreq) (hevs : evs = [])

/-- The command `i` took `s` to a state with the trace and RESULT of `t`: its transactions stand after the old ones,
and it ended as a command can. -/
def State.EndsAs (i : Instr) (s t : State) : Prop :=
  ∃ evs, t.trace = s.trace ++ evs ∧ CommandEnd i s.cfg.xferCanFail evs t.result

/-- A transaction that did not complete needs XFER_CAN_FAIL (R19). -/
theorem State.canFail_of_answersOk_false {s : State} (h : s.answersOk = false) : s.cfg.xferCanFail = true := by
  by_contra hc
  rw [State.answersOk_of_cannot_fail (eq_false_of_ne_true hc)] at h
  cases h

/-- A command that makes no transaction and completes. -/
theorem State.EndsAs.of_complete {i : Instr} {s u : State} (ht : u.trace = s.trace) : s.EndsAs i u.complete :=
  ⟨[], by simp [ht], .ok rfl (by simp)⟩

/-- A frequency out of range: no transaction (R162, R244). -/
theorem State.EndsAs.of_freqRange {i : Instr} (s : State) (hi : i = .calcfreq ∨ i = .setfreq) :
    s.EndsAs i (s.raise .freqRange) :=
  ⟨[], by simp, .freqRange rfl hi rfl⟩

/-- A command of one transaction ends with that transaction's `ok`. -/
theorem State.EndsAs.of_endTransfer {i : Instr} {s u : State} {e : Txn} (hb : usesBus i = true)
    (ht : u.trace = s.trace ++ [e]) (he : e.ok = s.answersOk) :
    s.EndsAs i (State.endTransfer s.answersOk u) := by
  refine ⟨[e], by rw [State.endTransfer_trace, ht], ?_⟩
  rw [State.endTransfer_result]
  cases h : s.answersOk with
  | true => exact .ok rfl (by simp [he, h])
  | false => exact .xferFail [] e rfl hb (State.canFail_of_answersOk_false h) rfl (he.trans h) (by simp)

/-- Several one-byte writes and the end of their command: all completed, or the last one performed failed (R166,
R243). -/
theorem State.EndsAs.of_writeEach {i : Instr} {s u : State} (hb : usesBus i = true) (ht : u.trace = s.trace)
    (hc : u.cfg = s.cfg) (l : List (RegAddr × Byte)) :
    s.EndsAs i (State.endTransfer (State.writeEach l u).2 (State.writeEach l u).1) := by
  obtain ⟨evs, hst, -, -, hall, hfail⟩ := State.writeEach_spec l u
  refine ⟨evs, by rw [State.endTransfer_trace, hst, ht], ?_⟩
  rw [State.endTransfer_result]
  cases h : (State.writeEach l u).2 with
  | true => exact .ok rfl (hall h).2
  | false =>
    obtain ⟨hcan, front, last, hevs, hlast, hfront⟩ := hfail h
    exact .xferFail front last rfl hb (hc ▸ hcan) hevs hlast hfront

/-- SERVICE's bus part: the read failed, or the write-back did, or both completed (R185, R187). -/
theorem State.EndsAs.of_readAndClearFlags {i : Instr} {s u : State} (hb : usesBus i = true)
    (ht : u.trace = s.trace) (hc : u.cfg = s.cfg) : s.EndsAs i u.readAndClearFlags := by
  rw [State.EndsAs, State.readAndClearFlags_eq, ← ht, ← hc]
  simp only []
  split
  · split
    · exact ⟨[_] ++ [_], (State.recordClass_trace _ _).trans (List.append_assoc _ _ _),
        .ok rfl (by simp [Txn.ok])⟩
    · rename_i hu
      have hcan := State.canFail_of_answersOk_false (eq_false_of_ne_true hu)
      exact ⟨[_] ++ [_], List.append_assoc _ _ _, .xferFail [_] _ rfl hb hcan rfl rfl (by simp [Txn.ok])⟩
  · rename_i hu
    have hcan := State.canFail_of_answersOk_false (eq_false_of_ne_true hu)
    exact ⟨[_], rfl, .xferFail [] _ rfl hb hcan rfl rfl (by simp)⟩

/-- Every command appends its transactions to TRACE and ends as a command can. -/
theorem exec_endsAs {i : Instr} {s t : State} (h : exec i s = .next t) : s.EndsAs i t := by
  cases i with
  | nop => cases h; exact .of_complete rfl
  | rdreg a => cases h; exact .of_endTransfer rfl rfl rfl
  | wrreg a d => cases h; exact .of_endTransfer rfl rfl rfl
  | rdburst a n => cases h; exact .of_endTransfer rfl rfl rfl
  | wrburst a n => cases h; exact .of_endTransfer rfl rfl rfl
  | setmode m => cases h; exact .of_endTransfer rfl (State.recordMode_trace _ m _) rfl
  | calcfreq =>
    rw [exec_calcfreq_eq] at h
    cases h
    split
    · exact .of_freqRange s (.inl rfl)
    · exact .of_complete rfl
  | setfreq =>
    rw [exec_setfreq_eq] at h
    cases h
    split
    · exact .of_freqRange s (.inr rfl)
    · exact .of_writeEach rfl rfl rfl _
  | service =>
    rw [exec_service_eq] at h
    cases h
    split
    · exact .of_complete rfl
    · exact .of_readAndClearFlags rfl rfl rfl
  | clrflags m => cases h; exact .of_complete rfl

/-- Without XFER_CAN_FAIL every transaction of a command completed. -/
theorem CommandEnd.all_ok {i : Instr} {evs : List Txn} {r : ResultCode} (h : CommandEnd i false evs r) :
    ∀ e ∈ evs, e.ok = true := by
  cases h with
  | ok _ hok => exact hok
  | xferFail _ _ _ _ hc => cases hc
  | freqRange _ _ hevs => simp [hevs]

/-- XFER_FAIL: the command uses the bus, and its last transaction failed. -/
theorem CommandEnd.last_failed {i : Instr} {c : Bool} {evs : List Txn} (h : CommandEnd i c evs .xferFail) :
    usesBus i = true ∧ ∃ front last, evs = front ++ [last] ∧ last.ok = false := by
  cases h with
  | ok hr => cases hr
  | xferFail front last _ hb _ hevs hlast => exact ⟨hb, front, last, hevs, hlast⟩
  | freqRange hr => cases hr

/-- FREQ_RANGE comes from the two commands that compute a tuning word. -/
theorem CommandEnd.computes_tune {i : Instr} {c : Bool} {evs : List Txn} (h : CommandEnd i c evs .freqRange) :
    i = .calcfreq ∨ i = .setfreq := by
  cases h with
  | ok hr => cases hr
  | xferFail _ _ hr => cases hr
  | freqRange _ hi => exact hi

/-- No command ends with ILLEGAL. -/
theorem CommandEnd.ne_illegal {i : Instr} {c : Bool} {evs : List Txn} {r : ResultCode}
    (h : CommandEnd i c evs r) : r ≠ .illegal := by
  cases h with
  | ok hr => simp [hr]
  | xferFail _ _ hr => simp [hr]
  | freqRange hr => simp [hr]

/-- Every frame leaves chip-select high, on every path, so a command that finds it high leaves it so (R67). -/
theorem exec_csN {i : Instr} {s t : State} (h : exec i s = .next t) (hs : s.csN = true) : t.csN = true := by
  cases i with
  | nop => cases h; exact hs
  | rdreg a => cases h; simp
  | wrreg a d => cases h; simp
  | rdburst a n => cases h; simp
  | wrburst a n => cases h; simp
  | setmode m => cases h; simp
  | calcfreq =>
    rw [exec_calcfreq_eq] at h
    cases h
    split <;> exact hs
  | setfreq =>
    obtain ⟨evs, hst, -⟩ := State.writeEach_spec (tuneWrites s.cfg (tuneOf s.freq)) s.latchTune
    rw [exec_setfreq_eq] at h
    cases h
    split
    · exact hs
    · simp [hst, hs]
  | service =>
    rw [exec_service_eq] at h
    cases h
    split
    · exact hs
    · rw [State.readAndClearFlags_eq]
      simp only []
      split
      · split <;> simp
      · simp
  | clrflags m => cases h; exact hs

/-- Settles O9: every command answers a next state (`exec_answers`), and its end is one of `CommandEnd`. -/
theorem everyCommandEndsIdle : Obligations.EveryCommandEndsIdle := by
  intro i s hcs
  obtain ⟨t, ht⟩ := exec_answers i s
  obtain ⟨-, -, -, -, -, -, hcfg, hinputs, -⟩ := exec_sameBeside ht
  obtain ⟨evs, -, hend⟩ := exec_endsAs ht
  refine ⟨t, ht, (exec_writtenBy ht).1, exec_csN ht hcs, hinputs, hcfg, fun hr => ?_, fun hr => ?_,
    hend.ne_illegal⟩
  · exact (hr ▸ hend).last_failed.1
  · exact (hr ▸ hend).computes_tune

/-! ### What a step records -/

/-- What a step can do to TRACE and RESULT: nothing; what the command it performs does; ILLEGAL and no transaction
(R94); or block reset's values (R270). -/
inductive State.Records (s t : State) : Prop
  | nothing (ht : t.trace = s.trace) (hr : t.result = s.result)
  | command (i : Instr) (hp : performs s i) (he : s.EndsAs i t)
  | illegal (hb : s.busy = true) (ht : t.trace = s.trace) (hr : t.result = .illegal)
  | reset (hn : s.nextInput = .blockReset) (ht : t.trace = []) (hr : t.result = .ok)

/-- The sequencer's turn, with or without an edge beside it: the configuration stays, and it records nothing, a
command or ILLEGAL. -/
theorem sequencerStep_records {s t : State}
    (hn : s.nextInput = .sequencer ∨ s.nextInput = .sequencerWithEdge) (h : sequencerStep s.popInput = .next t) :
    t.cfg = s.cfg ∧ s.Records t := by
  rcases sequencerStep_next h with ⟨-, rfl⟩ | ⟨hb, i, u, hd, he, rfl⟩ | ⟨hb, c, -, rfl⟩
  · exact ⟨rfl, .nothing rfl rfl⟩
  · obtain ⟨-, -, -, -, -, -, hcfg, -⟩ := exec_sameBeside he
    have hend : s.popInput.EndsAs i u := exec_endsAs he
    exact ⟨hcfg, .command i ⟨hb, hd, hn⟩ hend⟩
  · exact ⟨rfl, .illegal hb rfl rfl⟩

/-- Every step keeps the configuration, and `State.Records` is all it does to TRACE and RESULT: the host and the edges
reach neither. -/
theorem step_records {s t : State} (h : step s = .next t) : t.cfg = s.cfg ∧ s.Records t := by
  rcases step_cases h with ⟨hn, hs⟩ | ⟨hn, u, hs, rfl⟩ | ⟨acc, -, ha⟩ | ⟨-, rfl⟩ | ⟨-, rfl⟩ |
    ⟨d, -, rfl⟩ | ⟨hn, rfl⟩
  · exact sequencerStep_records (.inl hn) hs
  · obtain ⟨hc, hrec⟩ := sequencerStep_records (.inr hn) hs
    refine ⟨hc, ?_⟩
    cases hrec with
    | nothing ht hr => exact .nothing ht hr
    | command i hp he => exact .command i hp he
    | illegal hb ht hr => exact .illegal hb ht hr
    | reset hn' => rw [hn] at hn'; cases hn'
  · obtain ⟨-, ⟨-, rfl⟩ | ⟨v, -, rfl⟩⟩ := hostAccess_next ha
    · exact ⟨rfl, .nothing rfl rfl⟩
    · obtain ⟨-, -, -, -, -, -, -, hr, -, ht, hc⟩ := State.hostWrite_keeps acc.off v s.popInput
      exact ⟨hc, .nothing ht hr⟩
  · exact ⟨rfl, .nothing rfl rfl⟩
  · exact ⟨rfl, .nothing rfl rfl⟩
  · exact ⟨rfl, .nothing rfl rfl⟩
  · exact ⟨rfl, .reset hn rfl rfl⟩

/-- The end of a command keeps failures explained, whatever RESULT was before it. -/
theorem State.FailuresExplained.of_endsAs {i : Instr} {s t : State} (hs : s.FailuresExplained)
    (hc : t.cfg = s.cfg) (h : s.EndsAs i t) : t.FailuresExplained := by
  obtain ⟨hok, -⟩ := hs
  obtain ⟨evs, ht, hend⟩ := h
  constructor
  · intro hcan e he
    rw [hc] at hcan
    rw [ht, List.mem_append] at he
    exact he.elim (hok hcan e) ((hcan ▸ hend).all_ok e)
  · intro hr
    obtain ⟨-, front, last, rfl, hlast⟩ := (hr ▸ hend).last_failed
    exact ⟨last, by simp [ht], hlast⟩

/-- Settles O53: of the four things a step can do to TRACE and RESULT, only a command ends with XFER_FAIL, and its own
last transaction explains it. -/
theorem everyStepKeepsFailuresExplained : Obligations.EveryStepKeepsFailuresExplained := by
  intro s t hs h
  obtain ⟨hc, hrec⟩ := step_records h
  cases hrec with
  | nothing ht hr => rwa [State.FailuresExplained, hc, ht, hr]
  | command i _ he => exact hs.of_endsAs hc he
  | illegal _ ht hr =>
    refine ⟨?_, by simp [hr]⟩
    rw [hc, ht]
    exact hs.1
  | reset _ ht hr => simp [State.FailuresExplained, ht, hr]

/-- Settles O55, by what a step records: TRACE stays, or grows by a command's transactions, but for reset. -/
theorem configurationIsFixedAndTraceOnlyGrows : Obligations.ConfigurationIsFixedAndTraceOnlyGrows := by
  intro s t h
  obtain ⟨hc, hrec⟩ := step_records h
  refine ⟨hc, ?_⟩
  cases hrec with
  | nothing ht => exact .inl (ht ▸ List.prefix_refl _)
  | command _ _ he =>
    obtain ⟨evs, ht, -⟩ := he
    exact .inl (ht ▸ List.prefix_append _ _)
  | illegal _ ht => exact .inl (ht ▸ List.prefix_refl _)
  | reset hn => exact .inr hn

/-! ### The sequencer's step by the latched word (R32, R93, R94) -/

/-- The turn with a latched command is exec of it, and then the deferred edge. -/
theorem sequencerStep_of_command {s t : State} {i : Instr} (hb : s.busy = true) (hd : decode s.cmdl = .command i)
    (h : exec i s = .next t) : sequencerStep s = .next t.releaseEdge := by
  rw [sequencerStep, if_pos hb, performLatched]
  simp only [hd, h, onNext]

/-- The turn with an Illegal word latched is RESULT = ILLEGAL and BUSY = 0, and then the deferred edge. -/
theorem sequencerStep_of_illegal {s : State} {c : IllegalCause} (hb : s.busy = true)
    (hd : decode s.cmdl = .illegal c) : sequencerStep s = .next (s.raise .illegal).releaseEdge := by
  rw [sequencerStep, if_pos hb, performLatched]
  simp only [hd, onNext, State.illegalCommand]

/-- A step on the sequencer's turn. -/
theorem step_of_sequencer {s : State} (hw : s.cfg.wf = true) (hn : s.nextInput = .sequencer) :
    step s = sequencerStep s.popInput := by
  rw [step_eq, if_pos hw, hn, agentStep]

/-- A step on the sequencer's turn with an edge in the same clock. -/
theorem step_of_sequencerWithEdge {s : State} (hw : s.cfg.wf = true) (hn : s.nextInput = .sequencerWithEdge) :
    step s = coincidentEdge (sequencerStep s.popInput) := by
  rw [step_eq, if_pos hw, hn, agentStep]

/-- Settles O6: the sequencer's turn by the latched word, and no command touches the deferred edge. -/
theorem stepRunsTheDecodedCommand : Obligations.StepRunsTheDecodedCommand := by
  constructor
  · intro s i hw hb hd
    obtain ⟨t, ht⟩ := exec_answers i s.popInput
    obtain ⟨-, -, -, -, -, -, -, -, -, hheld⟩ := exec_sameBeside ht
    have hseq : sequencerStep s.popInput = .next { t with irqp := t.irqp || s.edgeHeld, edgeHeld := false } := by
      rw [sequencerStep_of_command (s := s.popInput) hb hd ht, State.releaseEdge, hheld, State.popInput_edgeHeld]
    refine ⟨t, ht, fun hn => ?_, fun hn => ?_⟩
    · rw [step_of_sequencer hw hn, hseq]
    · rw [step_of_sequencerWithEdge hw hn, hseq]
      rfl
  · intro s c hw hb hd hn
    refine ⟨_, ?_, rfl⟩
    rw [step_of_sequencerWithEdge hw hn, sequencerStep_of_illegal (s := s.popInput) hb hd]
    rfl

/-! ### The radio's answer (R19, R64) -/

/-- Where XFER_CAN_FAIL, the radio's next answer says whether the transaction completes. -/
theorem State.answersOk_of_answer {s : State} {r : Answer} {rest : List Answer} (hr : s.radio = r :: rest)
    (hc : s.cfg.xferCanFail = true) : s.answersOk = r.ok := by
  simp [State.answersOk, hr, hc]

/-- A byte the radio's next answer lists is the byte read. -/
theorem State.misoByte_of_answer {s : State} {r : Answer} {rest : List Answer} (hr : s.radio = r :: rest) {k : Nat}
    (hk : k < r.miso.length) : s.misoByte k = r.miso[k] := by
  simp [State.misoByte, hr, hk]

/-- Settles O17, from the definitions of `answersOk` and `misoByte`. -/
theorem transfersFailOnlyWhenTheyCan : Obligations.TransfersFailOnlyWhenTheyCan := fun _ =>
  ⟨State.answersOk_of_cannot_fail, fun _ _ hr hc => State.answersOk_of_answer hr hc,
    fun _ _ _ hk hr => State.misoByte_of_answer hr hk⟩

/-! ### The bytes and bits of a frame (R61, R66, R292) -/

@[simp] theorem addressByte_read (a : RegAddr) : addressByte false a = BitVec.setWidth 8 a := by
  simp [addressByte]

@[simp] theorem addressByte_write (a : RegAddr) : addressByte true a = 0x80#8 ||| BitVec.setWidth 8 a := rfl

@[simp] theorem msbFirst_length (b : Byte) : (msbFirst b).length = 8 := by
  simp [msbFirst]

/-- The address byte and one byte for each data byte. -/
@[simp] theorem Txn.mosi_length (p : Params) (t : Txn) : (t.mosi p).length = t.len + 1 := by
  cases t <;> simp [Txn.mosi, Txn.len]

/-- Eight bits for each byte of the frame. -/
theorem Txn.mosiBits_length (p : Params) (t : Txn) : (t.mosiBits p).length = 8 * (t.len + 1) := by
  simp [Txn.mosiBits, List.length_flatMap, Nat.mul_comm]

/-- Settles O18, frame by frame and byte by byte. -/
theorem frameBytesAndBits : Obligations.FrameBytesAndBits := by
  refine ⟨fun p a n d ok => ?_, fun p a v ok => rfl, fun p t => ⟨rfl, t.mosiBits_length p⟩, fun b k hk => ?_⟩
  · rw [Txn.mosi, addressByte_read]
  · simp [msbFirst]

/-! ### The synchronizer under a held level (R181, R182; log 8) -/

/-- A level that stays is no edge, in either direction. -/
@[simp] theorem edgeDetected_self (e : IrqEdge) (b : Bool) : edgeDetected e b b = false := by
  cases e <;> cases b <;> rfl

/-- A chain of `n ≥ 1` flip-flops, the first `k < n` at `b` and the others at `c`: the last is at `c`. -/
theorem getLastD_two_levels {k n : Nat} (b c d : Bool) (h : k < n) :
    (List.replicate k b ++ List.replicate (n - k) c).getLastD d = c := by
  obtain ⟨m, hm⟩ : ∃ m, n - k = m + 1 := ⟨n - k - 1, by omega⟩
  rw [hm, List.replicate_succ', ← List.append_assoc, List.getLastD_concat]

/-- Shifting one more `b` into that chain. -/
theorem shift_two_levels {k n : Nat} (b c : Bool) (h : k < n) :
    (b :: (List.replicate k b ++ List.replicate (n - k) c)).take n =
      List.replicate (k + 1) b ++ List.replicate (n - (k + 1)) c := by
  rw [← List.cons_append, ← List.replicate_succ, List.take_append, List.length_replicate, List.take_replicate,
    List.take_replicate]
  congr 2 <;> omega

/-- At rest at the level of `dio0` a clock changes nothing. -/
theorem State.clockSync_at_rest {s : State} {b : Bool} {n : Nat} (hn : 1 ≤ n) (hs : s.sync = List.replicate n b)
    (he : s.eprev = b) : s.clockSync b = s := by
  have hlast : s.lastStage = b := by
    simpa [State.lastStage, hs] using getLastD_two_levels b b false hn
  have hshift : (b :: s.sync).take s.sync.length = s.sync := by
    rw [hs, List.length_replicate, ← List.replicate_succ, List.take_replicate, min_eq_left (Nat.le_succ n)]
  apply State.ext <;> simp [hlast, hshift, he]

/-- From rest at the other level, a held level travels one stage per clock, and up to clock `n` nothing else
changes. -/
theorem State.clockSync_iterate {s : State} {b : Bool} {n : Nat} (hs : s.sync = List.replicate n !b)
    (he : s.eprev = !b) {k : Nat} (hk : k ≤ n) :
    (State.clockSync b)^[k] s = { s with sync := List.replicate k b ++ List.replicate (n - k) !b } := by
  induction k with
  | zero => simp [← hs]
  | succ k ih =>
    rw [Function.iterate_succ_apply', ih (by omega)]
    have hlast := getLastD_two_levels b (!b) false (show k < n by omega)
    have hlen : (List.replicate k b ++ List.replicate (n - k) !b).length = n := by simp; omega
    have hshift := shift_two_levels b (!b) (show k < n by omega)
    simp only [State.clockSync, State.lastStage, hlast, hlen, hshift, he, edgeDetected_self, Bool.or_false]

/-- One clock later the last stage has the new level, and an edge in the selected direction sets IRQP. -/
theorem State.clockSync_iterate_detects {s : State} {b : Bool} {n : Nat} (hn : 1 ≤ n)
    (hs : s.sync = List.replicate n !b) (he : s.eprev = !b) (hd : edgeDetected s.cfg.irqEdge b (!b) = true) :
    ((State.clockSync b)^[n + 1] s).irqp = true := by
  have hlast : (List.replicate n b).getLastD false = b := by simpa using getLastD_two_levels b b false hn
  rw [Function.iterate_succ_apply', State.clockSync_iterate hs he le_rfl]
  simp only [State.clockSync, State.lastStage, Nat.sub_self, List.replicate_zero, List.append_nil, hlast, he, hd,
    Bool.or_true]

/-- Settles O60: a low level travels through the stages for SYNC_STAGES clocks and is detected at the next; a high one
leaves the synchronizer at rest. -/
theorem synchronizerDetectsAFallingLine : Obligations.SynchronizerDetectsAFallingLine := by
  intro s n hedge hs he hirq hn
  refine ⟨?_, ?_, fun k => ?_⟩
  · rw [State.clockSync_iterate (b := false) hs he le_rfl]
    exact hirq
  · exact State.clockSync_iterate_detects (b := false) hn hs he (by rw [hedge]; rfl)
  · rw [Function.iterate_fixed (State.clockSync_at_rest hn hs he) k]
    exact hirq

end Sys2Proof.Machine
end

section
/-! The statements of 10_state.md: what a step does by the agent that moves, what each register read returns, what each
write does, which step may change which element, and what MVALID says about the trace. -/

namespace Sys2Proof

/-! ### Decoding a command's own word (R90, R95) -/

open Sys2Proof.Laws.EncodedFields (Statement opcode unusedBits)

/-- The law of `Laws.EncodedFields` for every command. -/
theorem encode_fields (i : Instr) : Statement i := by
  cases i with
  | nop => exact Laws.EncodedFields.nop
  | rdreg a => exact Laws.EncodedFields.rdreg a
  | wrreg a d => exact Laws.EncodedFields.wrreg a d
  | rdburst a n => exact Laws.EncodedFields.rdburst a n
  | wrburst a n => exact Laws.EncodedFields.wrburst a n
  | setmode m => exact Laws.EncodedFields.setmode m
  | calcfreq => exact Laws.EncodedFields.calcfreq
  | setfreq => exact Laws.EncodedFields.setfreq
  | service => exact Laws.EncodedFields.service
  | clrflags m => exact Laws.EncodedFields.clrflags m

/-- The same command with its operands read from the fields of a word (R91, R95). -/
def Instr.withFieldsOf (w : Word) : Instr → Instr
  | .nop => .nop
  | .rdreg _ => .rdreg (fieldAddr w)
  | .wrreg _ _ => .wrreg (fieldAddr w) (fieldData w)
  | .rdburst _ _ => .rdburst (fieldAddr w) (fieldLen w)
  | .wrburst _ _ => .wrburst (fieldAddr w) (fieldLen w)
  | .setmode _ => .setmode (modeOfSelector (fieldMode w))
  | .calcfreq => .calcfreq
  | .setfreq => .setfreq
  | .service => .service
  | .clrflags _ => .clrflags (fieldMask w)

/-- A word with a command's opcode and zeros in its unused fields selects that command's row (R95). -/
theorem decode_of_fields {i : Instr} {w : Word} (ho : fieldOpc w = opcode i) (hz : w &&& unusedBits i = 0#32) :
    decode w = .command (i.withFieldsOf w) := by
  cases i <;> simp only [opcode, unusedBits] at ho hz <;> simp [decode_eq, ho, hz, Instr.withFieldsOf]

/-- The operands stand in the fields of a command's own word (R90, R91). -/
theorem Instr.withFieldsOf_encode (i : Instr) : i.withFieldsOf (encode i) = i := by
  cases i with
  | clrflags m => simp [Instr.withFieldsOf, encode, BitVec.extractLsb'_setWidth_of_le]
  | nop | rdreg _ | wrreg _ _ | rdburst _ _ | wrburst _ _ | setmode _ | calcfreq | setfreq | service =>
    simp [Instr.withFieldsOf, encode]

/-- The decoder gives back the command whose word it reads. -/
theorem decode_encode (i : Instr) : decode (encode i) = .command i := by
  obtain ⟨ho, hz⟩ := encode_fields i
  rw [decode_of_fields ho hz, i.withFieldsOf_encode]

end Sys2Proof

namespace Sys2Proof.Machine

open Sys2Proof.Claims

/-! ### What a step does, by the agent that moves (R8) -/

/-- It is the sequencer's turn, with or without an edge in the same clock. -/
def State.sequencerTurn (s : State) : Prop := s.nextInput = .sequencer ∨ s.nextInput = .sequencerWithEdge

/-- An edge falls in the clock of the sequencer's turn (R184). -/
def State.edgeBeside (s : State) : Bool := decide (s.nextInput = .sequencerWithEdge)

/-- What a step from `s` to `t` did: the sequencer found no command, performed one, or found an Illegal word; the host
read or wrote; an edge, a clock of the synchronizer, or block reset. -/
inductive State.Moves (s t : State) : Prop
  | idle (hn : s.sequencerTurn) (hb : s.busy = false)
      (ht : t = s.popInput.withEdges (s.irqp || s.edgeBeside) s.edgeHeld)
  | command (i : Instr) (u : State) (hp : performs s i) (he : exec i s.popInput = .next u)
      (ht : t = u.withEdges (u.irqp || s.edgeHeld || s.edgeBeside) false)
  | illegal (hn : s.sequencerTurn) (hb : s.busy = true)
      (ht : t = (s.popInput.raise .illegal).withEdges (s.irqp || s.edgeHeld || s.edgeBeside) false)
  | hostRead (off : Nat) (hn : s.nextInput = .host ⟨32, off, none⟩) (ht : t = s.popInput.hostRead off)
  | hostWrite (off : Nat) (v : Word) (hn : s.nextInput = .host ⟨32, off, some v⟩)
      (ht : t = s.popInput.hostWrite off v)
  | edge (hn : s.nextInput = .edge) (ht : t = s.popInput.setIrqp)
  | edgeDuring (hn : s.nextInput = .edgeDuring) (ht : t = s.popInput.deferEdge)
  | clock (d : Bool) (hn : s.nextInput = .clock d) (ht : t = s.popInput.clockSync d)
  | reset (hn : s.nextInput = .blockReset) (ht : t = s.popInput.blockReset)

/-- The sequencer's turn, whatever edge stands beside it. -/
theorem State.Moves.of_turn {s u : State} (hn : s.sequencerTurn) (h : sequencerStep s.popInput = .next u) :
    s.Moves (u.withEdges (u.irqp || s.edgeBeside) u.edgeHeld) := by
  rcases sequencerStep_next h with ⟨hb, rfl⟩ | ⟨hb, i, v, hd, he, rfl⟩ | ⟨hb, c, -, rfl⟩
  · exact .idle hn hb rfl
  · obtain ⟨-, -, -, -, -, -, -, -, -, hheld⟩ := exec_sameBeside he
    refine .command i v ⟨hb, hd, hn⟩ he ?_
    rw [State.releaseEdge_irqp, hheld]
    rfl
  · exact .illegal hn hb rfl

/-- An admitted access is 32 bits wide (R70). -/
theorem BusAccess.eq_of_admitted {acc : BusAccess} (h : acc.admitted = true) : acc = ⟨32, acc.off, acc.write⟩ := by
  simp only [BusAccess.admitted, Bool.and_eq_true, decide_eq_true_eq] at h
  obtain ⟨⟨hwidth, -⟩, -⟩ := h
  rw [← hwidth]

/-- Every step is one of these moves. -/
theorem step_moves {s t : State} (h : step s = .next t) : s.Moves t := by
  rcases step_cases h with ⟨hn, hs⟩ | ⟨hn, u, hs, rfl⟩ | ⟨acc, hn, ha⟩ | ⟨hn, ht⟩ | ⟨hn, ht⟩ | ⟨d, hn, ht⟩ | ⟨hn, ht⟩
  · have hbeside : s.edgeBeside = false := by simp [State.edgeBeside, hn]
    have hm := State.Moves.of_turn (.inl hn) hs
    rw [hbeside, Bool.or_false] at hm
    exact hm
  · have hbeside : s.edgeBeside = true := by simp [State.edgeBeside, hn]
    have hm := State.Moves.of_turn (.inr hn) hs
    rw [hbeside, Bool.or_true] at hm
    exact hm
  · obtain ⟨hadm, hacc⟩ := hostAccess_next ha
    rw [BusAccess.eq_of_admitted hadm] at hn
    rcases hacc with ⟨hw, ht⟩ | ⟨v, hw, ht⟩
    · exact .hostRead acc.off (hw ▸ hn) ht
    · exact .hostWrite acc.off v (hw ▸ hn) ht
  · exact .edge hn ht
  · exact .edgeDuring hn ht
  · exact .clock d hn ht
  · exact .reset hn ht

/-! ### MVALID and the last mode write (R44, R112, R115, R141, R143) -/

/-- One more transaction that does not write ADDR_OPMODE. -/
theorem State.ModeRecorded.frame {s : State} (hs : s.ModeRecorded) (n : Nat) {e : Txn}
    (he : opModeApart s.cfg → e.writesTo (addrOpMode s.cfg) = false) : (s.frame n e).ModeRecorded := by
  intro hap hmv
  rw [State.frame_trace, State.frame_cfg, lastWriteTo_append_one, he hap]
  exact hs hap hmv

/-- A read writes no register. -/
theorem State.ModeRecorded.frame_rd {s : State} (hs : s.ModeRecorded) {n : Nat} {a : RegAddr} {k : Nat} {d : List Byte}
    {ok : Bool} : (s.frame n (.rd a k d ok)).ModeRecorded :=
  hs.frame n fun _ => rfl

/-- A write to another register. -/
theorem State.ModeRecorded.frame_wr {s : State} (hs : s.ModeRecorded) (n : Nat) {a : RegAddr} (v : List Byte) (ok : Bool)
    (ha : opModeApart s.cfg → addrOpMode s.cfg ≠ a) : (s.frame n (.wr a v ok)).ModeRecorded :=
  hs.frame n fun hap => by simp [Txn.writesTo, (ha hap).symm]

/-- A raw write: at ADDR_OPMODE it carries no byte, or MVALID is lost. -/
theorem State.ModeRecorded.rawWrite {s : State} (hs : s.ModeRecorded) {k n : Nat} {a : RegAddr} {v : List Byte} {ok : Bool}
    (hn : v.length = n) : ((s.frame k (.wr a v ok)).noteRawWrite a n).ModeRecorded := by
  subst hn
  intro hap hmv
  simp only [State.noteRawWrite_mvalid, State.frame_mvalid, State.frame_cfg, Bool.and_eq_true, Bool.not_eq_true',
    Bool.and_eq_false_iff, decide_eq_false_iff_not, not_le, Nat.lt_one_iff, List.length_eq_zero_iff] at hmv
  obtain ⟨hold, hraw⟩ := hmv
  refine (hs.frame k fun _ => ?_) hap hold
  rcases hraw with ha | hv
  · simp [Txn.writesTo, of_decide_eq_false ha]
  · simp [Txn.writesTo, hv]

/-- SETMODE's write and what it records of it: the write is the last one to ADDR_OPMODE, or MVALID is lost. -/
theorem State.ModeRecorded.setmode (s : State) (m : OpMode) (ok : Bool) :
    ((s.frame 1 (.wr (addrOpMode s.cfg) [modeByte s.cfg m] ok)).recordMode m ok).ModeRecorded := by
  intro _ hmv
  rw [State.recordMode_mvalid] at hmv
  subst hmv
  simp [lastWriteTo_append_one, Txn.writesTo]

/-- RDATA says nothing of the mode. -/
theorem State.ModeRecorded.setRdata {s : State} (hs : s.ModeRecorded) {b : Byte} : (s.setRdata b).ModeRecorded := hs

/-- Nor does BUF. -/
theorem State.ModeRecorded.writeBuf {s : State} (hs : s.ModeRecorded) {a : Nat} {l : List Byte} :
    (s.writeBuf a l).ModeRecorded := hs

/-- Several writes to other registers. -/
theorem State.ModeRecorded.writeEach {l : List (RegAddr × Byte)} {s : State} (hs : s.ModeRecorded)
    (hl : opModeApart s.cfg → ∀ w ∈ l, addrOpMode s.cfg ≠ w.1) : (State.writeEach l s).1.ModeRecorded := by
  induction l generalizing s with
  | nil => exact hs
  | cons w rest ih =>
    obtain ⟨a, b⟩ := w
    have hframe (ok : Bool) : (s.frame 1 (.wr a [b] ok)).ModeRecorded :=
      hs.frame_wr 1 [b] ok fun hap => hl hap _ (List.mem_cons_self ..)
    rw [State.writeEach_cons]
    split
    · exact ih (hframe true) fun hap w hw => hl hap w (List.mem_cons_of_mem _ hw)
    · exact hframe false

/-- The end of a command says nothing of the mode. -/
theorem State.ModeRecorded.endTransfer {s : State} (hs : s.ModeRecorded) (ok : Bool) :
    (State.endTransfer ok s).ModeRecorded := by
  cases ok <;> exact hs

/-- Nor does a class. -/
theorem State.ModeRecorded.recordClass {s : State} (hs : s.ModeRecorded) (c : SvcClass) :
    (s.recordClass c).ModeRecorded := by
  cases c <;> exact hs

/-- SERVICE's bus part reads and writes the IRQ flags only. -/
theorem State.ModeRecorded.readAndClearFlags {s : State} (hs : s.ModeRecorded) :
    s.readAndClearFlags.ModeRecorded := by
  have hapart (hap : opModeApart s.cfg) : addrOpMode s.cfg ≠ addrIrqFlags s.cfg := by
    obtain ⟨-, -, -, hirq⟩ := hap
    exact hirq
  have hrd (ok : Bool) : (s.frame 1 (.rd (addrIrqFlags s.cfg) 1 [s.misoByte 0] ok)).ModeRecorded := hs.frame_rd
  have hwr (ok : Bool) : (((s.frame 1 (.rd (addrIrqFlags s.cfg) 1 [s.misoByte 0] true)).setLastFlags
      (s.misoByte 0)).frame 1 (.wr (addrIrqFlags s.cfg) [s.misoByte 0] ok)).ModeRecorded :=
    State.ModeRecorded.frame_wr (hrd true) 1 _ ok hapart
  rw [State.readAndClearFlags_eq]
  simp only []
  split
  · split
    · exact (hwr true).recordClass _
    · exact hwr false
  · exact hrd false

/-- Every command keeps MVALID truthful. -/
theorem exec_modeRecorded {i : Instr} {s t : State} (hs : s.ModeRecorded) (h : exec i s = .next t) :
    t.ModeRecorded := by
  cases i with
  | nop => cases h; exact hs
  | rdreg a => cases h; exact .endTransfer (.setRdata hs.frame_rd) _
  | wrreg a d => cases h; exact .endTransfer (hs.rawWrite rfl) _
  | rdburst a n => cases h; exact .endTransfer (.writeBuf hs.frame_rd) _
  | wrburst a n => cases h; exact .endTransfer (hs.rawWrite (s.burstData_length _)) _
  | setmode m => cases h; exact .endTransfer (.setmode s m _) _
  | calcfreq =>
    rw [exec_calcfreq_eq] at h
    cases h
    split <;> exact hs
  | setfreq =>
    rw [exec_setfreq_eq] at h
    cases h
    split
    · exact hs
    · refine .endTransfer (.writeEach (s := s.latchTune) hs fun hap => ?_) _
      obtain ⟨hmsb, hmid, hlsb, -⟩ := hap
      simpa [tuneWrites] using ⟨hmsb, hmid, hlsb⟩
  | service =>
    rw [exec_service_eq] at h
    cases h
    split
    · exact hs
    · exact State.ModeRecorded.readAndClearFlags (s := s.clearIrqp) hs
  | clrflags m => cases h; exact hs

/-- A host write says nothing of the mode. -/
theorem State.ModeRecorded.hostWrite {s : State} (hs : s.ModeRecorded) (off : Nat) (v : Word) :
    (s.hostWrite off v).ModeRecorded := by
  obtain ⟨-, -, -, -, -, hm, hmv, -, -, ht, hc⟩ := State.hostWrite_keeps off v s
  rwa [State.ModeRecorded, hm, hmv, ht, hc]

/-- Settles O54, by the agent that moves: only commands write the mode or the trace, and reset clears MVALID. -/
theorem everyStepKeepsMvalidTruthful : Obligations.EveryStepKeepsMvalidTruthful := by
  intro s t hs h
  cases step_moves h with
  | idle _ _ ht => subst ht; exact hs
  | command i u _ he ht =>
    have hu : u.ModeRecorded := exec_modeRecorded (s := s.popInput) hs he
    subst ht
    exact hu
  | illegal _ _ ht => subst ht; exact hs
  | hostRead _ _ ht => subst ht; exact hs
  | hostWrite off v _ ht =>
    subst ht
    exact State.ModeRecorded.hostWrite (s := s.popInput) hs off v
  | edge _ ht => subst ht; exact hs
  | edgeDuring _ ht => subst ht; exact hs
  | clock _ _ ht => subst ht; exact hs
  | reset _ ht =>
    subst ht
    intro _ hmv
    cases hmv

/-- Settles O51: BUF and TRACE are empty, RESULT is OK and MVALID is 0. -/
theorem resetStateMeetsTheInvariants : Obligations.ResetStateMeetsTheInvariants := by
  refine ⟨⟨rfl, rfl, rfl, fun _ => rfl, ?_⟩, ⟨?_, fun hr => ?_⟩, fun _ hmv => ?_⟩
  · simp [State.reset]
  · simp [State.reset]
  · cases hr
  · cases hmv

/-! ### IRQP and the deferred edge (R43, R78, R182) -/

@[simp] theorem State.withEdges_irqp (p e : Bool) (s : State) : (s.withEdges p e).irqp = p := rfl

/-- Commands leave IRQP alone but for SERVICE, which clears it. -/
theorem exec_irqp {i : Instr} {s t : State} (h : exec i s = .next t) :
    t.irqp = s.irqp ∨ (t.irqp = false ∧ i = .service) := by
  obtain ⟨-, -, -, -, -, hirqp, -⟩ := exec_writtenBy h
  refine hirqp.imp_right fun hi => ⟨?_, hi⟩
  rw [hi, exec_service_eq] at h
  cases h
  split
  · rfl
  · exact State.readAndClearFlags_irqp s.clearIrqp

/-- The moves that can set IRQP. -/
def State.MaySetIrqp (s : State) : Prop :=
  s.nextInput = .edge ∨ s.nextInput = .edgeDuring ∨ s.nextInput = .sequencerWithEdge ∨
    (∃ d, s.nextInput = .clock d) ∨ (s.nextInput = .sequencer ∧ s.busy = true ∧ s.edgeHeld = true)

/-- The edges of the sequencer's turn are among them. -/
theorem State.MaySetIrqp.of_turn {s : State} (hn : s.sequencerTurn) (hb : s.busy = true)
    (he : (s.edgeHeld || s.edgeBeside) = true) : s.MaySetIrqp := by
  rcases hn with hn | hn
  · exact .inr (.inr (.inr (.inr ⟨hn, hb, by simpa [State.edgeBeside, hn] using he⟩)))
  · exact .inr (.inr (.inl hn))

/-- What a step can do to IRQP: leave it, set it by an edge, or clear it by SERVICE or block reset. -/
theorem step_irqp {s t : State} (h : step s = .next t) :
    t.irqp = s.irqp ∨ (t.irqp = true ∧ s.MaySetIrqp) ∨
      (t.irqp = false ∧ (performs s .service ∨ s.nextInput = .blockReset)) := by
  cases step_moves h with
  | idle hn hb ht =>
    subst ht
    cases he : s.edgeBeside with
    | false => exact .inl (by simp)
    | true => exact .inr (.inl ⟨by simp, .inr (.inr (.inl (of_decide_eq_true he)))⟩)
  | command i u hp hu ht =>
    subst ht
    obtain ⟨hb, hd, hn⟩ := id hp
    cases he : s.edgeHeld || s.edgeBeside with
    | true => exact .inr (.inl ⟨by simp [Bool.or_assoc, he], .of_turn hn hb he⟩)
    | false =>
      simp only [State.withEdges_irqp, Bool.or_assoc, he, Bool.or_false]
      exact (exec_irqp hu).imp_right fun ⟨h0, hi⟩ => .inr ⟨h0, .inl (hi ▸ hp)⟩
  | illegal hn hb ht =>
    subst ht
    cases he : s.edgeHeld || s.edgeBeside with
    | true => exact .inr (.inl ⟨by simp [Bool.or_assoc, he], .of_turn hn hb he⟩)
    | false => exact .inl (by simp [Bool.or_assoc, he])
  | hostRead off hn ht => subst ht; exact .inl rfl
  | hostWrite off v hn ht =>
    subst ht
    obtain ⟨-, -, -, hirqp, -⟩ := State.hostWrite_keeps off v s.popInput
    exact .inl hirqp
  | edge hn ht => subst ht; exact .inr (.inl ⟨rfl, .inl hn⟩)
  | edgeDuring hn ht =>
    subst ht
    cases hi : s.irqp || !s.busy with
    | true => exact .inr (.inl ⟨hi, .inr (.inl hn)⟩)
    | false => exact .inl (by simp_all)
  | clock d hn ht =>
    subst ht
    cases hi : (s.popInput.clockSync d).irqp with
    | true => exact .inr (.inl ⟨rfl, .inr (.inr (.inr (.inl ⟨d, hn⟩)))⟩)
    | false => exact .inl (by simp_all)
  | reset hn ht => subst ht; exact .inr (.inr ⟨rfl, .inr hn⟩)

/-- A host write leaves the deferred edge alone. -/
theorem State.hostWrite_edgeHeld (off : Nat) (v : Word) (s : State) : (s.hostWrite off v).edgeHeld = s.edgeHeld := by
  rcases State.hostWrite_cases off v s with e | ⟨-, -, e⟩ | ⟨-, -, e⟩ | ⟨-, e⟩ | ⟨-, -, e⟩ | ⟨-, -, e⟩ <;>
    rw [e] <;> rfl

/-- What a step can do to the deferred edge: leave it, defer one while a command is latched, or end it with the
latched command's step or with block reset. -/
theorem step_edgeHeld {s t : State} (h : step s = .next t) :
    t.edgeHeld = s.edgeHeld ∨ (s.nextInput = .edgeDuring ∧ s.busy = true) ∨
      (t.edgeHeld = false ∧ ((s.busy = true ∧ s.sequencerTurn) ∨ s.nextInput = .blockReset)) := by
  cases step_moves h with
  | idle hn hb ht => subst ht; exact .inl rfl
  | command i u hp hu ht =>
    subst ht
    obtain ⟨hb, -, hn⟩ := hp
    exact .inr (.inr ⟨rfl, .inl ⟨hb, hn⟩⟩)
  | illegal hn hb ht => subst ht; exact .inr (.inr ⟨rfl, .inl ⟨hb, hn⟩⟩)
  | hostRead off hn ht => subst ht; exact .inl rfl
  | hostWrite off v hn ht =>
    subst ht
    exact .inl (State.hostWrite_edgeHeld off v s.popInput)
  | edge hn ht => subst ht; exact .inl rfl
  | edgeDuring hn ht =>
    subst ht
    cases hb : s.busy with
    | true => exact .inr (.inl ⟨hn, rfl⟩)
    | false => exact .inl (by simp [hb])
  | clock d hn ht => subst ht; exact .inl rfl
  | reset hn ht => subst ht; exact .inr (.inr ⟨rfl, .inr hn⟩)

/-- Settles O31, by what a step can do to IRQP and to the deferred edge. -/
theorem onlyDio0SetsAndOnlyServiceClearsIrqp : Obligations.OnlyDio0SetsAndOnlyServiceClearsIrqp := by
  intro s t h
  refine ⟨fun h0 h1 => ?_, fun h0 h1 => ?_, fun h1 h0 => ?_⟩
  · rcases step_irqp h with he | ⟨-, hm⟩ | ⟨h0', -⟩
    · simp [he, h0] at h1
    · exact hm
    · simp [h0'] at h1
  · rcases step_edgeHeld h with he | hm | ⟨h0', -⟩
    · simp [he, h0] at h1
    · exact hm
    · simp [h0'] at h1
  · rcases step_irqp h with he | ⟨h1', -⟩ | ⟨-, hm⟩
    · simp [he, h1] at h0
    · simp [h1'] at h0
    · exact hm

/-! ### OVR (R47, R245) -/

/-- A write to CMD, FREQ or BUF while BUSY = 1 only sets OVR. -/
theorem State.hostWrite_overrun {off : Nat} (v : Word) {s : State} (hb : s.busy = true)
    (ho : off = 0x000 ∨ off = 0x010 ∨ 0x100 ≤ off) : s.hostWrite off v = s.setOvr := by
  rw [State.hostWrite]
  rcases ho with rfl | rfl | ho
  · exact if_pos hb
  · exact if_pos hb
  · rw [windowReg_bufWord ho]
    exact if_pos hb

/-- A host write leaves OVR alone, or is such an overrun. -/
theorem State.hostWrite_ovr (off : Nat) (v : Word) (s : State) :
    (s.hostWrite off v).ovr = s.ovr ∨
      ((s.hostWrite off v).ovr = true ∧ s.busy = true ∧ (off = 0x000 ∨ off = 0x010 ∨ 0x100 ≤ off)) := by
  rcases State.hostWrite_cases off v s with e | ⟨hb, ho, e⟩ | ⟨-, -, e⟩ | ⟨-, e⟩ | ⟨-, -, e⟩ | ⟨-, -, e⟩ <;> rw [e]
  · exact .inl rfl
  · exact .inr ⟨rfl, hb, ho⟩
  all_goals exact .inl rfl

/-- Commands leave OVR alone but for CLRFLAGS with mask bit 3, which clears it. -/
theorem exec_ovr {i : Instr} {s t : State} (h : exec i s = .next t) :
    t.ovr = s.ovr ∨ (t.ovr = false ∧ ∃ m, i = .clrflags m ∧ m.getLsbD 3 = true) := by
  obtain ⟨-, -, -, -, hovr, -⟩ := exec_writtenBy h
  refine hovr.imp_right fun ⟨m, hi, hm⟩ => ⟨?_, m, hi, hm⟩
  subst hi
  cases h
  simp [hm]

/-- What a step can do to OVR: leave it, set it by an overrun, or clear it by CLRFLAGS or block reset. -/
theorem step_ovr {s t : State} (h : step s = .next t) :
    t.ovr = s.ovr ∨
      (t.ovr = true ∧ s.busy = true ∧ ∃ off v, s.nextInput = .host ⟨32, off, some v⟩ ∧
        (off = 0x000 ∨ off = 0x010 ∨ 0x100 ≤ off)) ∨
      (t.ovr = false ∧
        ((∃ m, performs s (.clrflags m) ∧ m.getLsbD 3 = true) ∨ s.nextInput = .blockReset)) := by
  cases step_moves h with
  | idle hn hb ht => subst ht; exact .inl rfl
  | command i u hp hu ht =>
    subst ht
    exact (exec_ovr hu).imp_right fun ⟨h0, m, hi, hm⟩ => .inr ⟨h0, .inl ⟨m, hi ▸ hp, hm⟩⟩
  | illegal hn hb ht => subst ht; exact .inl rfl
  | hostRead off hn ht => subst ht; exact .inl rfl
  | hostWrite off v hn ht =>
    subst ht
    exact (State.hostWrite_ovr off v s.popInput).imp_right fun ⟨h1, hb, ho⟩ => .inl ⟨h1, hb, off, v, hn, ho⟩
  | edge hn ht => subst ht; exact .inl rfl
  | edgeDuring hn ht => subst ht; exact .inl rfl
  | clock d hn ht => subst ht; exact .inl rfl
  | reset hn ht => subst ht; exact .inr (.inr ⟨rfl, .inr hn⟩)

/-- Settles O45, by what a step can do to OVR. -/
theorem ovrIsStickyUntilClrflags : Obligations.OvrIsStickyUntilClrflags := by
  intro s t h
  refine ⟨fun acc v hb hn hw ho => ?_, fun h0 h1 => ?_, fun h1 h0 => ?_⟩
  · obtain ⟨-, ha⟩ := step_next h
    rw [hn] at ha
    obtain ⟨-, ⟨hr, -⟩ | ⟨v', -, rfl⟩⟩ := hostAccess_next ha
    · cases hw.symm.trans hr
    · rw [State.hostWrite_overrun (s := s.popInput) v' hb ho]
      rfl
  · rcases step_ovr h with he | ⟨-, hb, off, v, hn, ho⟩ | ⟨h0', -⟩
    · simp [he, h0] at h1
    · exact ⟨hb, _, v, hn, rfl, ho⟩
    · simp [h0'] at h1
  · rcases step_ovr h with he | ⟨h1', -⟩ | ⟨-, hm⟩
    · simp [he, h1] at h0
    · simp [h1'] at h0
    · exact hm

/-! ### TRACE and RESULT (R45, R60, R76) -/

/-- Settles O56, by the agent that moves: the two moves of the sequencer that perform something end with BUSY = 0. -/
theorem onlyTheSequencerReachesTheRadio : Obligations.OnlyTheSequencerReachesTheRadio := by
  intro s t h hne
  cases step_moves h with
  | idle hn hb ht => subst ht; simp [State.withEdges] at hne
  | command i u hp hu ht =>
    subst ht
    obtain ⟨hb, -, hn⟩ := hp
    exact .inl ⟨hb, (exec_writtenBy hu).1, hn⟩
  | illegal hn hb ht => subst ht; exact .inl ⟨hb, rfl, hn⟩
  | hostRead off hn ht => subst ht; simp at hne
  | hostWrite off v hn ht =>
    subst ht
    obtain ⟨-, -, -, -, -, -, -, hr, -, htr, -⟩ := State.hostWrite_keeps off v s.popInput
    simp [hr, htr] at hne
  | edge hn ht => subst ht; simp at hne
  | edgeDuring hn ht => subst ht; simp at hne
  | clock d hn ht => subst ht; simp at hne
  | reset hn ht => exact .inr hn

/-! ### The writers of each element (R30) -/

/-- The commands that WrittenBy lets touch CS_N and TRACE use the bus. -/
theorem usesBus_of_ne {i : Instr} (h : i ≠ .nop ∧ i ≠ .calcfreq ∧ ∀ m, i ≠ .clrflags m) : usesBus i = true := by
  obtain ⟨hnop, hcalc, hclr⟩ := h
  cases i with
  | nop => exact absurd rfl hnop
  | calcfreq => exact absurd rfl hcalc
  | clrflags m => exact absurd rfl (hclr m)
  | rdreg _ | wrreg _ _ | rdburst _ _ | wrburst _ _ | setmode _ | setfreq | service => rfl

/-- The elements that commands alone write, in every step but block reset. -/
theorem step_command_writers {s t : State} (h : step s = .next t) (hnr : s.nextInput ≠ .blockReset) :
    (t.txc ≠ s.txc → performs s .service ∨ ∃ m, performs s (.clrflags m) ∧ m.getLsbD 0 = true) ∧
    (t.rxc ≠ s.rxc → performs s .service ∨ ∃ m, performs s (.clrflags m) ∧ m.getLsbD 1 = true) ∧
    (t.crcd ≠ s.crcd → performs s .service ∨ ∃ m, performs s (.clrflags m) ∧ m.getLsbD 2 = true) ∧
    (t.mode ≠ s.mode → performs s (.setmode t.mode)) ∧
    (t.mvalid ≠ s.mvalid → (∃ m, performs s (.setmode m)) ∨ (∃ d, performs s (.wrreg (addrOpMode s.cfg) d)) ∨
      ∃ n, 1 ≤ n.toNat ∧ performs s (.wrburst (addrOpMode s.cfg) n)) ∧
    (t.svc ≠ s.svc → performs s .service) ∧
    (t.rdata ≠ s.rdata → ∃ a, performs s (.rdreg a)) ∧
    (t.lastFlags ≠ s.lastFlags → performs s .service) ∧
    (t.tune ≠ s.tune → performs s .calcfreq ∨ performs s .setfreq) ∧
    (t.csN ≠ s.csN ∨ t.trace ≠ s.trace → ∃ i, performs s i ∧ usesBus i = true) := by
  cases step_moves h with
  | command i u hp hu ht =>
    subst ht
    obtain ⟨-, htxc, hrxc, hcrcd, -, -, hsvc, hlast, hmode, hmv, hrdata, htune, -, hbus⟩ := exec_writtenBy hu
    have hperf {j : Instr} (hi : i = j) : performs s j := hi ▸ hp
    have hsticky {k : Nat} (hi : i = .service ∨ ∃ m, i = .clrflags m ∧ m.getLsbD k = true) :
        performs s .service ∨ ∃ m, performs s (.clrflags m) ∧ m.getLsbD k = true :=
      hi.imp hperf fun ⟨m, hi, hm⟩ => ⟨m, hperf hi, hm⟩
    refine ⟨fun hne => hsticky (htxc.resolve_left hne), fun hne => hsticky (hrxc.resolve_left hne),
      fun hne => hsticky (hcrcd.resolve_left hne), fun hne => hperf (hmode.resolve_left hne), fun hne => ?_,
      fun hne => hperf (hsvc.resolve_left hne), fun hne => (hrdata.resolve_left hne).imp fun a => hperf,
      fun hne => hperf (hlast.resolve_left hne), fun hne => (htune.resolve_left hne).imp hperf hperf,
      fun hne => ⟨i, hp, usesBus_of_ne (hbus.resolve_left (not_and_or.2 hne))⟩⟩
    rcases hmv.resolve_left hne with ⟨m, hi⟩ | ⟨d, hi⟩ | ⟨n, hn, hi⟩
    · exact .inl ⟨m, hperf hi⟩
    · exact .inr (.inl ⟨d, hperf hi⟩)
    · exact .inr (.inr ⟨n, hn, hperf hi⟩)
  | hostWrite off v hn ht =>
    subst ht
    rcases State.hostWrite_cases off v s.popInput with e | ⟨-, -, e⟩ | ⟨-, -, e⟩ | ⟨-, e⟩ | ⟨-, -, e⟩ | ⟨-, -, e⟩ <;>
      simp [e]
  | reset hn ht => exact absurd hn hnr
  | idle hn hb ht => subst ht; simp [State.withEdges]
  | illegal hn hb ht => subst ht; simp [State.withEdges]
  | hostRead off hn ht => subst ht; simp
  | edge hn ht => subst ht; simp
  | edgeDuring hn ht => subst ht; simp
  | clock d hn ht => subst ht; simp

/-- The elements that the host's writes, the synchronizer's clock or the end of a command write, in every step but
block reset. -/
theorem step_window_writers {s t : State} (h : step s = .next t) (hnr : s.nextInput ≠ .blockReset) :
    (s.busy = false → t.busy = true → s.nextInput = .host ⟨32, 0x000, some t.cmdl⟩) ∧
    (s.busy = true → t.busy = false → s.sequencerTurn) ∧
    (t.cmdl ≠ s.cmdl → s.busy = false ∧ s.nextInput = .host ⟨32, 0x000, some t.cmdl⟩) ∧
    (t.sync ≠ s.sync ∨ t.eprev ≠ s.eprev → ∃ d, s.nextInput = .clock d) ∧
    (t.radioRst ≠ s.radioRst ∨ t.pollen ≠ s.pollen → ∃ v, s.nextInput = .host ⟨32, 0x008, some v⟩) ∧
    (t.freq ≠ s.freq → s.busy = false ∧ s.nextInput = .host ⟨32, 0x010, some t.freq⟩) ∧
    (t.buf ≠ s.buf → (∃ a n, performs s (.rdburst a n)) ∨
      (s.busy = false ∧ ∃ off v, s.nextInput = .host ⟨32, off, some v⟩ ∧ 0x100 ≤ off)) := by
  cases step_moves h with
  | command i u hp hu ht =>
    subst ht
    obtain ⟨-, -, -, -, -, -, -, -, -, -, -, -, hbuf, -⟩ := exec_writtenBy hu
    obtain ⟨hcmdl, hsync, heprev, hrst, hpollen, hfreq, -⟩ := exec_sameBeside hu
    obtain ⟨hb, -, hn⟩ := id hp
    refine ⟨fun h0 => ?_, fun _ _ => hn, fun hne => absurd hcmdl hne,
      fun hne => absurd ⟨hsync, heprev⟩ (not_and_or.2 hne), fun hne => absurd ⟨hrst, hpollen⟩ (not_and_or.2 hne),
      fun hne => absurd hfreq hne, fun hne => ?_⟩
    · simp [hb] at h0
    · obtain ⟨a, n, hi⟩ := hbuf.resolve_left hne
      exact .inl ⟨a, n, hi ▸ hp⟩
  | hostWrite off v hn ht =>
    subst ht
    have hcases := State.hostWrite_cases off v s.popInput
    rw [State.popInput_busy] at hcases
    rcases hcases with e | ⟨hb, -, e⟩ | ⟨rfl, hb, e⟩ | ⟨rfl, e⟩ | ⟨rfl, hb, e⟩ | ⟨ho, hb, e⟩ <;> rw [e]
    · simp +contextual
    · simp [hb]
    · simp [hb, hn]
    · simp +contextual [hn]
    · simp [hb, hn]
    · simp [hb, hn, ho]
  | reset hn ht => exact absurd hn hnr
  | idle hn hb ht => subst ht; simp [State.withEdges, hb]
  | illegal hn hb ht => subst ht; simp [State.withEdges, hb, hn]
  | hostRead off hn ht => subst ht; simp +contextual
  | edge hn ht => subst ht; simp +contextual
  | edgeDuring hn ht => subst ht; simp +contextual
  | clock d hn ht => subst ht; simp +contextual [hn]

/-- Settles O57: the elements commands write, those of the host window and the synchronizer, IRQP with the deferred
edge, RESULT, and OVR. -/
theorem eachRegisterHasItsOwnWriters : Obligations.EachRegisterHasItsOwnWriters := by
  intro s t h hnr
  obtain ⟨htxc, hrxc, hcrcd, hmode, hmv, hsvc, hrdata, hlast, htune, hbus⟩ := step_command_writers h hnr
  obtain ⟨hrise, hfall, hcmdl, hsync, hctrl, hfreq, hbuf⟩ := step_window_writers h hnr
  refine ⟨hrise, hfall, hcmdl, htxc, hrxc, hcrcd, fun hne => ?_, fun hne => ?_, hsync, hmode, hmv, fun hne => ?_, hsvc,
    fun hne => ?_, hctrl, hrdata, hlast, hfreq, htune, hbuf, hbus⟩
  · rcases step_irqp h with he | ⟨-, hm⟩ | ⟨-, hm⟩
    · exact absurd he hne
    · exact .inr hm
    · exact .inl (hm.resolve_right hnr)
  · rcases step_edgeHeld h with he | ⟨hn, hb⟩ | ⟨-, hm⟩
    · exact absurd he hne
    · exact ⟨hb, .inl hn⟩
    · exact (hm.resolve_right hnr).imp_right .inr
  · obtain ⟨hb, -, hn⟩ := (onlyTheSequencerReachesTheRadio s t h (.inr hne)).resolve_right hnr
    exact ⟨hb, hn⟩
  · rcases step_ovr h with he | ⟨-, hm⟩ | ⟨-, hm⟩
    · exact absurd he hne
    · exact .inr hm
    · exact .inl (hm.resolve_right hnr)

/-! ### An access as the next move (R70) -/

/-- A write scheduled next is performed. -/
theorem step_scheduled_write {s : State} {off : Nat} {v : Word} (hw : s.cfg.wf = true) (h4 : off % 4 = 0)
    (hl : off < 0x200) : step (s.schedule (.host ⟨32, off, some v⟩)) = .next (s.hostWrite off v) :=
  step_write (s := s.schedule _) hw rfl h4 hl

/-- A read scheduled next is performed. -/
theorem step_scheduled_read {s : State} {off : Nat} (hw : s.cfg.wf = true) (h4 : off % 4 = 0) (hl : off < 0x200) :
    step (s.schedule (.host ⟨32, off, none⟩)) = .next (s.hostRead off) :=
  step_read (s := s.schedule _) hw rfl h4 hl

/-! ### A command issued by the host (R32, R76, R99) -/

/-- A write to CMD in an idle block latches the word. -/
theorem State.hostWrite_cmd (v : Word) {s : State} (hb : s.busy = false) : s.hostWrite 0x000 v = s.latchCommand v :=
  if_neg (by simp [hb])

/-- The sequencer's turn scheduled next performs the latched command. -/
theorem step_scheduled_sequencer {s t : State} {i : Instr} (hw : s.cfg.wf = true) (hb : s.busy = true)
    (hd : decode s.cmdl = .command i) (h : exec i s = .next t) :
    step (s.schedule .sequencer) = .next t.releaseEdge :=
  (step_of_sequencer (s := s.schedule .sequencer) hw rfl).trans (sequencerStep_of_command hb hd h)

/-- Settles O8: the CMD write latches the word, which decodes to the command (`decode_encode`). -/
theorem issuedCommandIsPerformed : Obligations.IssuedCommandIsPerformed := by
  intro s i hw hb
  refine ⟨?_, ?_⟩
  · rw [step_scheduled_write hw rfl (by decide), State.hostWrite_cmd _ hb]
    rfl
  · obtain ⟨t, ht⟩ := exec_answers i { s with cmdl := encode i, busy := true }
    obtain ⟨-, -, -, -, -, -, -, -, -, hheld⟩ := exec_sameBeside ht
    have hstep := step_scheduled_sequencer (s := { s with cmdl := encode i, busy := true }) hw rfl (decode_encode i) ht
    exact ⟨t, ht, hstep.trans (by rw [State.releaseEdge, hheld])⟩

/-! ### Reads of the host window (R31-R39, R49, R51) -/

/-- An admitted read returns the register's value. -/
theorem step_read_value {s : State} {off : Nat} (hw : s.cfg.wf = true) (hn : s.nextInput = .host ⟨32, off, none⟩)
    (h4 : off % 4 = 0) (hl : off < 0x200) :
    ∃ t, step s = .next t ∧ t.busData = some (s.readValue (windowReg off)) :=
  ⟨_, step_read hw hn h4 hl, rfl⟩

section
variable (s : State)

theorem State.readValue_of_idle {s : State} (r : WindowReg) (hb : s.busy = false) : s.readValue r = s.idleValue r :=
  if_neg (by simp [hb])

theorem State.readValue_of_busy {s : State} (r : WindowReg) (hb : s.busy = true) :
    s.readValue r = s.busyValue r (Config.drawWord s.draws) :=
  if_pos hb

@[simp] theorem State.readValue_cmd : s.readValue .cmd = 0#32 := ite_self _
@[simp] theorem State.readValue_ctrl : s.readValue .ctrl = s.ctrlWord := ite_self _
@[simp] theorem State.readValue_freq : s.readValue .freq = s.freq := ite_self _
@[simp] theorem State.readValue_reserved : s.readValue .reserved = 0#32 := ite_self _

/-- The bits of CTRL, as a number. -/
theorem State.ctrlWord_toNat : s.ctrlWord.toNat = s.radioRst.toNat + 2 * s.pollen.toNat := by
  unfold State.ctrlWord
  cases s.radioRst <;> cases s.pollen <;> rfl

/-- The bits of CTRL. -/
theorem State.ctrlWord_fields :
    s.ctrlWord.getLsbD 0 = s.radioRst ∧ s.ctrlWord.getLsbD 1 = s.pollen ∧ s.ctrlWord.extractLsb' 2 30 = 0#30 := by
  unfold State.ctrlWord
  cases s.radioRst <;> cases s.pollen <;> exact ⟨rfl, rfl, rfl⟩

/-! The fields of STATUS (R33). -/

@[simp] theorem State.statusWord_busy : s.statusWord.getLsbD 0 = s.busy := by simp [State.statusWord]
@[simp] theorem State.statusWord_txc : s.statusWord.getLsbD 1 = s.txc := by simp [State.statusWord]
@[simp] theorem State.statusWord_rxc : s.statusWord.getLsbD 2 = s.rxc := by simp [State.statusWord]
@[simp] theorem State.statusWord_crcd : s.statusWord.getLsbD 3 = s.crcd := by simp [State.statusWord]
@[simp] theorem State.statusWord_irqp : s.statusWord.getLsbD 4 = s.irqp := by simp [State.statusWord]
@[simp] theorem State.statusWord_mvalid : s.statusWord.getLsbD 5 = s.mvalid := by simp [State.statusWord]
@[simp] theorem State.statusWord_ovr : s.statusWord.getLsbD 11 = s.ovr := by simp [State.statusWord]
@[simp] theorem State.statusWord_radioRst : s.statusWord.getLsbD 12 = s.radioRst := by simp [State.statusWord]

theorem State.statusWord_mode : s.statusWord.extractLsb' 6 2 = modeSelector s.mode := by
  ext i hi
  interval_cases i <;> simp [State.statusWord]

theorem State.statusWord_result : s.statusWord.extractLsb' 8 3 = resultBits s.result := by
  ext i hi
  interval_cases i <;> simp [State.statusWord]

theorem State.statusWord_svc : s.statusWord.extractLsb' 13 2 = svcBits s.svc := by
  ext i hi
  interval_cases i <;> simp [State.statusWord]

theorem State.statusWord_upper : s.statusWord.extractLsb' 15 17 = 0#17 := by
  ext i hi
  interval_cases i <;> simp [State.statusWord]

/-- The bits of STATUS that are exact whatever the draw (R49). -/
theorem State.busyStatus_getLsbD (x : Word) {k : Nat} (hk : statusExactMask.getLsbD k = true) :
    (s.busyStatus x).getLsbD k = s.statusWord.getLsbD k := by
  simp [State.busyStatus, hk]

end

/-- Settles O41, field by field. -/
theorem statusReadsItsFields : Obligations.StatusReadsItsFields := by
  intro s hw hn hb
  obtain ⟨t, ht, hv⟩ := step_read_value hw hn rfl (by decide)
  refine ⟨t, s.statusWord, ht, hv.trans (congrArg some (State.readValue_of_idle .status hb)), ?_⟩
  simp only [State.statusWord_busy, State.statusWord_txc, State.statusWord_rxc, State.statusWord_crcd,
    State.statusWord_irqp, State.statusWord_mvalid, State.statusWord_ovr, State.statusWord_radioRst,
    State.statusWord_mode, State.statusWord_result, State.statusWord_svc, State.statusWord_upper, hb, true_and, and_true]
  refine ⟨?_, ?_, ?_⟩
  · cases s.mode <;> rfl
  · cases s.result <;> rfl
  · cases s.svc <;> rfl

/-- Settles O42: the exact bits of STATUS, and CTRL and FREQ as when idle. -/
theorem busyReadsAreExactWhereTheSpecSaysSo : Obligations.BusyReadsAreExactWhereTheSpecSaysSo := by
  intro s off hw hn hb ho
  rcases ho with rfl | rfl | rfl <;> obtain ⟨t, ht, hv⟩ := step_read_value hw hn rfl (by decide)
  · refine ⟨t, _, ht, hv.trans (congrArg some (State.readValue_of_busy .status hb)), fun _ => ?_, by simp, by simp⟩
    simp only [State.busyValue]
    rw [s.busyStatus_getLsbD _ rfl, s.busyStatus_getLsbD _ rfl, s.busyStatus_getLsbD _ rfl]
    exact ⟨s.statusWord_busy.trans hb, s.statusWord_ovr, s.statusWord_radioRst⟩
  · exact ⟨t, _, ht, hv.trans (congrArg some s.readValue_ctrl), by simp, fun _ => s.ctrlWord_fields, by simp⟩
  · exact ⟨t, _, ht, hv.trans (congrArg some s.readValue_freq), by simp, by simp, fun _ => rfl⟩

/-- Settles O43, offset by offset. -/
theorem idleReadsOfTheDataRegisters : Obligations.IdleReadsOfTheDataRegisters := by
  intro s off hw hn h4 hl
  obtain ⟨t, ht, hv⟩ := step_read_value hw hn h4 (by omega)
  refine ⟨t, _, ht, hv, ?_, fun h => ?_, ?_, ?_, fun hb => ?_, fun hb => ?_, fun hb => ?_⟩
  · rintro rfl
    exact s.readValue_cmd
  · rw [windowReg_reserved h hl]
    exact s.readValue_reserved
  · rintro rfl
    exact (congrArg BitVec.toNat s.readValue_ctrl).trans s.ctrlWord_toNat
  · rintro rfl
    exact s.readValue_freq
  all_goals
    rintro rfl
    rw [State.readValue_of_idle _ hb]
    exact BitVec.toNat_setWidth_of_le (by decide)

/-! ### Writes of the host window (R31, R34, R37, R38, R51) -/

/-- A write to FREQ in an idle block. -/
theorem State.hostWrite_freq (v : Word) {s : State} (hb : s.busy = false) : s.hostWrite 0x010 v = s.setFreq v :=
  if_neg (by simp [hb])

/-- A write to BUF word `k` in an idle block. -/
theorem State.hostWrite_bufWord (k : Nat) (v : Word) {s : State} (hb : s.busy = false) :
    s.hostWrite (0x100 + 4 * k) v = s.writeBufWord k v := by
  rw [State.hostWrite, windowReg_bufWord (by omega), show (0x100 + 4 * k - 0x100) / 4 = k by omega]
  exact if_neg (by simp [hb])

/-- Read-only registers and reserved offsets ignore a write. -/
theorem State.hostWrite_readOnly {off : Nat} (v : Word) (s : State)
    (ho : off = 0x004 ∨ off = 0x00C ∨ off = 0x014 ∨ 0x018 ≤ off) (hl : off < 0x100) (h4 : off % 4 = 0) :
    s.hostWrite off v = s := by
  rcases ho with rfl | rfl | rfl | ho
  · rfl
  · rfl
  · rfl
  · obtain rfl | ho : off = 0x018 ∨ 0x01C ≤ off := by omega
    · rfl
    · rw [State.hostWrite, windowReg_reserved ho hl]

/-- Settles O46, register by register. -/
theorem writesToTheControlRegisters : Obligations.WritesToTheControlRegisters := by
  intro s off v hw hn h4 hl
  have hstep := step_write hw hn h4 (by omega)
  refine ⟨?_, ?_, fun ho => ?_⟩
  · rintro rfl
    exact hstep
  · rintro rfl hb
    exact hstep.trans (congrArg Host.Outcome.next (State.hostWrite_freq (s := s.popInput) v hb))
  · exact hstep.trans (congrArg Host.Outcome.next (State.hostWrite_readOnly v s.popInput ho hl h4))

/-- The lanes of a word, by index (R38). -/
theorem wordLanes_getElem? (v : Word) {j : Nat} (hj : j < 4) : (wordLanes v)[j]? = some (v.extractLsb' (8 * j) 8) := by
  interval_cases j <;> rfl

/-- A word is its four lanes. -/
theorem word_of_lanes (v : Word) :
    (v.extractLsb' 24 8).setWidth 32 <<< 24 ||| (v.extractLsb' 16 8).setWidth 32 <<< 16 |||
      (v.extractLsb' 8 8).setWidth 32 <<< 8 ||| (v.extractLsb' 0 8).setWidth 32 = v := by
  ext i hi
  interval_cases i <;> simp

/-- BUF after a word is written: the word's lanes in their places, the old bytes elsewhere (R38). -/
theorem State.read_writeBufWord {s : State} {k : Nat} (v : Word) (hwf : Memory.wf bufSize s.buf = true) (hk : k < 64)
    (a : Nat) : Memory.read (s.writeBufWord k v).buf a =
      if 4 * k ≤ a then ((wordLanes v)[a - 4 * k]?).getD (Memory.read s.buf a) else Memory.read s.buf a :=
  Memory.read_writeBytes hwf (4 * k) (wordLanes v) (show 4 * k + 4 ≤ 256 by omega) a

/-- Lane `j` of the word written. -/
theorem State.read_writeBufWord_lane {s : State} {k j : Nat} (v : Word) (hwf : Memory.wf bufSize s.buf = true)
    (hk : k < 64) (hj : j < 4) : Memory.read (s.writeBufWord k v).buf (4 * k + j) = v.extractLsb' (8 * j) 8 := by
  rw [State.read_writeBufWord v hwf hk, if_pos (Nat.le_add_right ..), Nat.add_sub_cancel_left, wordLanes_getElem? v hj,
    Option.getD_some]

/-- A byte outside the word written. -/
theorem State.read_writeBufWord_other {s : State} {k a : Nat} (v : Word) (hwf : Memory.wf bufSize s.buf = true)
    (hk : k < 64) (ha : a < 4 * k ∨ 4 * k + 4 ≤ a) :
    Memory.read (s.writeBufWord k v).buf a = Memory.read s.buf a := by
  rw [State.read_writeBufWord v hwf hk]
  split
  · have hlen : (wordLanes v).length ≤ a - 4 * k := show 4 ≤ a - 4 * k by omega
    rw [List.getElem?_eq_none hlen, Option.getD_none]
  · rfl

/-- The word written reads back. -/
theorem State.bufWord_writeBufWord {s : State} {k : Nat} (v : Word) (hwf : Memory.wf bufSize s.buf = true)
    (hk : k < 64) : (s.writeBufWord k v).bufWord k = v := by
  have h0 := State.read_writeBufWord_lane v hwf hk (show 0 < 4 by decide)
  have h1 := State.read_writeBufWord_lane v hwf hk (show 1 < 4 by decide)
  have h2 := State.read_writeBufWord_lane v hwf hk (show 2 < 4 by decide)
  have h3 := State.read_writeBufWord_lane v hwf hk (show 3 < 4 by decide)
  rw [Nat.add_zero] at h0
  rw [State.bufWord, h0, h1, h2, h3]
  exact word_of_lanes v

/-- Settles O47, by what BUF holds after a word is written. -/
theorem bufWordsAreLittleEndianLanes : Obligations.BufWordsAreLittleEndianLanes := by
  intro s k v hw hwf hb hk
  refine ⟨s.writeBufWord k v, ?_, rfl, fun j => State.read_writeBufWord_lane v hwf hk,
    fun a => State.read_writeBufWord_other v hwf hk, ?_⟩
  · rw [step_scheduled_write hw (by omega) (by omega), State.hostWrite_bufWord k v hb]
  · have hread : (s.writeBufWord k v).readValue (windowReg (0x100 + 4 * k)) = v := by
      rw [windowReg_bufWord (by omega), show (0x100 + 4 * k - 0x100) / 4 = k by omega,
        State.readValue_of_idle (s := s.writeBufWord k v) _ hb]
      exact State.bufWord_writeBufWord v hwf hk
    rw [step_scheduled_read (s := s.writeBufWord k v) hw (by omega) (by omega), State.hostRead, hread]

end Sys2Proof.Machine
end

section
/-! The statements of 20_memory.md: what every step keeps of a sound state, an edge before or after the sequencer's
step, write-1-to-clear, the host bus error, and that a host read changes nothing of the block. -/

namespace Sys2Proof.Machine

/-! ### The transactions a command records (R20, R62) -/

/-- Every recorded transaction is one the frame of R66 allows. -/
def State.TraceLegal (s : State) : Prop := ∀ e ∈ s.trace, e.legal = true

/-- The length field of a command is at most MAX_LEN (R9, R62). -/
theorem byte_le_maxLen (n : Byte) : n.toNat ≤ Config.maxLen :=
  Nat.le_of_lt_succ n.isLt

/-- A read of at most MAX_LEN bytes that records the bytes the radio gave it. -/
theorem Txn.legal_rd (a : RegAddr) {n : Nat} {d : List Byte} (ok : Bool) (hn : n ≤ Config.maxLen) (hd : d.length = n) :
    (Txn.rd a n d ok).legal = true := by
  simp [Txn.legal, hn, hd]

/-- A write of at most MAX_LEN bytes. -/
theorem Txn.legal_wr (a : RegAddr) {v : List Byte} (ok : Bool) (hv : v.length ≤ Config.maxLen) :
    (Txn.wr a v ok).legal = true := by
  simp [Txn.legal, hv]

/-- A write of one byte. -/
theorem Txn.legal_wr_one (a : RegAddr) (b : Byte) (ok : Bool) : (Txn.wr a [b] ok).legal = true :=
  Txn.legal_wr a ok (by decide : 1 ≤ 255)

/-- More legal transactions at the end of a trace. -/
theorem State.TraceLegal.append {s t : State} (hs : s.TraceLegal) {evs : List Txn} (ht : t.trace = s.trace ++ evs)
    (he : ∀ e ∈ evs, e.legal = true) : t.TraceLegal := by
  rw [State.TraceLegal, ht]
  exact List.forall_mem_append.2 ⟨hs, he⟩

/-- One more legal transaction at the end of a trace. -/
theorem State.TraceLegal.append_one {s t : State} (hs : s.TraceLegal) {e : Txn} (ht : t.trace = s.trace ++ [e])
    (he : e.legal = true) : t.TraceLegal :=
  hs.append ht (List.forall_mem_singleton.2 he)

/-- SERVICE's bus part records one read of one byte and at most one write of one byte. -/
theorem State.TraceLegal.readAndClearFlags {s : State} (hs : s.TraceLegal) : s.readAndClearFlags.TraceLegal := by
  have hrd (ok : Bool) : (s.frame 1 (.rd (addrIrqFlags s.cfg) 1 [s.misoByte 0] ok)).TraceLegal :=
    hs.append_one rfl (Txn.legal_rd _ ok (by decide) rfl)
  rw [State.readAndClearFlags_eq]
  simp only []
  split
  · split
    · exact (hrd true).append_one (State.recordClass_trace _ _) (Txn.legal_wr_one _ _ true)
    · exact (hrd true).append_one rfl (Txn.legal_wr_one _ _ false)
  · exact hrd false

/-- Every command records legal transactions only: its lengths come from fields of eight bits, and a read records what
it read. -/
theorem exec_traceLegal {i : Instr} {s t : State} (hs : s.TraceLegal) (h : exec i s = .next t) : t.TraceLegal := by
  cases i with
  | nop => cases h; exact hs
  | rdreg a =>
    cases h
    exact hs.append_one (State.endTransfer_trace ..) (Txn.legal_rd a _ (by decide) (s.misoBytes_length 1))
  | wrreg a d =>
    cases h
    exact hs.append_one (State.endTransfer_trace ..) (Txn.legal_wr_one a d _)
  | rdburst a n =>
    cases h
    exact hs.append_one (State.endTransfer_trace ..) (Txn.legal_rd a _ (byte_le_maxLen n) (s.misoBytes_length _))
  | wrburst a n =>
    cases h
    exact hs.append_one (State.endTransfer_trace ..)
      (Txn.legal_wr a _ ((s.burstData_length _).trans_le (byte_le_maxLen n)))
  | setmode m =>
    cases h
    exact hs.append_one ((State.endTransfer_trace ..).trans (State.recordMode_trace ..)) (Txn.legal_wr_one _ _ _)
  | calcfreq =>
    rw [exec_calcfreq_eq] at h
    cases h
    split <;> exact hs
  | setfreq =>
    rw [exec_setfreq_eq] at h
    cases h
    split
    · exact hs
    · obtain ⟨evs, hst, -, hevs, -⟩ := State.writeEach_spec (tuneWrites s.cfg (tuneOf s.freq)) s.latchTune
      refine hs.append (by rw [State.endTransfer_trace, hst]; rfl) fun e he => ?_
      obtain ⟨a, b, ok, -, rfl⟩ := hevs e he
      exact Txn.legal_wr_one a b ok
  | service =>
    rw [exec_service_eq] at h
    cases h
    split
    · exact hs
    · exact State.TraceLegal.readAndClearFlags (s := s.clearIrqp) hs
  | clrflags m => cases h; exact hs

/-! ### BUF in canonical form (R38) -/

/-- No command breaks BUF's canonical form: RDBURST alone writes it, at most 255 bytes from BUF[0] on. -/
theorem exec_bufWf {i : Instr} {s t : State} (hs : Memory.wf bufSize s.buf = true) (h : exec i s = .next t) :
    Memory.wf bufSize t.buf = true := by
  obtain ⟨-, -, -, -, -, -, -, -, -, -, -, -, hbuf, -⟩ := exec_writtenBy h
  rcases hbuf with hbuf | ⟨a, n, rfl⟩
  · rw [hbuf]
    exact hs
  · cases h
    rw [State.endTransfer_buf, State.writeBuf_buf]
    refine Memory.writeBytes_wf hs 0 _ ?_
    rw [s.misoBytes_length, Nat.zero_add]
    exact n.isLt.le

/-- Nor does a write of the host within the window. -/
theorem State.hostWrite_bufWf {off : Nat} (v : Word) {s : State} (hs : Memory.wf bufSize s.buf = true)
    (hl : off < Config.windowSize) : Memory.wf bufSize (s.hostWrite off v).buf = true := by
  rcases State.hostWrite_cases off v s with e | ⟨-, -, e⟩ | ⟨-, -, e⟩ | ⟨-, e⟩ | ⟨-, -, e⟩ | ⟨-, -, e⟩ <;> rw [e]
  iterate 5 exact hs
  have hl : off < 0x200 := hl
  exact Memory.writeBytes_wf hs _ (wordLanes v) (show 4 * ((off - 0x100) / 4) + 4 ≤ 256 by omega)

/-! ### Sound states (R38, R67, R78, R182) -/

/-- A command and the edges beside it, with no edge left deferred. -/
theorem State.Sound.command {i : Instr} {s u : State} (hs : s.Sound) (h : exec i s = .next u) (p : Bool) :
    (u.withEdges p false).Sound := by
  obtain ⟨hbuf, hcs, hsync, -, htrace⟩ := hs
  obtain ⟨-, hsync', -, -, -, -, hcfg, -⟩ := exec_sameBeside h
  have hbufU := exec_bufWf hbuf h
  have hcsU := exec_csN h hcs
  have hsyncU : u.sync.length = u.cfg.syncStages := by rw [hsync', hcfg, hsync]
  have htraceU := exec_traceLegal htrace h
  exact ⟨hbufU, hcsU, hsyncU, fun _ => rfl, htraceU⟩

/-- A host write can set BUSY but never clears it, so no deferred edge is left in an idle block. -/
theorem State.hostWrite_busy_of_idle {off : Nat} {v : Word} {s : State} (h : (s.hostWrite off v).busy = false) :
    s.busy = false := by
  rcases State.hostWrite_cases off v s with e | ⟨-, -, e⟩ | ⟨-, hb, -⟩ | ⟨-, e⟩ | ⟨-, hb, -⟩ | ⟨-, hb, -⟩
  · rwa [e] at h
  · rwa [e] at h
  · exact hb
  · rwa [e] at h
  · exact hb
  · exact hb

/-- A write of the host within the window. -/
theorem State.Sound.hostWrite {off : Nat} {s : State} (hs : s.Sound) (v : Word) (hl : off < Config.windowSize) :
    (s.hostWrite off v).Sound := by
  obtain ⟨hbuf, hcs, hsync, hheld, htrace⟩ := hs
  obtain ⟨-, -, -, -, hsync', -, -, -, hcs', htrace', hcfg⟩ := State.hostWrite_keeps off v s
  refine ⟨State.hostWrite_bufWf v hbuf hl, hcs'.trans hcs, ?_, fun hb => ?_, ?_⟩
  · rw [hsync', hcfg, hsync]
  · rw [State.hostWrite_edgeHeld]
    exact hheld (State.hostWrite_busy_of_idle hb)
  · rwa [htrace']

/-- The DIO0 move that defers an edge does so only while BUSY = 1. -/
theorem State.Sound.deferEdge {s : State} (hs : s.Sound) : s.deferEdge.Sound := by
  obtain ⟨hbuf, hcs, hsync, hheld, htrace⟩ := hs
  refine ⟨hbuf, hcs, hsync, fun hb => ?_, htrace⟩
  have hb : s.busy = false := hb
  simp [hheld hb, hb]

/-- A clock shifts the synchronizer and keeps its length. -/
theorem State.Sound.clockSync {s : State} (hs : s.Sound) (d : Bool) : (s.clockSync d).Sound := by
  obtain ⟨hbuf, hcs, hsync, hheld, htrace⟩ := hs
  exact ⟨hbuf, hcs, by simp [hsync], hheld, htrace⟩

/-- Block reset, from any state. -/
theorem State.Sound.blockReset (s : State) : s.blockReset.Sound :=
  ⟨rfl, rfl, List.length_replicate, fun _ => rfl, fun _ he => absurd he List.not_mem_nil⟩

/-- A step that performs a host access performs an admitted one, within the window (R70). -/
theorem step_host_inWindow {s t : State} {acc : BusAccess} (h : step s = .next t) (hn : s.nextInput = .host acc) :
    acc.off < Config.windowSize := by
  obtain ⟨-, ha⟩ := step_next h
  rw [hn] at ha
  obtain ⟨hadm, -⟩ := hostAccess_next ha
  simp only [BusAccess.admitted, Bool.and_eq_true, decide_eq_true_eq] at hadm
  exact hadm.2

/-- Settles O52, by the agent that moves. -/
theorem everyStepKeepsTheStateSound : Obligations.EveryStepKeepsTheStateSound := by
  intro s t hs h
  have hpop : s.popInput.Sound := hs
  cases step_moves h with
  | idle _ _ ht => subst ht; exact hs
  | command i u _ he ht => subst ht; exact hpop.command he _
  | illegal _ _ ht =>
    subst ht
    obtain ⟨hbuf, hcs, hsync, -, htrace⟩ := hs
    exact ⟨hbuf, hcs, hsync, fun _ => rfl, htrace⟩
  | hostRead _ _ ht => subst ht; exact hs
  | hostWrite off v hn ht => subst ht; exact hpop.hostWrite v (step_host_inWindow h hn)
  | edge _ ht => subst ht; exact hs
  | edgeDuring _ ht => subst ht; exact hpop.deferEdge
  | clock d _ ht => subst ht; exact hpop.clockSync d
  | reset _ ht => subst ht; exact State.Sound.blockReset s.popInput

/-! ### An edge before and after the sequencer's step (R78, R182, R254; log 32) -/

/-- An edge taken at once. -/
theorem State.setIrqp_eq_withEdges (s : State) : s.setIrqp = s.withEdges true s.edgeHeld := rfl

/-- An edge deferred while a command is latched. -/
theorem State.deferEdge_eq_withEdges {s : State} (hb : s.busy = true) : s.deferEdge = s.withEdges s.irqp true := by
  apply State.ext <;> simp [State.withEdges, hb]

/-- At the end of a command's step an edge pending in either form has set IRQP. -/
theorem State.releaseEdge_withEdges {q e : Bool} (s : State) (h : (q || e) = true) :
    (s.withEdges q e).releaseEdge = s.releaseEdge.setIrqp := by
  simp [State.withEdges, State.releaseEdge, State.setIrqp, h]

/-- The sequencer's turn with an edge pending, in IRQP or deferred: if the latched command leaves it pending, the turn
leads where the turn without it and then an edge lead. -/
theorem sequencerStep_withEdges {s : State} {p e : Bool} (hb : s.busy = true) (hpe : (p || e) = true)
    (hexec : ∀ i u, decode s.cmdl = .command i → exec i s = .next u →
      ∃ q, (q || e) = true ∧ exec i (s.withEdges p e) = .next (u.withEdges q e)) :
    ∃ v, sequencerStep s = .next v ∧ sequencerStep (s.withEdges p e) = .next v.setIrqp := by
  cases hd : decode s.cmdl with
  | command i =>
    obtain ⟨u, hu⟩ := exec_answers i s
    obtain ⟨q, hq, hu'⟩ := hexec i u hd hu
    refine ⟨u.releaseEdge, sequencerStep_of_command hb hd hu, ?_⟩
    rw [← u.releaseEdge_withEdges hq]
    exact sequencerStep_of_command (s := s.withEdges p e) hb hd hu'
  | illegal c =>
    refine ⟨(s.raise .illegal).releaseEdge, sequencerStep_of_illegal hb hd, ?_⟩
    rw [← (s.raise .illegal).releaseEdge_withEdges hpe]
    exact sequencerStep_of_illegal (s := s.withEdges p e) hb hd

/-- A deferred edge is one just after the step, whatever word is latched. -/
theorem sequencerStep_deferEdge {s : State} (hb : s.busy = true) :
    ∃ v, sequencerStep s = .next v ∧ sequencerStep s.deferEdge = .next v.setIrqp := by
  rw [State.deferEdge_eq_withEdges hb]
  exact sequencerStep_withEdges hb (Bool.or_true _) fun i u _ hu => ⟨u.irqp, Bool.or_true _, exec_withHeld true hu⟩

/-- A plain edge is one just after the step, unless SERVICE is latched, which tests and clears it. -/
theorem sequencerStep_setIrqp {s : State} (hb : s.busy = true) (hd : decode s.cmdl ≠ .command .service) :
    ∃ v, sequencerStep s = .next v ∧ sequencerStep s.setIrqp = .next v.setIrqp := by
  rw [State.setIrqp_eq_withEdges]
  refine sequencerStep_withEdges hb (Bool.true_or _) fun i u hi hu => ⟨true, Bool.true_or _, ?_⟩
  have hne : i ≠ .service := by
    rintro rfl
    exact hd hi
  exact exec_withEdges true s.edgeHeld hne hu

/-- A plain edge scheduled next. -/
theorem step_scheduled_edge {s : State} (hw : s.cfg.wf = true) : step (s.schedule .edge) = .next s.setIrqp :=
  if_pos hw

/-- A deferred edge scheduled next. -/
theorem step_scheduled_edgeDuring {s : State} (hw : s.cfg.wf = true) :
    step (s.schedule .edgeDuring) = .next s.deferEdge :=
  if_pos hw

/-- The sequencer's turn scheduled next. -/
theorem step_scheduled_turn {s u : State} (hw : s.cfg.wf = true) (h : sequencerStep s = .next u) :
    step (s.schedule .sequencer) = .next u :=
  (step_of_sequencer (s := s.schedule .sequencer) hw rfl).trans h

/-- The state after a step is in a configuration that may run. -/
theorem step_next_wf {s t : State} (h : step s = .next t) : t.cfg.wf = true := by
  obtain ⟨hw, -⟩ := step_next h
  obtain ⟨hcfg, -⟩ := step_records h
  rwa [hcfg]

/-- A move `i` before the sequencer's turn that leads where an edge just after the turn leads. -/
theorem step_commutes_of_turn {s t v : State} {i : Input} (hw : s.cfg.wf = true) (ht : step (s.schedule i) = .next t)
    (hv : sequencerStep s = .next v) (hu : sequencerStep t = .next v.setIrqp) :
    ∃ t u v, step (s.schedule i) = .next t ∧ step (t.schedule .sequencer) = .next u ∧
      step (s.schedule .sequencer) = .next v ∧ step (v.schedule .edge) = .next u ∧ u.irqp = true :=
  have hsv := step_scheduled_turn hw hv
  ⟨t, v.setIrqp, v, ht, step_scheduled_turn (step_next_wf ht) hu, hsv, step_scheduled_edge (step_next_wf hsv), rfl⟩

/-- Settles O33: the two forms of an edge, each before and after the sequencer's turn. -/
theorem edgeCommutesWithEveryOtherCommand : Obligations.EdgeCommutesWithEveryOtherCommand := by
  refine ⟨fun s hw hb => ?_, fun s hw => step_scheduled_edge hw, fun s hw hb hd => ?_⟩
  · obtain ⟨v, hv, hu⟩ := sequencerStep_deferEdge hb
    exact step_commutes_of_turn hw (step_scheduled_edgeDuring hw) hv hu
  · obtain ⟨v, hv, hu⟩ := sequencerStep_setIrqp hb hd
    exact step_commutes_of_turn hw (step_scheduled_edge hw) hv hu

/-! ### Write-1-to-clear (R65) -/

/-- A bit is kept exactly where the value written has none. -/
@[simp] theorem writeOneToClear_getLsbD (f v : Byte) (i : Nat) :
    (writeOneToClear f v).getLsbD i = (f.getLsbD i && !v.getLsbD i) := by
  by_cases hi : i < 8
  · simp [writeOneToClear, hi]
  · simp [BitVec.getLsbD_of_ge _ _ (Nat.le_of_not_lt hi)]

/-- Settles O35: each consequence is one of Boolean algebra, bit by bit. -/
theorem writeOneToClearClearsExactlyTheOnes : Obligations.WriteOneToClearClearsExactlyTheOnes := by
  intro f v e
  refine ⟨writeOneToClear_getLsbD f v, ?_, ?_, ?_, ?_, ?_⟩
  · exact BitVec.eq_of_getLsbD_eq fun i _ => by simp
  · exact BitVec.eq_of_getLsbD_eq fun i _ => by simp
  · refine BitVec.eq_of_getLsbD_eq fun i hi => ?_
    rw [writeOneToClear_getLsbD, show (0xFF#8 : Byte) = BitVec.allOnes 8 from rfl, BitVec.getLsbD_allOnes]
    simp [hi]
  · exact BitVec.eq_of_getLsbD_eq fun i _ => by cases hf : f.getLsbD i <;> simp [hf]
  · exact BitVec.eq_of_getLsbD_eq fun i _ => by simp

/-! ### Accesses of the host (R70, R71, R73) -/

/-- An access of another width, alignment or range is not admitted (R71). -/
theorem BusAccess.admitted_eq_false {acc : BusAccess} (h : acc.width ≠ 32 ∨ acc.off % 4 ≠ 0 ∨ 0x200 ≤ acc.off) :
    acc.admitted = false := by
  rw [BusAccess.admitted]
  rcases h with h | h | h
  · simp [h]
  · simp [h]
  · simp [Config.windowSize, Nat.not_lt.2 h]

/-- Settles O38: the access is not admitted. -/
theorem badHostAccessIsABusError : Obligations.BadHostAccessIsABusError := by
  intro s acc hw hn hbad
  rw [step_eq, if_pos hw, hn, agentStep, hostAccess, BusAccess.admitted_eq_false hbad]
  rfl

/-- Settles O40, by what an admitted read does (`step_read`). -/
theorem hostReadsHaveNoSideEffect : Obligations.HostReadsHaveNoSideEffect :=
  fun s off hw hn h4 hl => ⟨s.popInput.readValue (windowReg off), step_read hw hn h4 hl⟩

end Sys2Proof.Machine
end

section
/-! The statements of 30_encoding.md: decoding and encoding are inverse, which words are Illegal and what performing one
does, and the words of the assembler's lines. -/

namespace Sys2Proof

open Sys2Proof.Laws.EncodedFields (opcode unusedBits)

/-! ### Which words are commands (R92, R93, R95) -/

/-- A word that decodes to a command has the command's opcode, zeros in its unused fields and its operands in the
others: the converse of `decode_of_fields`. -/
theorem fields_of_decode {w : Word} {i : Instr} (h : decode w = .command i) :
    fieldOpc w = opcode i ∧ w &&& unusedBits i = 0#32 ∧ i.withFieldsOf w = i := by
  rw [decode_eq] at h
  iterate 10
    split at h
    · rename_i hrow
      cases h
      exact ⟨hrow.1, hrow.2, rfl⟩
  cases h

/-- The cause an Illegal word is given (R96, R242). -/
theorem cause_of_decode_illegal {w : Word} {c : IllegalCause} (h : decode w = .illegal c) : c = illegalCause w := by
  unfold decode at h
  split at h
  · cases h
  · exact (Decoded.illegal.inj h).symm

/-- A word that is no command's is Illegal. -/
theorem decode_illegal_of_not_command {w : Word} (h : ∀ i, decode w ≠ .command i) :
    decode w = .illegal (illegalCause w) := by
  cases hd : decode w with
  | command i => exact absurd hd (h i)
  | illegal c => rw [cause_of_decode_illegal hd]

/-! ### The encoder undoes the decoder (R90) -/

section
variable {w z : Word} {k : Nat}

/-- A bit at which a word has to have a zero is zero. -/
theorem getElem_eq_false_of_and {hk : k < 32} (hw : w &&& z = 0#32) (hz : z[k] = true) : w[k] = false := by
  simpa [hk, hz] using congrArg (fun x => x[k]) hw

/-- A field in which a word has to have zeros is zero. -/
theorem extractLsb'_eq_zero_of_and {n : Nat} (hw : w &&& z = 0#32) (hz : z.extractLsb' k n = BitVec.allOnes n) :
    w.extractLsb' k n = 0#n := by
  simpa [BitVec.extractLsb'_and, hz] using congrArg (fun x => x.extractLsb' k n) hw

end

/-- A word with zeros in RSVA and RSVB is packed from its fields (R90, R92). -/
theorem packWord_fields {w : Word} (h : w &&& 0x0C800000#32 = 0#32) :
    packWord (fieldOpc w) (fieldMode w) (fieldAddr w) (fieldLen w) (fieldData w) = w := by
  have h23 : w[23] = false := getElem_eq_false_of_and h rfl
  have h26 : w[26] = false := getElem_eq_false_of_and h rfl
  have h27 : w[27] = false := getElem_eq_false_of_and h rfl
  apply BitVec.eq_of_getLsbD_eq
  intro j hj
  simp only [packWord, fieldOpc, fieldMode, fieldAddr, fieldLen, fieldData]
  interval_cases j <;> simp [h23, h26, h27]

/-- RSVA and RSVB are unused in every row (R92). -/
theorem reserved_zero_of_unused_zero {w : Word} {i : Instr} (hz : w &&& unusedBits i = 0#32) :
    w &&& 0x0C800000#32 = 0#32 := by
  have hsub : unusedBits i &&& 0x0C800000#32 = 0x0C800000#32 := by
    cases i <;> simp only [unusedBits] <;> rfl
  rw [← hsub, ← BitVec.and_assoc, hz, BitVec.zero_and]

/-- Every two-bit selector is the one of the mode it names (R91, R140). -/
@[simp] theorem modeSelector_modeOfSelector (m : BitVec 2) : modeSelector (modeOfSelector m) = m := by
  revert m
  decide

/-- DATA with zeros above the mask is the mask (R92). -/
theorem fieldMask_setWidth {w : Word} (h : w &&& 0x0FFFFFF0#32 = 0#32) : (fieldMask w).setWidth 8 = fieldData w := by
  have hupper : w.extractLsb' 4 4 = 0#4 := extractLsb'_eq_zero_of_and h rfl
  apply BitVec.eq_of_getLsbD_eq
  intro j hj
  by_cases hj4 : j < 4
  · simp [fieldMask, fieldData, hj, hj4]
  · have hbit := congrArg (fun x => x.getLsbD (j - 4)) hupper
    simpa [fieldMask, fieldData, hj, hj4, show j - 4 < 4 by omega, show 4 + (j - 4) = j by omega] using hbit.symm

/-- A word with a command's opcode and zeros in its unused fields is the word of that command with the word's
operands: a field is either an operand or zero. -/
theorem encode_withFieldsOf {w : Word} {i : Instr} (ho : fieldOpc w = opcode i) (hz : w &&& unusedBits i = 0#32) :
    encode (i.withFieldsOf w) = w := by
  refine Eq.trans ?_ (packWord_fields (reserved_zero_of_unused_zero hz))
  have hmode : (unusedBits i).extractLsb' 24 2 = BitVec.allOnes 2 → fieldMode w = 0#2 := extractLsb'_eq_zero_of_and hz
  have haddr : (unusedBits i).extractLsb' 16 7 = BitVec.allOnes 7 → fieldAddr w = 0#7 := extractLsb'_eq_zero_of_and hz
  have hlen : (unusedBits i).extractLsb' 8 8 = BitVec.allOnes 8 → fieldLen w = 0#8 := extractLsb'_eq_zero_of_and hz
  have hdata : (unusedBits i).extractLsb' 0 8 = BitVec.allOnes 8 → fieldData w = 0#8 := extractLsb'_eq_zero_of_and hz
  rw [ho]
  cases i with
  | nop | calcfreq | setfreq | service =>
    simp only [unusedBits] at hmode haddr hlen hdata
    rw [hmode rfl, haddr rfl, hlen rfl, hdata rfl]
    rfl
  | rdreg _ =>
    simp only [unusedBits] at hmode hlen hdata
    rw [hmode rfl, hlen rfl, hdata rfl]
    rfl
  | wrreg _ _ =>
    simp only [unusedBits] at hmode hlen
    rw [hmode rfl, hlen rfl]
    rfl
  | rdburst _ _ | wrburst _ _ =>
    simp only [unusedBits] at hmode hdata
    rw [hmode rfl, hdata rfl]
    rfl
  | setmode _ =>
    simp only [unusedBits] at haddr hlen hdata
    rw [haddr rfl, hlen rfl, hdata rfl, Instr.withFieldsOf, encode, modeSelector_modeOfSelector]
    rfl
  | clrflags _ =>
    simp only [unusedBits] at hmode haddr hlen
    rw [hmode rfl, haddr rfl, hlen rfl, ← fieldMask_setWidth hz]
    rfl

/-- Settles O1, by `decode_encode`. -/
theorem decodeOfEncodeIsTheCommand : Obligations.DecodeOfEncodeIsTheCommand :=
  decode_encode

/-- Settles O2: the command has the word's operands (`fields_of_decode`), and its word is then that word
(`encode_withFieldsOf`). -/
theorem encodeOfDecodeIsTheWord : Obligations.EncodeOfDecodeIsTheWord := by
  intro w i h
  obtain ⟨ho, hz, hi⟩ := fields_of_decode h
  rw [← hi, encode_withFieldsOf ho hz]

/-! ### The Illegal words (R92, R96, R242) -/

/-- The opcodes of commands are the assigned ones, 0x0 to 0x9 (R95). -/
theorem opcode_lt (i : Instr) : opcode i < 0xA#4 := by
  cases i <;> simp [opcode]

/-- Every assigned opcode is some command's (R95). -/
theorem exists_opcode_eq {o : BitVec 4} (h : o < 0xA#4) : ∃ i, opcode i = o := by
  have hrow : ∃ i ∈ [.nop, .rdreg 0#7, .wrreg 0#7 0#8, .rdburst 0#7 0#8, .wrburst 0#7 0#8, .setmode .sleep,
      .calcfreq, .setfreq, .service, .clrflags 0#4], opcode i = o := by
    revert o
    decide
  obtain ⟨i, -, hi⟩ := hrow
  exact ⟨i, hi⟩

/-- The bits a command's row leaves unused are the ones that must be zero with its opcode (R92). -/
theorem mustBeZero_opcode (i : Instr) : Claims.mustBeZero (opcode i) = unusedBits i := by
  cases i <;> rfl

section
variable {w : Word}

/-- A word with a reserved opcode is Illegal: no command has that opcode. -/
theorem decode_of_reservedOpcode (h : 0xA#4 ≤ fieldOpc w) : decode w = .illegal .reservedOpcode := by
  have hnot : ∀ i, decode w ≠ .command i := fun i hd => by
    obtain ⟨ho, -, -⟩ := fields_of_decode hd
    exact absurd (ho ▸ opcode_lt i) (BitVec.not_lt.2 h)
  rw [decode_illegal_of_not_command hnot, illegalCause, if_pos h]

/-- A word with an assigned opcode and a one in an unused field is Illegal: the opcode's command has zeros there. -/
theorem decode_of_nonzeroUnusedField (h : fieldOpc w < 0xA#4) (hnz : w &&& Claims.mustBeZero (fieldOpc w) ≠ 0#32) :
    decode w = .illegal .nonzeroUnusedField := by
  have hnot : ∀ i, decode w ≠ .command i := fun i hd => by
    obtain ⟨ho, hz, -⟩ := fields_of_decode hd
    rw [ho, mustBeZero_opcode] at hnz
    exact hnz hz
  rw [decode_illegal_of_not_command hnot, illegalCause, if_neg (BitVec.not_le.2 h)]

/-- A word with an assigned opcode and zeros in the unused fields is a command's. -/
theorem decode_command_of_zero_unused (h : fieldOpc w < 0xA#4) (hzero : w &&& Claims.mustBeZero (fieldOpc w) = 0#32) :
    ∃ i, decode w = .command i := by
  obtain ⟨i, hi⟩ := exists_opcode_eq h
  rw [← hi, mustBeZero_opcode] at hzero
  exact ⟨i.withFieldsOf w, decode_of_fields hi.symm hzero⟩

end

/-- Settles O3, one lemma per kind of word. -/
theorem illegalWordsAreExactlyReservedOrNonzeroUnused : Obligations.IllegalWordsAreExactlyReservedOrNonzeroUnused :=
  fun _ => ⟨decode_of_reservedOpcode, decode_of_nonzeroUnusedField, decode_command_of_zero_unused⟩

/-- Settles O4, by running the decoder on each of the words. -/
theorem encodingExamplesDecode : Obligations.EncodingExamplesDecode := by
  unfold Obligations.EncodingExamplesDecode
  decide

/-! ### The words of the assembler's lines (R98) -/

/-- A line whose operands are in their ranges has its command's word, and any other has none. -/
theorem AsmLine.word_of_range {l : AsmLine} {p : Prop} [Decidable p] {w : Word} (hwf : l.wf = true ↔ p)
    (hw : p → encode l.raw = w) : l.word = if p then some w else none := by
  by_cases hp : p
  · simp [AsmLine.word, AsmLine.assemble, hwf.2 hp, hw hp, hp]
  · simp [AsmLine.word, AsmLine.assemble, mt hwf.1 hp, hp]

/-- The field of a word that holds a number in the field's range. -/
theorem setWidth_ofNat_of_le {n x m : Nat} (hx : x ≤ m) (hm : m < 2 ^ n) (hn : n ≤ 32) :
    (BitVec.ofNat n x).setWidth 32 = BitVec.ofNat 32 x :=
  BitVec.setWidth_ofNat_of_le_of_lt hn (hx.trans_lt hm)

/-- Settles O5: a line with operands by its range check (`AsmLine.word_of_range`) and the fields its numbers fill; a
line without by its fixed word. -/
theorem assembledWordsFollowTheSyntaxTable : Obligations.AssembledWordsFollowTheSyntaxTable := by
  refine ⟨fun a => ?_, fun a d => ?_, fun a n => ?_, fun a n => ?_, fun m => ?_,
    rfl, rfl, rfl, rfl, rfl, rfl, rfl, rfl⟩
  · refine AsmLine.word_of_range (by simp [AsmLine.wf, AsmLine.addrFits]) fun ha => ?_
    simp [AsmLine.raw, encode, packWord, setWidth_ofNat_of_le ha]
  · refine AsmLine.word_of_range (by simp [AsmLine.wf, AsmLine.addrFits, AsmLine.byteFits]) fun ⟨ha, hd⟩ => ?_
    simp [AsmLine.raw, encode, packWord, setWidth_ofNat_of_le ha, setWidth_ofNat_of_le hd]
  · refine AsmLine.word_of_range (by simp [AsmLine.wf, AsmLine.addrFits, AsmLine.byteFits]) fun ⟨ha, hn⟩ => ?_
    simp [AsmLine.raw, encode, packWord, setWidth_ofNat_of_le ha, setWidth_ofNat_of_le hn]
  · refine AsmLine.word_of_range (by simp [AsmLine.wf, AsmLine.addrFits, AsmLine.byteFits]) fun ⟨ha, hn⟩ => ?_
    simp [AsmLine.raw, encode, packWord, setWidth_ofNat_of_le ha, setWidth_ofNat_of_le hn]
  · refine AsmLine.word_of_range (by simp [AsmLine.wf, AsmLine.maskFits]) fun hm => ?_
    simp [AsmLine.raw, encode, packWord, setWidth_ofNat_of_le hm]

end Sys2Proof

namespace Sys2Proof.Machine

/-! ### Performing an Illegal word (R94) -/

/-- Performing an Illegal word is RESULT = ILLEGAL and BUSY = 0. -/
theorem performLatched_of_illegal {s : State} {c : IllegalCause} (hd : decode s.cmdl = .illegal c) :
    performLatched s = .next (s.raise .illegal) := by
  rw [performLatched, hd]
  rfl

/-- Settles O7: the step is that and the deferred edge (`sequencerStep_of_illegal`). -/
theorem illegalCommandChangesOnlyResultAndBusy : Obligations.IllegalCommandChangesOnlyResultAndBusy := by
  intro s c hw hn hb hd
  refine ⟨s.popInput.raise .illegal, rfl, performLatched_of_illegal (s := s.popInput) hd, ?_⟩
  rw [step_of_sequencer hw hn, sequencerStep_of_illegal (s := s.popInput) hb hd]
  rfl

end Sys2Proof.Machine
end

section
/-! The statements of 40_transport.md: what each transport command does as one record, how many transactions a command
appends to TRACE, and the FIFO round trip on the reference radio. -/

namespace Sys2Proof.Machine

open Sys2Proof.Claims

/-! ### The end of a transfer and the loss of MVALID, as records (R112, R115, R241) -/

/-- The end of a command by its transaction's `ok`. -/
theorem State.endTransfer_eq (ok : Bool) (s : State) :
    State.endTransfer ok s = { s with result := endCode ok, busy := false } := by
  cases ok <;> rfl

/-- RESULT is OK exactly when the transaction completed. -/
@[simp] theorem endCode_eq_ok_iff {ok : Bool} : endCode ok = .ok ↔ ok = true := by
  cases ok <;> simp [endCode]

/-- A raw write loses MVALID exactly when a byte goes to ADDR_OPMODE. -/
theorem State.noteRawWrite_eq (a : RegAddr) (n : Nat) (s : State) :
    s.noteRawWrite a n =
      { s with mvalid := if a = BitVec.ofNat 7 s.cfg.regs.opMode ∧ 1 ≤ n then false else s.mvalid } := by
  have hmv : (s.mvalid && !(decide (a = addrOpMode s.cfg) && decide (1 ≤ n))) =
      if a = addrOpMode s.cfg ∧ 1 ≤ n then false else s.mvalid := by
    by_cases h : a = addrOpMode s.cfg ∧ 1 ≤ n
    · simp [h]
    · rw [if_neg h, ← Bool.decide_and, decide_eq_false h, Bool.not_false, Bool.and_true]
  rw [State.noteRawWrite, hmv]
  rfl

/-! ### The commands as records (R110-R115) -/

/-- Settles O12: a read of one byte gives one byte. -/
theorem rdregReadsOneByteIntoRdata : Obligations.RdregReadsOneByteIntoRdata := by
  intro a s
  rw [exec, execRdreg, State.memRead_eq]
  simp only [State.endTransfer_eq, State.setRdata, State.frame_eq, State.misoBytes_one, List.headD_cons]

/-- Settles O13, by what a raw write of one byte does to MVALID. -/
theorem wrregWritesOneByte : Obligations.WrregWritesOneByte := by
  intro a d s
  rw [exec, execWrreg, State.memWrite_eq]
  simp only [State.endTransfer_eq, State.noteRawWrite_eq, State.frame_eq, le_refl, and_true, List.length_singleton]

/-- BUF[0..n-1], byte by byte. -/
theorem State.burstData_eq (s : State) (n : Nat) : s.burstData n = (List.range n).map (Memory.read s.buf) := by
  simp only [State.burstData, Memory.readBytes, Nat.zero_add]

/-- Settles O15, by what a raw write of n bytes does to MVALID. -/
theorem wrburstSendsTheFirstBytesOfBuf : Obligations.WrburstSendsTheFirstBytesOfBuf := by
  intro a n s
  rw [exec, execWrburst, State.memWrite_eq, State.burstData_length, State.burstData_eq]
  simp only [State.endTransfer_eq, State.noteRawWrite_eq, State.frame_eq]

/-- RDBURST as one record. -/
theorem exec_rdburst_eq (a : RegAddr) (n : Byte) (s : State) :
    exec (.rdburst a n) s = .next { s with
      buf := Memory.writeBytes s.buf 0 (s.misoBytes n.toNat)
      result := endCode s.answersOk
      busy := false
      csN := true
      trace := s.trace ++ [.rd a n.toNat (s.misoBytes n.toNat) s.answersOk]
      radio := s.radio.tail
      draws := s.draws + n.toNat + 1 } := by
  rw [exec, execRdburst, State.memRead_eq]
  simp only [State.endTransfer_eq, State.writeBuf, State.frame_eq]

/-- Bytes written from BUF[0] on, by index: the first are the list's, the rest stay. -/
theorem Memory.read_writeBytes_zero {m : Memory} (h : Memory.wf bufSize m = true) {l : List Byte}
    (hl : l.length ≤ bufSize) (k : Nat) :
    Memory.read (Memory.writeBytes m 0 l) k = (l[k]?).getD (Memory.read m k) := by
  rw [Memory.read_writeBytes h 0 l (by omega), if_pos (Nat.zero_le k), Nat.sub_zero]

/-- The bytes of a read, by index. -/
theorem State.misoBytes_getElem? (s : State) (n k : Nat) :
    (s.misoBytes n)[k]? = if k < n then some (s.misoByte k) else none := by
  by_cases hk : k < n <;> simp [State.misoBytes, hk]

/-- Settles O14, by what BUF holds after bytes are written from BUF[0] on. -/
theorem rdburstFillsTheFirstBytesOfBuf : Obligations.RdburstFillsTheFirstBytesOfBuf := by
  intro a n s hwf
  have hlen : (s.misoBytes n.toNat).length ≤ bufSize := (s.misoBytes_length _).trans_le n.isLt.le
  refine ⟨_, _, exec_rdburst_eq a n s, rfl, rfl, fun k hk => ?_, fun k hk => ?_, rfl⟩
  · rw [Memory.read_writeBytes_zero hwf hlen, State.misoBytes_getElem?, if_pos hk, Option.getD_some]
  · rw [Memory.read_writeBytes_zero hwf hlen, State.misoBytes_getElem?, if_neg (Nat.not_lt.2 hk), Option.getD_none]

/-- Settles O11: the only command with opcode 0 is NOP, and its only word is 0 (O2). -/
theorem nopOnlyReportsOk : Obligations.NopOnlyReportsOk := by
  refine ⟨fun s => rfl, decode_encode .nop, fun w ho hne => ⟨_, decode_illegal_of_not_command fun i hd => ?_⟩⟩
  have hw := encodeOfDecodeIsTheWord w i hd
  obtain ⟨hopc, -, -⟩ := fields_of_decode hd
  have h0 : Laws.EncodedFields.opcode i = 0x0#4 := hopc.symm.trans ho
  cases i with
  | nop => exact hne hw.symm
  | rdreg _ | wrreg _ _ | rdburst _ _ | wrburst _ _ | setmode _ | calcfreq | setfreq | service | clrflags _ =>
    simp [Laws.EncodedFields.opcode] at h0

/-- The wires of a read without data (R66, R114). -/
theorem Txn.wire_empty_rd (p : Params) (a : RegAddr) (ok : Bool) :
    (Txn.rd a 0 [] ok).wire p = [.cs false, .mosi (a.setWidth 8), .cs true] := by
  simp [Txn.wire, Txn.mosi, addressByte]

/-- The wires of a write without data (R66, R114). -/
theorem Txn.wire_empty_wr (p : Params) (a : RegAddr) (ok : Bool) :
    (Txn.wr a [] ok).wire p = [.cs false, .mosi (0x80#8 ||| a.setWidth 8), .cs true] := rfl

/-- Settles O16: the two bursts at length 0. -/
theorem zeroLengthBurstsPerformOneEmptyFrame : Obligations.ZeroLengthBurstsPerformOneEmptyFrame := by
  intro a s
  refine ⟨_, _, exec_rdburst_eq a 0#8 s, wrburstSendsTheFirstBytesOfBuf a 0#8 s, rfl, rfl, rfl, rfl, rfl, ?_, rfl, rfl,
    rfl, rfl, Txn.wire_empty_rd .., Txn.wire_empty_wr ..⟩
  exact if_neg fun h => absurd h.2 (by decide)

/-! ### How many transactions a command performs (R118, R164, R185) -/

/-- What was appended to a trace, told in two ways. -/
theorem appended_length {tr old evs : List Txn} (h : tr = old ++ evs) {new : List Txn} (hnew : tr = old ++ new) :
    evs.length = new.length := by
  rw [List.append_cancel_left (h.symm.trans hnew)]

/-- SERVICE's bus part performs the read, and the write-back only if the read completed (R185, R187). -/
theorem State.readAndClearFlags_trace (s : State) :
    ∃ evs, s.readAndClearFlags.trace = s.trace ++ evs ∧ (s.answersOk = true → evs.length = 2) ∧
      (s.answersOk = false → evs.length = 1) := by
  rw [State.readAndClearFlags_eq]
  simp only []
  cases s.answersOk with
  | true =>
    rw [if_pos rfl]
    split
    · exact ⟨[_] ++ [_], (State.recordClass_trace _ _).trans (List.append_assoc _ _ _), fun _ => rfl, nofun⟩
    · exact ⟨[_] ++ [_], List.append_assoc _ _ _, fun _ => rfl, nofun⟩
  | false => exact ⟨[_], rfl, nofun, fun _ => rfl⟩

/-- SETFREQ performs none out of range, all three writes when it ends with OK, and one to three when it ends with
XFER_FAIL (R162, R164). -/
theorem exec_setfreq_txnCount {s t : State} {evs : List Txn} (h : exec .setfreq s = .next t)
    (ht : t.trace = s.trace ++ evs) : txnCountFits .setfreq s t evs.length := by
  rw [exec_setfreq_eq] at h
  by_cases hr : freqOutOfRange s.freq = true
  · rw [if_pos hr] at h
    cases h
    have hlen : evs.length = 0 := appended_length ht (new := []) (List.append_nil _).symm
    exact ⟨nofun, fun _ => hlen, nofun, nofun⟩
  · rw [if_neg hr] at h
    cases h
    obtain ⟨new, hst, hle, -, hall, hfail⟩ := State.writeEach_spec (tuneWrites s.cfg (tuneOf s.freq)) s.latchTune
    have hlen : evs.length = new.length := appended_length ht (by rw [State.endTransfer_trace, hst]; rfl)
    have hle : new.length ≤ 3 := hle
    rw [hlen, txnCountFits, State.endTransfer_result]
    cases hw : (State.writeEach (tuneWrites s.cfg (tuneOf s.freq)) s.latchTune).2 with
    | true => exact ⟨fun _ => (hall hw).1, nofun, nofun, nofun⟩
    | false =>
      obtain ⟨-, front, last, rfl, -⟩ := hfail hw
      exact ⟨nofun, nofun, fun _ => ⟨by simp, hle⟩, nofun⟩

/-- SERVICE performs none without IRQP and polling, else as many as its bus part (R185). -/
theorem exec_service_txnCount {s t : State} {evs : List Txn} (h : exec .service s = .next t)
    (ht : t.trace = s.trace ++ evs) : txnCountFits .service s t evs.length := by
  rw [exec_service_eq] at h
  rw [txnCountFits]
  by_cases hidle : s.irqp = false ∧ s.pollen = false
  · rw [if_pos (by simpa using hidle)] at h
    cases h
    rw [if_pos hidle]
    exact appended_length ht (new := []) (List.append_nil _).symm
  · rw [if_neg (by simpa using hidle)] at h
    cases h
    rw [if_neg hidle]
    obtain ⟨new, hnew, hcount⟩ := State.readAndClearFlags_trace s.clearIrqp
    rw [appended_length ht hnew]
    exact hcount

/-- Every command appends as many transactions as R118's table says. -/
theorem exec_txnCount {i : Instr} {s t : State} {evs : List Txn} (h : exec i s = .next t)
    (ht : t.trace = s.trace ++ evs) : txnCountFits i s t evs.length := by
  have hnone (e : t.trace = s.trace) : evs.length = 0 := appended_length ht (e.trans (List.append_nil _).symm)
  have hone {e : Txn} (he : t.trace = s.trace ++ [e]) : evs.length = 1 := appended_length ht he
  cases i with
  | nop => cases h; exact hnone rfl
  | rdreg a => cases h; exact hone (State.endTransfer_trace ..)
  | wrreg a d => cases h; exact hone (State.endTransfer_trace ..)
  | rdburst a n => cases h; exact hone (State.endTransfer_trace ..)
  | wrburst a n => cases h; exact hone (State.endTransfer_trace ..)
  | setmode m => cases h; exact hone ((State.endTransfer_trace ..).trans (State.recordMode_trace ..))
  | calcfreq =>
    rw [exec_calcfreq_eq] at h
    cases h
    refine hnone ?_
    split <;> rfl
  | setfreq => exact exec_setfreq_txnCount h ht
  | service => exact exec_service_txnCount h ht
  | clrflags m => cases h; exact hnone rfl

/-- OK: every transaction completed. -/
theorem CommandEnd.all_ok_of_ok {i : Instr} {c : Bool} {evs : List Txn} (h : CommandEnd i c evs .ok) :
    ∀ e ∈ evs, e.ok = true := by
  cases h with
  | ok _ hok => exact hok
  | xferFail _ _ hr => cases hr
  | freqRange hr => cases hr

/-- XFER_FAIL: every transaction but the last completed. -/
theorem CommandEnd.only_last_failed {i : Instr} {c : Bool} {evs : List Txn} (h : CommandEnd i c evs .xferFail) :
    ∃ front last, evs = front ++ [last] ∧ last.ok = false ∧ ∀ e ∈ front, e.ok = true := by
  cases h with
  | ok hr => cases hr
  | xferFail front last _ _ _ hevs hlast hfront => exact ⟨front, last, hevs, hlast, hfront⟩
  | freqRange hr => cases hr

/-- Settles O10: the number by `exec_txnCount`, the `ok`s by how a command can end (`exec_endsAs`). -/
theorem transactionsPerCommand : Obligations.TransactionsPerCommand := by
  refine ⟨fun i s => ?_, fun s c hd => ⟨_, performLatched_of_illegal hd, rfl⟩⟩
  obtain ⟨t, h⟩ := exec_answers i s
  obtain ⟨evs, ht, hend⟩ := exec_endsAs h
  exact ⟨t, evs, h, ht, exec_txnCount h ht, fun hr => (hr ▸ hend).all_ok_of_ok, fun hr => (hr ▸ hend).only_last_failed⟩

/-! ### The FIFO round trip on the reference radio (R83, R116) -/

/-- A register number of R10 fits the seven bits of a radio address. -/
theorem toNat_regAddr {p : Params} (hw : p.wf = true) {x : Nat} (hx : x ∈ p.regs.all) : (BitVec.ofNat 7 x).toNat = x := by
  simp only [Params.wf, Params.addressesFit, Bool.and_eq_true, List.all_eq_true, decide_eq_true_eq] at hw
  obtain ⟨⟨⟨⟨hall, -⟩, -⟩, -⟩, -⟩ := hw
  exact (BitVec.toNat_ofNat ..).trans (Nat.mod_eq_of_lt (Nat.lt_succ_of_le (hall x hx)))

section
variable {a : RegAddr} {n : Byte} {s t : State}

/-- A WRREG that ends with OK: its completed write, and BUF as before. -/
theorem exec_wrreg_ok {d : Byte} (h : exec (.wrreg a d) s = .next t) (hr : t.result = .ok) :
    t.trace = s.trace ++ [.wr a [d] true] ∧ t.buf = s.buf := by
  rw [wrregWritesOneByte] at h
  cases h
  exact ⟨by rw [endCode_eq_ok_iff.1 hr], rfl⟩

/-- A WRBURST that ends with OK: its completed write of BUF's first bytes, and BUF as before. -/
theorem exec_wrburst_ok (h : exec (.wrburst a n) s = .next t) (hr : t.result = .ok) :
    t.trace = s.trace ++ [.wr a ((List.range n.toNat).map (Memory.read s.buf)) true] ∧ t.buf = s.buf := by
  rw [wrburstSendsTheFirstBytesOfBuf] at h
  cases h
  exact ⟨by rw [endCode_eq_ok_iff.1 hr], rfl⟩

/-- An RDBURST that ends with OK: its completed read, the bytes of which BUF takes. -/
theorem exec_rdburst_ok (h : exec (.rdburst a n) s = .next t) (hr : t.result = .ok) :
    ∃ d, t.trace = s.trace ++ [.rd a n.toNat d true] ∧ t.buf = Memory.writeBytes s.buf 0 d := by
  rw [exec_rdburst_eq] at h
  cases h
  exact ⟨_, by rw [endCode_eq_ok_iff.1 hr], rfl⟩

end

/-- Bytes that already stand in a memory from its start on change none when written there again. -/
theorem Memory.read_writeBytes_readBack {m : Memory} (h : Memory.wf bufSize m = true) {n : Nat} (hn : n ≤ bufSize)
    (k : Nat) : Memory.read (Memory.writeBytes m 0 ((List.range n).map (Memory.read m))) k = Memory.read m k := by
  rw [Memory.read_writeBytes_zero h (by simpa using hn)]
  by_cases hk : k < n <;> simp [hk]

/-- A register write touches its own register; the FIFO's bytes are elsewhere. -/
theorem RefRadio.writeReg_reg_fifo (p : Params) (r : RefRadio) (i : Nat) (b : Byte) :
    (r.writeReg p i b).reg = Memory.write r.reg i b ∧ (r.writeReg p i b).fifo = r.fifo := by
  unfold RefRadio.writeReg
  simp only []
  split <;> exact ⟨rfl, rfl⟩

/-- A completed write comes first in a replay. -/
theorem RefRadio.replay_wr_cons (p : Params) (a : RegAddr) (v : List Byte) (taken : Bool) (rest : List (Txn × Bool))
    (r : RefRadio) :
    RefRadio.replay p ((.wr a v true, taken) :: rest) r = RefRadio.replay p rest (RefRadio.takeBytes p a 0 v r) := rfl

/-- A completed read is what the reference radio gives. -/
theorem RefRadio.replay_rd {p : Params} {a : RegAddr} {n : Nat} {d : List Byte} {taken : Bool} {r r' : RefRadio}
    (h : RefRadio.replay p [(.rd a n d true, taken)] r = some r') :
    (RefRadio.giveBytes p a 0 n r).1 = d ∧ (RefRadio.giveBytes p a 0 n r).2 = r' := by
  simp only [RefRadio.replay, RefRadio.replay1, if_true] at h
  by_cases hd : (RefRadio.giveBytes p a 0 n r).1 = d
  · rw [if_pos hd] at h
    exact ⟨hd, Option.some.inj h⟩
  · rw [if_neg hd] at h
    cases h

section
variable {p : Params} (hw : p.wf = true) (hfifo : p.regs.fifo ≠ p.regs.fifoAddrPtr)
  (hirq : p.regs.fifoAddrPtr ≠ p.regs.irqFlags)
include hw hfifo hirq

/-- SETPTR 0: a zero written at the pointer register, where it is neither the FIFO nor the IRQ flags (R83, R99). -/
theorem RefRadio.takeBytes_setptr {r : RefRadio} (hreg : Memory.wf 128 r.reg = true) :
    ∃ q, RefRadio.takeBytes p (BitVec.ofNat 7 p.regs.fifoAddrPtr) 0 [0#8] r = q ∧ Memory.wf 128 q.reg = true ∧
      q.fifo = r.fifo ∧ q.fptr p = 0 := by
  have ha : (BitVec.ofNat 7 p.regs.fifoAddrPtr).toNat = p.regs.fifoAddrPtr := toNat_regAddr hw (by simp [RadioRegs.all])
  have hlt : p.regs.fifoAddrPtr < 128 := ha ▸ (BitVec.ofNat 7 p.regs.fifoAddrPtr).isLt
  obtain ⟨hq, hf⟩ := RefRadio.writeReg_reg_fifo p r p.regs.fifoAddrPtr 0#8
  refine ⟨r.writeReg p p.regs.fifoAddrPtr 0#8, ?_, ?_, hf, ?_⟩
  · simp only [RefRadio.takeBytes, RefRadio.takeByte, ha, if_neg hfifo.symm, if_neg hirq, Nat.add_zero,
      Nat.mod_eq_of_lt hlt]
  · rw [hq]
    exact Memory.write_wfWithin hreg (Nat.zero_le _) hlt _
  · rw [RefRadio.fptr, hq, Memory.read_write hreg, if_pos rfl]
    rfl

/-- Both bursts, each after SETPTR 0: the bytes read are the bytes written, and the pointer stands behind them. -/
theorem RefRadio.replay_fifo_roundTrip {v d : List Byte} {n : Nat} (hv : v.length = n) (hn : n < 256) {r r' : RefRadio}
    (hreg : Memory.wf 128 r.reg = true) (hmem : Memory.wf 256 r.fifo = true)
    (h : RefRadio.replay p [(.wr (BitVec.ofNat 7 p.regs.fifoAddrPtr) [0#8] true, true),
      (.wr (BitVec.ofNat 7 p.regs.fifo) v true, true), (.wr (BitVec.ofNat 7 p.regs.fifoAddrPtr) [0#8] true, true),
      (.rd (BitVec.ofNat 7 p.regs.fifo) n d true, true)] r = some r') :
    d = v ∧ r'.fptr p = n := by
  subst hv
  have ha : (BitVec.ofNat 7 p.regs.fifo).toNat = p.regs.fifo := toNat_regAddr hw (by simp [RadioRegs.all])
  have hlt : p.regs.fifoAddrPtr < 128 := toNat_regAddr hw (x := p.regs.fifoAddrPtr) (by simp [RadioRegs.all]) ▸
    (BitVec.ofNat 7 p.regs.fifoAddrPtr).isLt
  obtain ⟨r1, e1, hreg1, hfifo1, hptr1⟩ := RefRadio.takeBytes_setptr hw hfifo hirq hreg
  obtain ⟨r2, e2, hreg2, -, -, hread2⟩ := RefRadio.takeBytes_fifo p _ ha hlt v 0 r1 hreg1 (hfifo1 ▸ hmem)
    (by rwa [hptr1, Nat.zero_add])
  obtain ⟨r3, e3, hreg3, hfifo3, hptr3⟩ := RefRadio.takeBytes_setptr hw hfifo hirq hreg2
  obtain ⟨hgive, hptr4⟩ := RefRadio.giveBytes_fifo p _ ha hlt v.length 0 r3 hreg3 (by rwa [hptr3, Nat.zero_add])
  rw [RefRadio.replay_wr_cons, e1, RefRadio.replay_wr_cons, e2, RefRadio.replay_wr_cons, e3] at h
  obtain ⟨rfl, rfl⟩ := RefRadio.replay_rd h
  refine ⟨?_, by rw [hptr4, hptr3, Nat.zero_add]⟩
  rw [hgive]
  refine List.ext_getElem (by simp) fun k _ hk => ?_
  rw [List.getElem_map, List.getElem_range, hptr3, Nat.zero_add, hfifo3, hread2 k (hk.trans hn), hptr1]
  simp [hk]

end

/-- Settles O37: the four commands record the four transactions of `RefRadio.replay_fifo_roundTrip`, so RDBURST puts
the bytes that WRBURST took from BUF back in their places. -/
theorem fifoRoundTripReturnsTheBytes : Obligations.FifoRoundTripReturnsTheBytes := by
  intro s s1 s2 s3 s4 n r r' added hw hfifo hirq hbuf hreg hmem h1 hr1 h2 hr2 h3 hr3 h4 hr4 hadded hreplay
  obtain ⟨ht1, hb1⟩ := exec_wrreg_ok h1 hr1
  obtain ⟨ht2, hb2⟩ := exec_wrburst_ok h2 hr2
  obtain ⟨ht3, hb3⟩ := exec_wrreg_ok h3 hr3
  obtain ⟨d, ht4, hb4⟩ := exec_rdburst_ok h4 hr4
  rw [hb1] at ht2 hb2
  rw [hb3, hb2] at hb4
  have hlen : ((List.range n.toNat).map (Memory.read s.buf)).length = n.toNat := by simp
  rw [ht4, ht3, ht2, ht1] at hadded
  simp only [List.append_assoc, List.append_cancel_left_eq] at hadded
  rw [← hadded] at hreplay
  obtain ⟨rfl, hptr⟩ := RefRadio.replay_fifo_roundTrip hw hfifo hirq hlen n.isLt hreg hmem hreplay
  refine ⟨fun k => ?_, hptr⟩
  rw [hb4, Memory.read_writeBytes_readBack hbuf n.isLt.le]

end Sys2Proof.Machine
end

section
/-! The statements of 41_mode.md: SETMODE as one record, the byte it writes, and what else can change MODE. -/

namespace Sys2Proof.Machine

open Sys2Proof.Claims

/-! ### SETMODE as a word and as a record (R95, R141, R143) -/

/-- SETMODE's word is its row's pattern with the mode's selector in MODE (R91, R95). -/
theorem encode_setmode (m : OpMode) :
    encode (.setmode m) = 0x50000000#32 ||| ((specSelector m).setWidth 32 <<< 24) := by
  cases m <;> rfl

/-- The mode code a configuration gives is R11's. -/
theorem modeCode_eq (p : Params) (m : OpMode) : modeCode p m = specModeCode p m := by
  cases m <;> rfl

/-- The byte SETMODE writes is R141's. -/
theorem modeByte_eq (p : Params) (m : OpMode) : modeByte p m = specModeByte p m := by
  rw [modeByte, modeCode_eq]
  rfl

/-- MODE takes the mode only from a completed write; MVALID says whether the write completed. -/
theorem State.recordMode_eq (m : OpMode) (ok : Bool) (s : State) :
    s.recordMode m ok = { s with mode := if ok then m else s.mode, mvalid := ok } := by
  cases ok <;> rfl

/-- SETMODE as one record. -/
theorem exec_setmode_eq (m : OpMode) (s : State) :
    exec (.setmode m) s = .next { s with
      mode := if s.answersOk then m else s.mode
      mvalid := s.answersOk
      result := endCode s.answersOk
      busy := false
      csN := true
      trace := s.trace ++ [.wr (BitVec.ofNat 7 s.cfg.regs.opMode) [specModeByte s.cfg m] s.answersOk]
      radio := s.radio.tail
      draws := s.draws + 2 } := by
  rw [exec, execSetmode, State.memWrite_eq, modeByte_eq]
  simp only [State.endTransfer_eq, State.recordMode_eq, State.frame_eq, addrOpMode, List.length_singleton]

/-- Settles O19: the word is SETMODE's own, and the state after it is `exec_setmode_eq`'s. -/
theorem setmodeWritesTheModeByte : Obligations.SetmodeWritesTheModeByte := by
  refine fun m => ⟨?_, fun s => ⟨_, exec_setmode_eq m s, rfl⟩⟩
  rw [← encode_setmode, decode_encode]

/-! ### The mode byte (R11, R142) -/

/-- The mode codes of a configuration that may run have seven bits (R11). -/
theorem specModeCode_lt {p : Params} (hw : p.wf = true) (m : OpMode) : specModeCode p m < 2 ^ 7 := by
  simp only [Params.wf, Params.modeCodesFit, Bool.and_eq_true, List.all_eq_true, decide_eq_true_eq] at hw
  obtain ⟨⟨⟨-, hcodes, -⟩, -⟩, -⟩ := hw
  have hmem : specModeCode p m ∈ p.modeCodes := by cases m <;> simp [specModeCode, Params.modeCodes]
  exact Nat.lt_succ_of_le (hcodes _ hmem)

/-- The long-range bit stands in every mode byte, whatever the code. -/
theorem specModeByte_longRangeBit (p : Params) (m : OpMode) : (specModeByte p m).getLsbD 7 = true := by
  simp [specModeByte]

/-- The long-range bit stands above the low seven bits, so they are the code, where it fits them. -/
theorem specModeByte_code {p : Params} {m : OpMode} (h : specModeCode p m < 2 ^ 7) :
    ((specModeByte p m).extractLsb' 0 7).toNat = specModeCode p m := by
  have hlow : (specModeByte p m).extractLsb' 0 7 = BitVec.ofNat 7 (specModeCode p m) := by
    rw [specModeByte, ← BitVec.setWidth_eq_extractLsb' (by decide), BitVec.setWidth_or,
      BitVec.setWidth_ofNat_of_le (by decide) (specModeCode p m)]
    exact BitVec.zero_or
  rw [hlow, BitVec.toNat_ofNat, Nat.mod_eq_of_lt h]

/-- Settles O20: the transaction is the one of `exec_setmode_eq`; its byte is the long-range bit above a code of seven
bits. -/
theorem modeByteAlwaysHasTheLongRangeBit : Obligations.ModeByteAlwaysHasTheLongRangeBit := fun m s hw =>
  ⟨_, _, _, exec_setmode_eq m s, rfl, rfl, specModeByte_longRangeBit s.cfg m, specModeByte_code (specModeCode_lt hw m)⟩

/-! ### The writers of MODE (R145) -/

/-- Settles O21, by what a step other than block reset can do to MODE (`step_command_writers`). -/
theorem modeChangesOnlyBySetmodeOrReset : Obligations.ModeChangesOnlyBySetmodeOrReset := by
  intro s t h hne
  by_cases hr : s.nextInput = .blockReset
  · exact .inr hr
  · obtain ⟨-, -, -, hmode, -⟩ := step_command_writers h hr
    exact .inl (hmode hne)

end Sys2Proof.Machine
end

section
/-! The statements of 42_freq.md: the tuning word as a number and as three bytes, what CALCFREQ and SETFREQ answer in
and out of range, and how far SETFREQ's three writes go. -/

namespace Sys2Proof.Machine

open Sys2Proof.Claims

/-! ### The tuning word (R160, R162, R167) -/

/-- The model's tuning word is R160's. -/
theorem tuningWord_eq_specTune (f : Word) : tuningWord f = specTune f := by
  simp only [tuningWord, specTune, Config.frfShift, Config.fxosc, Nat.reducePow]

/-- The word TUNE takes is R160's, in 24 bits. -/
theorem tuneOf_eq (f : Word) : tuneOf f = BitVec.ofNat 24 (specTune f) := by
  rw [tuneOf, tuningWord_eq_specTune]

/-- The word of R160 fits in 24 bits exactly below 1 024 000 000 Hz. -/
theorem specTune_lt_iff (f : Word) : specTune f < 2 ^ 24 ↔ f.toNat < 1024000000 := by
  rw [← tuningWord_eq_specTune, tuningWord_lt_iff]

/-- 2^19 / 32 000 000 is 256 / 15625 in lowest terms, and a floor is the largest number below. -/
theorem le_tuningWord_iff (f : Word) (q : Nat) : q ≤ tuningWord f ↔ q * 15625 ≤ 256 * f.toNat := by
  rw [tuningWord_eq_specTune, specTune, Nat.le_div_iff_mul_le (by decide)]
  omega

/-- Settles O25: the floor by `le_tuningWord_iff`, the two examples by their quotient. -/
theorem tuningWordIsTheLargestStepBelow : Obligations.TuningWordIsTheLargestStepBelow :=
  ⟨fun f => ⟨tuningWord_eq_specTune f, fun q => (le_tuningWord_iff f q).symm⟩, by decide, by decide⟩

/-! ### The two commands by the range of FREQ (R161, R162, R244) -/

/-- In range, CALCFREQ latches the tuning word and completes. -/
theorem exec_calcfreq_of_lt {s : State} (h : s.freq.toNat < 1024000000) :
    exec .calcfreq s = .next s.latchTune.complete := by
  rw [exec_calcfreq_eq, if_neg (by rw [freqOutOfRange_iff]; omega)]

/-- Out of range, CALCFREQ reports FREQ_RANGE only. -/
theorem exec_calcfreq_of_ge {s : State} (h : 1024000000 ≤ s.freq.toNat) :
    exec .calcfreq s = .next (s.raise .freqRange) := by
  rw [exec_calcfreq_eq, if_pos ((freqOutOfRange_iff _).2 h)]

/-- In range, SETFREQ latches the tuning word, writes its bytes and ends with the outcome of the writes. -/
theorem exec_setfreq_of_lt {s : State} (h : s.freq.toNat < 1024000000) :
    exec .setfreq s = .next
      (State.endTransfer (State.writeEach (tuneWrites s.cfg (tuneOf s.freq)) s.latchTune).2
        (State.writeEach (tuneWrites s.cfg (tuneOf s.freq)) s.latchTune).1) := by
  rw [exec_setfreq_eq, if_neg (by rw [freqOutOfRange_iff]; omega)]

/-- Out of range, SETFREQ reports FREQ_RANGE only. -/
theorem exec_setfreq_of_ge {s : State} (h : 1024000000 ≤ s.freq.toNat) :
    exec .setfreq s = .next (s.raise .freqRange) := by
  rw [exec_setfreq_eq, if_pos ((freqOutOfRange_iff _).2 h)]

/-- Settles O22: in range TUNE takes the word, which loses no bit in 24; out of range only RESULT and BUSY change. -/
theorem calcfreqLatchesTheTuningWord : Obligations.CalcfreqLatchesTheTuningWord := by
  refine ⟨decode_encode .calcfreq, fun s => ⟨fun hlt => ⟨?_, ?_⟩, fun hge => ?_⟩⟩
  · rw [exec_calcfreq_of_lt ((specTune_lt_iff _).1 hlt), ← tuneOf_eq]
    rfl
  · rw [BitVec.toNat_ofNat, Nat.mod_eq_of_lt hlt]
  · have hf : 1024000000 ≤ s.freq.toNat := by
      rw [← not_lt, ← specTune_lt_iff]
      exact hge.not_gt
    exact exec_calcfreq_of_ge hf

/-- Settles O23: the bound by `specTune_lt_iff`, and from it on either command only reports FREQ_RANGE. -/
theorem outOfRangeFrequencyWritesNothing : Obligations.OutOfRangeFrequencyWritesNothing :=
  ⟨specTune_lt_iff, fun _ h => ⟨exec_calcfreq_of_ge h, exec_setfreq_of_ge h⟩⟩

/-! ### Several writes: their frame and their outcomes (R164, R166) -/

/-- Several writes, at least one, leave everything but the bus and its record alone; the number of transactions they
record says how many answers and draws they took. -/
theorem State.writeEach_eq_of_trace {l : List (RegAddr × Byte)} (hl : l ≠ []) {s : State} {evs : List Txn}
    (h : (State.writeEach l s).1.trace = s.trace ++ evs) :
    (State.writeEach l s).1 = { s with
      csN := true
      trace := s.trace ++ evs
      radio := s.radio.drop evs.length
      draws := s.draws + 2 * evs.length } := by
  obtain ⟨new, hst, -⟩ := State.writeEach_spec l s
  rw [hst] at h
  rw [hst, if_neg hl, List.append_cancel_left h]

/-- The transactions of several one-byte writes, in their order, with the outcomes `oks` as far as they go. -/
def writeEvents (l : List (RegAddr × Byte)) (oks : List Bool) : List Txn :=
  List.zipWith (fun w ok => Txn.wr w.1 [w.2] ok) l oks

/-- With no outcome there is no transaction. -/
theorem writeEvents_no_outcome (l : List (RegAddr × Byte)) : writeEvents l [] = [] := List.zipWith_nil_right

/-- The first write has the first outcome. -/
theorem writeEvents_cons (w : RegAddr × Byte) (l : List (RegAddr × Byte)) (ok : Bool) (oks : List Bool) :
    writeEvents (w :: l) (ok :: oks) = .wr w.1 [w.2] ok :: writeEvents l oks := rfl

/-- Several writes record the writes of the list in order: all of them, all completed, or some completed ones and then
one that failed. -/
theorem State.writeEach_oks (l : List (RegAddr × Byte)) (s : State) :
    ∃ oks, (State.writeEach l s).1.trace = s.trace ++ writeEvents l oks ∧
      (((State.writeEach l s).2 = true ∧ oks = List.replicate l.length true) ∨
        ((State.writeEach l s).2 = false ∧ ∃ k < l.length, oks = List.replicate k true ++ [false])) := by
  induction l generalizing s with
  | nil => exact ⟨[], (List.append_nil _).symm, .inl ⟨rfl, rfl⟩⟩
  | cons w rest ih =>
    obtain ⟨a, b⟩ := w
    rw [State.writeEach_cons]
    cases s.answersOk with
    | true =>
      rw [if_pos rfl]
      obtain ⟨oks, htrace, hoks⟩ := ih (s.frame 1 (.wr a [b] true))
      refine ⟨true :: oks, htrace.trans (List.append_assoc _ _ _), ?_⟩
      obtain ⟨hall, rfl⟩ | ⟨hfail, k, hk, rfl⟩ := hoks
      · exact .inl ⟨hall, rfl⟩
      · exact .inr ⟨hfail, k + 1, Nat.succ_lt_succ hk, rfl⟩
    | false =>
      rw [if_neg Bool.false_ne_true]
      refine ⟨[false], ?_, .inr ⟨rfl, 0, Nat.succ_pos _, rfl⟩⟩
      rw [writeEvents_cons, writeEvents_no_outcome]
      rfl

/-- Without XFER_CAN_FAIL all of several writes complete. -/
theorem State.writeEach_of_cannot_fail {s : State} (h : s.cfg.xferCanFail = false) (l : List (RegAddr × Byte)) :
    (State.writeEach l s).2 = true := by
  obtain ⟨_, -, -, -, -, hfail⟩ := State.writeEach_spec l s
  by_contra hne
  obtain ⟨hcan, -⟩ := hfail (eq_false_of_ne_true hne)
  rw [h] at hcan
  cases hcan

/-! ### SETFREQ (R164, R166) -/

/-- SETFREQ has something to write. -/
theorem tuneWrites_ne_nil (p : Params) (q : TuneWord) : tuneWrites p q ≠ [] := List.cons_ne_nil _ _

/-- The transactions of SETFREQ's three writes are R164's. -/
theorem writeEvents_tuneWrites (p : Params) (q : TuneWord) (oks : List Bool) :
    writeEvents (tuneWrites p q) oks = tuneEvents p q oks := rfl

/-- Three writes that stop at the first failure have four outcomes, and only one of them is a success. -/
theorem State.writeEach_tuneWrites (p : Params) (q : TuneWord) (s : State) :
    ∃ oks, (State.writeEach (tuneWrites p q) s).1.trace = s.trace ++ tuneEvents p q oks ∧
      (oks = [false] ∨ oks = [true, false] ∨ oks = [true, true, false] ∨ oks = [true, true, true]) ∧
      (State.writeEach (tuneWrites p q) s).2 = decide (oks = [true, true, true]) := by
  obtain ⟨oks, htrace, hoks⟩ := State.writeEach_oks (tuneWrites p q) s
  rw [writeEvents_tuneWrites] at htrace
  refine ⟨oks, htrace, ?_⟩
  obtain ⟨hall, rfl⟩ | ⟨hfail, k, hk, rfl⟩ := hoks
  · exact ⟨by simp [tuneWrites], hall.trans (by simp [tuneWrites])⟩
  · rw [hfail]
    match k, hk with
    | 0, _ | 1, _ | 2, _ => simp

/-- Settles O24: out of range by `exec_setfreq_of_ge`; in range the state is the record of `writeEach_eq_of_trace`, with
the trace and the outcomes of `writeEach_tuneWrites`. -/
theorem setfreqWritesMsbMidLsb : Obligations.SetfreqWritesMsbMidLsb := by
  refine ⟨decode_encode .setfreq, fun s h => exec_setfreq_of_ge h, fun s h => ?_⟩
  obtain ⟨oks, htrace, hfour, hok⟩ := State.writeEach_tuneWrites s.cfg (tuneOf s.freq) s.latchTune
  have hexec := exec_setfreq_of_lt h
  rw [State.writeEach_eq_of_trace (tuneWrites_ne_nil _ _) htrace, hok, State.endTransfer_eq] at hexec
  refine ⟨_, oks, hexec, hfour, fun hc => ?_, ?_⟩
  · have hall := State.writeEach_of_cannot_fail (s := s.latchTune) hc (tuneWrites s.cfg (tuneOf s.freq))
    exact of_decide_eq_true (hok.symm.trans hall)
  · rw [← tuneOf_eq]
    rfl

/-! ### The three bytes and their addresses (R10, R163) -/

/-- The three bytes are the digits of the word to the base 256, most significant first. -/
theorem tuneBytes_toNat (q : TuneWord) :
    (tuneMsb q).toNat * 65536 + (tuneMid q).toNat * 256 + (tuneLsb q).toNat = q.toNat := by
  have hq := q.isLt
  simp only [tuneMsb, tuneMid, tuneLsb, BitVec.extractLsb'_toNat, Nat.shiftRight_eq_div_pow]
  omega

/-- The three tuning registers of a configuration that may run have seven-bit numbers (R10). -/
theorem toNat_addrFrf {p : Params} (hw : p.wf = true) {k : Nat} (hk : k ≤ 2) :
    (addrFrf p k).toNat = p.regs.frfMsb + k := by
  simp only [Params.wf, Params.addressesFit, Bool.and_eq_true, decide_eq_true_eq] at hw
  obtain ⟨⟨⟨⟨-, hfrf⟩, -⟩, -⟩, -⟩ := hw
  rw [addrFrf, BitVec.toNat_ofNat, Nat.mod_eq_of_lt (by omega)]

/-- Settles O26, byte by byte and address by address. -/
theorem tuningBytesAreTheWordMsbFirst : Obligations.TuningBytesAreTheWordMsbFirst := fun _ q hw =>
  ⟨_, _, _, rfl, tuneBytes_toNat q, toNat_addrFrf hw (k := 0) (by decide), toNat_addrFrf hw (k := 1) (by decide),
    toNat_addrFrf hw (k := 2) (by decide)⟩

end Sys2Proof.Machine
end

section
/-! The statements of 43_detector.md: SERVICE by the outcomes of its transfers, CLRFLAGS, which step can change a
sticky flag, an edge beside SERVICE, the synchronizer on a rising line, and SERVICE at the reference radio. -/

namespace Sys2Proof.Machine

open Sys2Proof.Claims

/-! ### The class of a flags byte (R12, R186) -/

/-- A mask of one bit tests that bit (R12); beyond the byte both are 0. -/
theorem anySet_bitMask (v : Byte) (b : Nat) : anySet v (bitMask b) = v.getLsbD b := by
  have hand : v &&& bitMask b = if v.getLsbD b then BitVec.twoPow 8 b else 0#8 := BitVec.and_twoPow v b
  rw [anySet, hand]
  cases hv : v.getLsbD b with
  | false => rfl
  | true =>
    have hb : b < 8 := BitVec.lt_of_getLsbD hv
    have hne : BitVec.twoPow 8 b ≠ 0#8 := fun h => by
      simpa [hb] using congrArg (fun x => x.getLsbD b) h
    simpa using hne

/-- The class by the masks is the class by the bits. -/
theorem classOf_eq (p : Params) (v : Byte) : classOf p v = specClass p v := by
  simp only [classOf, specClass, maskRx, maskCrc, maskTx, anySet_bitMask, Bool.and_eq_true, Bool.not_eq_true']

/-- Recording a class as one record. -/
theorem State.recordClass_eq (c : SvcClass) (s : State) :
    s.recordClass c = { s with
      rxc := s.rxc || decide (c = .rx)
      txc := s.txc || decide (c = .tx)
      crcd := s.crcd || decide (c = .crc)
      svc := c } := by
  apply State.ext <;> simp

/-! ### SERVICE by its transfers (R185, R186, R187) -/

/-- A failed read ends SERVICE's bus part. -/
theorem State.readAndClearFlags_of_readFails {s : State} (h : s.answersOk = false) :
    s.readAndClearFlags = { s with
      svc := .none
      result := .xferFail
      busy := false
      csN := true
      trace := s.trace ++ [.rd (BitVec.ofNat 7 s.cfg.regs.irqFlags) 1 [s.misoByte 0] false]
      radio := s.radio.tail
      draws := s.draws + 2 } := by
  rw [State.readAndClearFlags_eq]
  simp only [h, Bool.false_eq_true, if_false, State.frame_eq, State.noService, State.raise, addrIrqFlags]

/-- After a completed read the byte is in LASTFLAGS and is written back; the outcome `ok` of the write-back decides
whether it is classified. -/
theorem State.readAndClearFlags_of_readCompletes {s : State} (h : s.answersOk = true) :
    ∃ ok, s.readAndClearFlags = { s with
      lastFlags := s.misoByte 0
      svc := if ok then specClass s.cfg (s.misoByte 0) else .none
      rxc := s.rxc || (ok && decide (specClass s.cfg (s.misoByte 0) = .rx))
      txc := s.txc || (ok && decide (specClass s.cfg (s.misoByte 0) = .tx))
      crcd := s.crcd || (ok && decide (specClass s.cfg (s.misoByte 0) = .crc))
      result := endCode ok
      busy := false
      csN := true
      trace := s.trace ++ [.rd (BitVec.ofNat 7 s.cfg.regs.irqFlags) 1 [s.misoByte 0] true,
        .wr (BitVec.ofNat 7 s.cfg.regs.irqFlags) [s.misoByte 0] ok]
      radio := s.radio.tail.tail
      draws := s.draws + 4 } := by
  refine ⟨((s.frame 1 (.rd (addrIrqFlags s.cfg) 1 [s.misoByte 0] true)).setLastFlags (s.misoByte 0)).answersOk, ?_⟩
  rw [State.readAndClearFlags_eq]
  simp only [h, if_true]
  split
  · rename_i hok
    rw [State.classify_eq, classOf_eq, State.recordClass_eq, hok]
    simp only [State.frame_eq, State.setLastFlags, State.complete, State.raise, addrIrqFlags, endCode,
      List.append_assoc, List.cons_append, List.nil_append, if_true, Bool.true_and]
  · rename_i hfail
    rw [eq_false_of_ne_true hfail]
    simp only [State.frame_eq, State.setLastFlags, State.noService, State.raise, addrIrqFlags, endCode,
      List.append_assoc, List.cons_append, List.nil_append, Bool.false_eq_true, if_false, Bool.false_and, Bool.or_false]

/-- With IRQP or polling, SERVICE clears IRQP and does its bus part. -/
theorem exec_service_of_pending {s : State} (h : s.irqp = true ∨ s.pollen = true) :
    exec .service s = .next s.clearIrqp.readAndClearFlags := by
  rw [exec_service_eq, if_neg]
  rcases h with h | h <;> simp [h]

/-- With neither, it reports that there was nothing to do. -/
theorem exec_service_of_silent {s : State} (hi : s.irqp = false) (hp : s.pollen = false) :
    exec .service s = .next { s with svc := .none, result := .ok, busy := false } := by
  rw [exec_service_eq, if_pos (by simp [hi, hp])]
  apply congrArg Host.Outcome.next
  apply State.ext <;> simp [hi]

/-- Settles O27: without IRQP and polling by `exec_service_of_silent`; else the state is the record of the failed or
of the completed read. -/
theorem serviceReadsClearsAndClassifies : Obligations.ServiceReadsClearsAndClassifies := by
  refine ⟨decode_encode .service, fun s => exec_service_of_silent, fun s hp => ?_⟩
  refine ⟨_, exec_service_of_pending hp, ?_⟩
  have ha : s.clearIrqp.answersOk = s.answersOk := rfl
  cases h : s.answersOk with
  | false =>
    rw [State.readAndClearFlags_of_readFails (ha.trans h)]
    exact ⟨rfl, fun _ => ⟨rfl, rfl, rfl, rfl, rfl, rfl, rfl⟩, nofun⟩
  | true =>
    obtain ⟨ok, hst⟩ := State.readAndClearFlags_of_readCompletes (ha.trans h)
    rw [hst]
    exact ⟨rfl, nofun, fun _ => ⟨ok, rfl, rfl, rfl, rfl, rfl, rfl, rfl⟩⟩

/-- Settles O28: with POLLEN = 1 both values of IRQP lead to the same bus part; what SERVICE appends is O27's. -/
theorem pollAndInterruptPathsAgree : Obligations.PollAndInterruptPathsAgree := by
  obtain ⟨-, hsilent, hpending⟩ := serviceReadsClearsAndClassifies
  refine ⟨fun s b hp => ?_, fun s hp => ?_, fun s hp => ?_, rfl, fun s => rfl⟩
  · rw [exec_service_of_pending (s := { s with irqp := b }) (.inr hp), exec_service_of_pending (.inr hp)]
    rfl
  · obtain ⟨t, ht, -, hfails, hcompletes⟩ := hpending s (.inr hp)
    cases h : s.answersOk with
    | false =>
      obtain ⟨htrace, -, -, hresult, -⟩ := hfails h
      exact ⟨t, [], ht, htrace, fun hok => by simp [hresult] at hok⟩
    | true =>
      obtain ⟨ok, htrace, hlast, hresult, hsvc, -⟩ := hcompletes h
      refine ⟨t, _, ht, htrace, fun hok => ⟨hlast, ?_⟩⟩
      rw [hsvc, if_pos (endCode_eq_ok_iff.1 (hresult.symm.trans hok))]
  · cases hi : s.irqp with
    | false => exact ⟨_, hsilent s hi hp, by simp⟩
    | true =>
      obtain ⟨t, ht, -, hfails, hcompletes⟩ := hpending s (.inl hi)
      refine ⟨t, ht, iff_of_true ?_ rfl⟩
      cases h : s.answersOk with
      | false =>
        obtain ⟨htrace, -⟩ := hfails h
        simp [htrace]
      | true =>
        obtain ⟨ok, htrace, -⟩ := hcompletes h
        simp [htrace]

/-! ### CLRFLAGS (R92, R190) -/

/-- CLRFLAGS' word is its row's pattern with the mask in DATA (R91, R95). -/
theorem encode_clrflags (m : BitVec 4) : encode (.clrflags m) = 0x90000000#32 ||| m.setWidth 32 := by
  revert m
  decide

/-- A bit that its mask bit clears. -/
theorem and_not_eq_ite (b m : Bool) : (b && !m) = if m then false else b := by
  cases m <;> simp

/-- Settles O29: the word is CLRFLAGS' own, and the sticky bits are the only elements it clears. -/
theorem clrflagsClearsTheSelectedBits : Obligations.ClrflagsClearsTheSelectedBits := by
  refine fun m => ⟨?_, fun s => ?_⟩
  · rw [← encode_clrflags, decode_encode]
  · simp only [exec, execClrflags, State.clearSticky, and_not_eq_ite]
    rfl

/-! ### The sticky flags (R191) -/

/-- TXC, RXC and CRCD by their bit in CLRFLAGS' mask (R190). -/
def State.sticky (s : State) : Fin 3 → Bool
  | 0 => s.txc
  | 1 => s.rxc
  | 2 => s.crcd

/-- SERVICE clears no sticky flag. -/
theorem exec_service_keeps_sticky {s t : State} (h : exec .service s = .next t) {k : Fin 3} (hk : s.sticky k = true) :
    t.sticky k = true := by
  rw [exec_service_eq] at h
  cases h
  split
  · match k with
    | 0 | 1 | 2 => exact hk
  · have ha : s.clearIrqp.answersOk = s.answersOk := rfl
    cases hok : s.answersOk with
    | false =>
      rw [State.readAndClearFlags_of_readFails (ha.trans hok)]
      match k with
      | 0 | 1 | 2 => exact hk
    | true =>
      obtain ⟨_, hst⟩ := State.readAndClearFlags_of_readCompletes (ha.trans hok)
      rw [hst]
      match k with
      | 0 | 1 | 2 => exact Bool.or_eq_true_iff.2 (.inl hk)

/-- CLRFLAGS clears the sticky flags its mask selects and keeps the others. -/
theorem exec_clrflags_sticky {m : BitVec 4} {s t : State} (h : exec (.clrflags m) s = .next t) (k : Fin 3) :
    t.sticky k = (s.sticky k && !m.getLsbD k) := by
  cases h
  match k with
  | 0 | 1 | 2 => rfl

/-- What a command can do to a sticky flag: leave it, set it by SERVICE, or clear it by CLRFLAGS with its mask bit. -/
theorem exec_sticky {i : Instr} {s t : State} (h : exec i s = .next t) (k : Fin 3) :
    t.sticky k = s.sticky k ∨ (t.sticky k = true ∧ i = .service) ∨
      (t.sticky k = false ∧ ∃ m, i = .clrflags m ∧ m.getLsbD k = true) := by
  have hwriter : t.sticky k = s.sticky k ∨ i = .service ∨ ∃ m, i = .clrflags m ∧ m.getLsbD k = true := by
    obtain ⟨-, htxc, hrxc, hcrcd, -⟩ := exec_writtenBy h
    match k with
    | 0 => exact htxc
    | 1 => exact hrxc
    | 2 => exact hcrcd
  rcases hwriter with he | rfl | ⟨m, rfl, hm⟩
  · exact .inl he
  · cases hs : s.sticky k with
    | false => cases ht : t.sticky k <;> simp
    | true => exact .inl (exec_service_keeps_sticky h hs)
  · refine .inr (.inr ⟨?_, m, rfl, hm⟩)
    rw [exec_clrflags_sticky h, hm, Bool.not_true, Bool.and_false]

/-- Two states with the same TXC, RXC and CRCD have the same sticky flags. -/
theorem State.sticky_eq {s t : State} (htxc : t.txc = s.txc) (hrxc : t.rxc = s.rxc) (hcrcd : t.crcd = s.crcd)
    (k : Fin 3) : t.sticky k = s.sticky k := by
  match k with
  | 0 => exact htxc
  | 1 => exact hrxc
  | 2 => exact hcrcd

/-- What a step can do to a sticky flag: leave it, set it by SERVICE, or clear it by CLRFLAGS with its mask bit or by
block reset. -/
theorem step_sticky {s t : State} (h : step s = .next t) (k : Fin 3) :
    t.sticky k = s.sticky k ∨ (t.sticky k = true ∧ performs s .service) ∨
      (t.sticky k = false ∧
        ((∃ m, performs s (.clrflags m) ∧ m.getLsbD k = true) ∨ s.nextInput = .blockReset)) := by
  cases step_moves h with
  | command i u hp hu ht =>
    have hti : t.sticky k = u.sticky k := by
      subst ht
      exact State.sticky_eq rfl rfl rfl k
    rw [hti]
    rcases exec_sticky hu k with he | ⟨h1, rfl⟩ | ⟨h0, m, rfl, hm⟩
    · exact .inl (he.trans (State.sticky_eq rfl rfl rfl k))
    · exact .inr (.inl ⟨h1, hp⟩)
    · exact .inr (.inr ⟨h0, .inl ⟨m, hp, hm⟩⟩)
  | hostWrite off v hn ht =>
    subst ht
    obtain ⟨htxc, hrxc, hcrcd, -⟩ := State.hostWrite_keeps off v s.popInput
    exact .inl (State.sticky_eq htxc hrxc hcrcd k)
  | reset hn ht =>
    subst ht
    refine .inr (.inr ⟨?_, .inr hn⟩)
    match k with
    | 0 | 1 | 2 => rfl
  | idle hn hb ht => subst ht; exact .inl (State.sticky_eq rfl rfl rfl k)
  | illegal hn hb ht => subst ht; exact .inl (State.sticky_eq rfl rfl rfl k)
  | hostRead off hn ht => subst ht; exact .inl (State.sticky_eq rfl rfl rfl k)
  | edge hn ht => subst ht; exact .inl (State.sticky_eq rfl rfl rfl k)
  | edgeDuring hn ht => subst ht; exact .inl (State.sticky_eq rfl rfl rfl k)
  | clock d hn ht => subst ht; exact .inl (State.sticky_eq rfl rfl rfl k)

/-- A sticky flag that rises does so by SERVICE. -/
theorem step_sticky_rises {s t : State} (h : step s = .next t) (k : Fin 3) (h0 : s.sticky k = false)
    (h1 : t.sticky k = true) : performs s .service := by
  rcases step_sticky h k with he | ⟨-, hp⟩ | ⟨h0', -⟩
  · simp [he, h0] at h1
  · exact hp
  · simp [h0'] at h1

/-- A sticky flag that falls does so by CLRFLAGS with its mask bit or by block reset. -/
theorem step_sticky_falls {s t : State} (h : step s = .next t) (k : Fin 3) (h1 : s.sticky k = true)
    (h0 : t.sticky k = false) :
    (∃ m, performs s (.clrflags m) ∧ m.getLsbD k = true) ∨ s.nextInput = .blockReset := by
  rcases step_sticky h k with he | ⟨h1', -⟩ | ⟨-, hm⟩
  · simp [he, h1] at h0
  · simp [h1'] at h0
  · exact hm

/-- An edge sets IRQP and takes its turn from the schedule. -/
theorem step_of_edge {s t : State} (h : step s = .next t) (hn : s.nextInput = .edge) : t = s.popInput.setIrqp := by
  obtain ⟨-, ha⟩ := step_next h
  rw [hn] at ha
  injection ha with ha
  exact ha.symm

/-- Settles O30, by what a step can do to a sticky flag (`step_sticky`), for each of the three. -/
theorem onlyServiceAndClrflagsTouchTheStickyFlags : Obligations.OnlyServiceAndClrflagsTouchTheStickyFlags := by
  intro s t h
  refine ⟨step_sticky_rises h 0, step_sticky_rises h 1, step_sticky_rises h 2, step_sticky_falls h 0,
    step_sticky_falls h 1, step_sticky_falls h 2, fun hn => ?_⟩
  rw [step_of_edge h hn]
  rfl

/-! ### Edges (R181, R182, R184) -/

/-- Settles O32: it is O6's step with a coincident edge, for SERVICE. -/
theorem coincidentEdgeWins : Obligations.CoincidentEdgeWins := by
  intro s hw hn hb hd
  obtain ⟨hcommand, -⟩ := stepRunsTheDecodedCommand
  obtain ⟨t, ht, -, hedge⟩ := hcommand s .service hw hb hd
  exact ⟨t, ht, hedge hn⟩

/-- Settles O34: a high level travels through the stages for SYNC_STAGES clocks and is detected at the next; a low one
leaves the synchronizer at rest. -/
theorem synchronizerDetectsARisingLine : Obligations.SynchronizerDetectsARisingLine := by
  intro s n hedge hs he hirq hn
  refine ⟨?_, ?_, fun k => ?_⟩
  · rw [State.clockSync_iterate (b := true) hs he le_rfl]
    exact hirq
  · exact State.clockSync_iterate_detects (b := true) hn hs he (by rw [hedge]; rfl)
  · rw [Function.iterate_fixed (State.clockSync_at_rest hn hs he) k]
    exact hirq

/-! ### SERVICE at the reference radio (R65, R83, R187) -/

/-- A completed read comes first in a replay: it is what the reference radio gives, which then goes on. -/
theorem RefRadio.replay_rd_cons {p : Params} {a : RegAddr} {n : Nat} {d : List Byte} {taken : Bool}
    {rest : List (Txn × Bool)} {r r' : RefRadio}
    (h : RefRadio.replay p ((.rd a n d true, taken) :: rest) r = some r') :
    (RefRadio.giveBytes p a 0 n r).1 = d ∧ RefRadio.replay p rest (RefRadio.giveBytes p a 0 n r).2 = some r' := by
  simp only [RefRadio.replay, RefRadio.replay1, if_true] at h
  by_cases hd : (RefRadio.giveBytes p a 0 n r).1 = d
  · rw [if_pos hd] at h
    exact ⟨hd, h⟩
  · rw [if_neg hd] at h
    cases h

/-- A SERVICE that uses the bus and completes: LASTFLAGS, and the two transactions, both completed. -/
theorem exec_service_ok {s t : State} (hp : s.irqp = true ∨ s.pollen = true) (h : exec .service s = .next t)
    (hr : t.result = .ok) :
    t.trace = s.trace ++ [.rd (BitVec.ofNat 7 s.cfg.regs.irqFlags) 1 [t.lastFlags] true,
      .wr (BitVec.ofNat 7 s.cfg.regs.irqFlags) [t.lastFlags] true] := by
  obtain ⟨-, -, hpending⟩ := serviceReadsClearsAndClassifies
  obtain ⟨u, hu, -, hfails, hcompletes⟩ := hpending s hp
  cases hu.symm.trans h
  cases ha : s.answersOk with
  | false =>
    obtain ⟨-, -, -, hresult, -⟩ := hfails ha
    simp [hresult] at hr
  | true =>
    obtain ⟨ok, htrace, hlast, hresult, -⟩ := hcompletes ha
    have hok : ok = true := endCode_eq_ok_iff.1 (hresult.symm.trans hr)
    rw [htrace, hlast, hok]

section
variable {p : Params} (hw : p.wf = true) (hfifo : p.regs.irqFlags ≠ p.regs.fifo) (r : RefRadio)
include hw hfifo

/-- A read of the IRQ flags gives what their register holds and changes nothing (R83). -/
theorem RefRadio.giveBytes_irqFlags (hver : p.regs.irqFlags ≠ p.regs.version) :
    RefRadio.giveBytes p (BitVec.ofNat 7 p.regs.irqFlags) 0 1 r = ([Memory.read r.reg p.regs.irqFlags], r) := by
  have ha : (BitVec.ofNat 7 p.regs.irqFlags).toNat = p.regs.irqFlags := toNat_regAddr hw (by simp [RadioRegs.all])
  have hlt : p.regs.irqFlags < 128 := ha ▸ (BitVec.ofNat 7 p.regs.irqFlags).isLt
  simp only [RefRadio.giveBytes, RefRadio.giveByte, ha, if_neg hfifo, Nat.add_zero, Nat.mod_eq_of_lt hlt,
    RefRadio.readReg, if_neg hver]

/-- A write to the IRQ flags clears the ones it carries (R65, R83). -/
theorem RefRadio.takeBytes_irqFlags (v : Byte) :
    RefRadio.takeBytes p (BitVec.ofNat 7 p.regs.irqFlags) 0 [v] r =
      { r with reg := Memory.write r.reg p.regs.irqFlags (writeOneToClear (Memory.read r.reg p.regs.irqFlags) v) } := by
  have ha : (BitVec.ofNat 7 p.regs.irqFlags).toNat = p.regs.irqFlags := toNat_regAddr hw (by simp [RadioRegs.all])
  simp only [RefRadio.takeBytes, RefRadio.takeByte, ha, if_neg hfifo, if_true]

end

/-- A byte written back clears exactly itself (R65). -/
theorem writeOneToClear_self (f : Byte) : writeOneToClear f f = 0#8 := by
  obtain ⟨-, hself, -⟩ := writeOneToClearClearsExactlyTheOnes f f f
  exact hself

/-- Settles O36: the read gives the flags register's byte, and the write-back of that byte leaves 0 there and touches
no other register. -/
theorem serviceClearsWhatItReadAtTheReferenceRadio : Obligations.ServiceClearsWhatItReadAtTheReferenceRadio := by
  intro s t r r' added hw hfifo hver hreg hp h hr hadded hreplay
  rw [exec_service_ok hp h hr, List.append_cancel_left_eq] at hadded
  rw [← hadded] at hreplay
  obtain ⟨hread, hwrite⟩ := RefRadio.replay_rd_cons hreplay
  rw [RefRadio.giveBytes_irqFlags hw hfifo r hver] at hread hwrite
  have hlast : t.lastFlags = Memory.read r.reg s.cfg.regs.irqFlags := (List.singleton_inj.1 hread).symm
  have hr' : { r with reg := Memory.write r.reg s.cfg.regs.irqFlags 0#8 } = r' := by
    rw [← writeOneToClear_self, ← RefRadio.takeBytes_irqFlags hw hfifo, ← hlast]
    exact Option.some.inj hwrite
  subst hr'
  exact ⟨hlast, by rw [Memory.read_write hreg, if_pos rfl], fun a ha => by rw [Memory.read_write hreg, if_neg ha]⟩

end Sys2Proof.Machine
end

section
/-! The statements of 45_host_sequences.md: a host program's accesses with no other moves given, one command issued, and
what `send` and `rssi` return. -/

namespace Sys2Proof.Machine

open Sys2Proof.Claims

/-! ### Accesses with no other moves given (log 17) -/

/-- The sequencer's turn in an idle block changes nothing (R272). -/
theorem sequencerStep_of_idle {s : State} (hb : s.busy = false) : sequencerStep s = .next s :=
  if_neg (by simp [hb])

/-- An access to an idle block with no moves before it: the sequencer's turn changes nothing, and the access is
performed. -/
theorem playAccess_nil_of_idle {i : Input} {s t : State} (hw : s.cfg.wf = true) (hb : s.busy = false)
    (h : step (s.schedule i) = .next t) : playAccess [] i s = some t := by
  rw [playAccess, movesBefore, List.headD_nil, List.singleton_append,
    play_cons_of_next (step_scheduled_turn hw (sequencerStep_of_idle hb)), play_cons_of_next h, play]

/-- Surroundings that give no moves are as before when none are left. -/
theorem Surroundings.withMoves_nil {w : Surroundings} (hm : w.moves = []) : { w with moves := [] } = w := by
  rw [← hm]

/-- Where no moves are given, none are given for the later accesses. -/
theorem Surroundings.later_of_nil {w : Surroundings} (hm : w.moves = []) : w.later = w := by
  rw [Surroundings.later, hm, List.tail_nil, Surroundings.withMoves_nil hm]

/-- STATUS.RESULT shows XFER_FAIL after a transaction exactly when it did not complete (R33, R241). -/
theorem isXferFail_statusWord {s : State} {ok : Bool} (h : s.result = endCode ok) :
    isXferFail (statusResult s.statusWord) = !ok := by
  rw [statusResult, State.statusWord_result, h]
  cases ok <;> rfl

/-- The low byte of an RDATA read is RDATA (R35). -/
theorem State.idleValue_rdata_lowByte (s : State) : (s.idleValue .rdata).extractLsb' 0 8 = s.rdata := by
  rw [State.idleValue, BitVec.extractLsb'_setWidth_of_le (by decide), BitVec.extractLsb'_eq_self]

section
variable {α : Type} {w : Surroundings} {s : State} (hw : s.cfg.wf = true) (hb : s.busy = false) (hm : w.moves = [])
include hw hb hm

/-- A write of a host program to an idle block. -/
theorem HostProg.run_hwr_of_idle {off : Nat} (h4 : off % 4 = 0) (hl : off < 0x200) (v : Word) (k : HostProg α) :
    (HostProg.hwr off v k).run w s = k.run w (s.hostWrite off v) := by
  rw [HostProg.run, hm, playAccess_nil_of_idle (i := busWrite off v) hw hb (step_scheduled_write hw h4 hl)]
  simp only [Surroundings.later_of_nil hm]

/-- A read of a host program from an idle block: the program goes on with the register's value. -/
theorem HostProg.run_hrd_of_idle {off : Nat} (h4 : off % 4 = 0) (hl : off < 0x200) (k : Word → HostProg α) :
    (HostProg.hrd off k).run w s = (k (s.idleValue (windowReg off))).run w (s.hostRead off) := by
  rw [HostProg.run, hm, playAccess_nil_of_idle hw hb (step_busRead hw h4 hl)]
  simp only [Surroundings.later_of_nil hm, State.hostRead_readData, State.readValue_of_idle _ hb]

/-- A read of RDATA (R35): the program goes on with the byte. -/
theorem HostProg.run_hrd_rdata_of_idle (f : Byte → α) :
    (HostProg.hrd 0x00C (fun v => .ret (f (v.extractLsb' 0 8)))).run w s = some (f s.rdata, s.hostRead 0x00C) := by
  rw [HostProg.run_hrd_of_idle hw hb hm rfl (by decide), HostProg.run, show windowReg 0x00C = .rdata from rfl,
    State.idleValue_rdata_lowByte]

/-- ISSUE of a command (R99): it is latched and performed, a deferred edge sets IRQP, and the program goes on with the
STATUS read after it. -/
theorem HostProg.run_issue_of_idle {i : Instr} {t : State} (ht : exec i (s.latchCommand (encode i)) = .next t)
    (k : Word → HostProg α) :
    (issue i k).run w s = (k t.releaseEdge.statusWord).run w (t.releaseEdge.hostRead 0x004) := by
  have hturn : sequencerStep (s.latchCommand (encode i)) = .next t.releaseEdge :=
    sequencerStep_of_command rfl (decode_encode i) ht
  obtain ⟨hidle, -⟩ := exec_writtenBy ht
  rw [issue, HostProg.run_hwr_of_idle hw hb hm rfl (by decide), State.hostWrite_cmd _ hb, HostProg.run, hm,
    pollIdle_nil (s := s.latchCommand (encode i)) hw hturn]
  simp only [Surroundings.withMoves_nil hm, State.hostRead_readData,
    State.readValue_of_idle (s := t.releaseEdge) _ hidle]
  rfl

/-- One command and then the rest of the program, or its failing end if the command's transaction failed (R249). -/
theorem HostProg.run_issueAll_singleton_of_idle {i : Instr} {t : State} {ok : Bool}
    (ht : exec i (s.latchCommand (encode i)) = .next t) (hr : t.result = endCode ok) (fail k : HostProg α) :
    (issueAll isXferFail fail [i] k).run w s = (if ok then k else fail).run w (t.releaseEdge.hostRead 0x004) := by
  rw [issueAll, HostProg.run_issue_of_idle hw hb hm ht, isXferFail_statusWord (s := t.releaseEdge) hr]
  cases ok <;> rfl

end

/-! ### `send` (R220) -/

/-- Settles O58: `send` tests the length before it makes any access. -/
theorem sendRejectsABadLengthWithoutIo : Obligations.SendRejectsABadLengthWithoutIo := by
  intro p h bound payload w s hlen
  rw [send, if_pos (show _ ∨ Config.maxLen < _ from hlen), HostProg.run]

/-! ### `rssi` (R232, R249) -/

/-- RDREG just latched in an idle block, as one record over the state before the CMD write (R32, R111). -/
theorem exec_rdreg_of_latched (a : RegAddr) {s : State} (hb : s.busy = false) :
    exec (.rdreg a) (s.latchCommand (encode (.rdreg a))) = .next { s with
      cmdl := encode (.rdreg a)
      rdata := s.misoByte 0
      result := endCode s.answersOk
      csN := true
      trace := s.trace ++ [.rd a 1 [s.misoByte 0] s.answersOk]
      radio := s.radio.tail
      draws := s.draws + 2 } := by
  rw [rdregReadsOneByteIntoRdata, hb]
  rfl

/-- Settles O59: RDREG is issued once; if its transaction completed, one more read takes RDATA, and if it failed, `rssi`
ends without one. -/
theorem rssiIsTheRawByteLess157 : Obligations.RssiIsTheRawByteLess157 := by
  intro w s hw hb hm
  have hexec := exec_rdreg_of_latched (regAddr s.cfg.regs.rssi) hb
  rw [rssi, HostProg.run_issueAll_singleton_of_idle hw hb hm hexec rfl]
  cases hok : s.answersOk with
  | true =>
    have hread (u : State) (hu : u.cfg.wf = true) (hidle : u.busy = false) :=
      HostProg.run_hrd_rdata_of_idle hu hidle hm (fun b => Except.ok (ε := HostOutcome) ((b.toNat : Int) - 157))
    exact ⟨_, hread _ hw hb, rfl⟩
  | false => exact ⟨_, rfl, rfl⟩

end Sys2Proof.Machine
end

section
/-! The statements of 60_exceptions.md: what each move of an agent answers, the ways a step can end, and the overrun. -/

namespace Sys2Proof.Machine

/-! ### What a move answers (R71, R246, R247) -/

/-- An access that is not admitted breaks the width, the alignment or the range of R70. -/
theorem BusAccess.bad_of_not_admitted {acc : BusAccess} (h : acc.admitted = false) :
    acc.width ≠ 32 ∨ acc.off % 4 ≠ 0 ∨ 0x200 ≤ acc.off := by
  simp only [BusAccess.admitted, Bool.and_eq_false_iff, decide_eq_false_iff_not, Nat.not_lt] at h
  exact or_assoc.1 h

/-- An admitted access answers a next state. -/
theorem hostAccess_answers {acc : BusAccess} (h : acc.admitted = true) (s : State) :
    ∃ t, hostAccess acc s = .next t := by
  rw [hostAccess, if_pos h]
  cases acc.write with
  | none => exact ⟨_, rfl⟩
  | some v => exact ⟨_, rfl⟩

/-- Every admitted move answers a next state: the sequencer because every command does (`exec_answers`), the host
because its access is admitted. -/
theorem agentStep_answers {i : Input} (h : admittedMove i = true) (s : State) : ∃ t, agentStep i s = .next t := by
  cases i with
  | sequencer =>
    obtain ⟨t, ht, -⟩ := sequencerStep_idle s
    exact ⟨t, ht⟩
  | sequencerWithEdge =>
    obtain ⟨t, ht, -⟩ := sequencerStep_idle s
    exact ⟨t.setIrqp, by rw [agentStep, ht]; rfl⟩
  | host acc => exact hostAccess_answers h s
  | edge => exact ⟨_, rfl⟩
  | edgeDuring => exact ⟨_, rfl⟩
  | clock d => exact ⟨_, rfl⟩
  | blockReset => exact ⟨_, rfl⟩

/-- Only an access of the host can be a move that is not admitted. -/
theorem exists_bad_access_of_not_admittedMove {i : Input} (h : admittedMove i = false) :
    ∃ acc, i = .host acc ∧ acc.admitted = false := by
  cases i with
  | host acc => exact ⟨acc, rfl, h⟩
  | sequencer | sequencerWithEdge | edge | edgeDuring | clock | blockReset => cases h

/-! ### The ways a step ends (R71, R246, R247) -/

/-- In a configuration that may not run, a step is refused (R246). -/
theorem step_of_not_wf {s : State} (hw : s.cfg.wf = false) : step s = .refused .refusedConfiguration := by
  rw [step_eq, hw]
  rfl

/-- An admitted move in a configuration that may run answers a next state. -/
theorem step_answers {s : State} (hw : s.cfg.wf = true) (ha : admittedMove s.nextInput = true) :
    ∃ t, step s = .next t := by
  rw [step_eq, if_pos hw]
  exact agentStep_answers ha s.popInput

/-- A step is refused for its configuration, or answers a next state, or stops at a host bus error. -/
theorem step_ends (s : State) :
    (s.cfg.wf = false ∧ step s = .refused .refusedConfiguration) ∨ (∃ t, step s = .next t) ∨
      ∃ acc, s.nextInput = .host acc ∧ step s = .fault (.hostBusError acc.off) ∧
        (acc.width ≠ 32 ∨ acc.off % 4 ≠ 0 ∨ 0x200 ≤ acc.off) := by
  cases hw : s.cfg.wf with
  | false => exact .inl ⟨rfl, step_of_not_wf hw⟩
  | true =>
    cases ha : admittedMove s.nextInput with
    | true => exact .inr (.inl (step_answers hw ha))
    | false =>
      obtain ⟨acc, hn, hadm⟩ := exists_bad_access_of_not_admittedMove ha
      have hbad := BusAccess.bad_of_not_admitted hadm
      exact .inr (.inr ⟨acc, hn, badHostAccessIsABusError s acc hw hn hbad, hbad⟩)

/-- Settles O39, by the ways a step ends. -/
theorem onlyBusErrorsAndBadConfigurationsStop : Obligations.OnlyBusErrorsAndBadConfigurationsStop := by
  refine fun s => ⟨step_of_not_wf, step_answers, fun f hf => ?_, fun f hf => ?_⟩
  · rcases step_ends s with ⟨-, hr⟩ | ⟨t, ht⟩ | ⟨acc, hn, he, hbad⟩
    · cases hr.symm.trans hf
    · cases ht.symm.trans hf
    · cases he.symm.trans hf
      exact ⟨acc, hn, rfl, hbad⟩
  · rcases step_ends s with ⟨hw, -⟩ | ⟨t, ht⟩ | ⟨acc, -, he, -⟩
    · exact hw
    · cases ht.symm.trans hf
    · cases he.symm.trans hf

/-! ### The overrun (R47, R245) -/

/-- Settles O44: the write is an admitted access (`step_write`), and an overrun only sets OVR
(`State.hostWrite_overrun`). -/
theorem overrunDropsTheWriteAndSetsOvr : Obligations.OverrunDropsTheWriteAndSetsOvr := by
  intro s off v hw hn hb ho
  have h4 : off % 4 = 0 := by omega
  have hl : off < 0x200 := by omega
  have hreg : off = 0x000 ∨ off = 0x010 ∨ 0x100 ≤ off := by omega
  refine ⟨s.popInput.setOvr, ?_, rfl⟩
  rw [step_write hw hn h4 hl, State.hostWrite_overrun (s := s.popInput) v hb hreg]

end Sys2Proof.Machine
end

section
/-! The statements of 70_reset_and_hazards.md: block reset, the state right after reset, and the idle block. -/

namespace Sys2Proof.Machine

/-! ### Block reset (R270, R271) -/

/-- A step on the move of the reset input. -/
theorem step_of_blockReset {s : State} (hw : s.cfg.wf = true) (hn : s.nextInput = .blockReset) :
    step s = .next s.popInput.blockReset := by
  rw [step_eq, if_pos hw, hn, agentStep]

/-- Block reset leaves the radio's reset line, where there is one, deasserted (R34, R50). -/
theorem State.blockReset_radioRstN {s : State} (hl : s.cfg.hasResetLine = true) :
    s.blockReset.pins.radioRstN = some true :=
  if_pos hl

/-- The state right after reset is one that block reset leaves as it is. -/
theorem State.blockReset_reset : State.reset.blockReset = State.reset := rfl

/-- Settles O48: the step is block reset of the rest of the schedule (`step_of_blockReset`), whose elements are those of
the `State.blockReset_*` lemmas; BUF has no listed byte. -/
theorem blockResetSetsEveryElement : Obligations.BlockResetSetsEveryElement := by
  intro s hw hn
  have hpin (hl : s.cfg.hasResetLine = true) : s.popInput.blockReset.pins.radioRstN = some true :=
    State.blockReset_radioRstN (s := s.popInput) hl
  refine ⟨_, step_of_blockReset hw hn, ?_⟩
  simpa [unlistedByte] using hpin

/-- Settles O49: the state right after reset is its own block reset (`State.blockReset_reset`), so it has the elements
that block reset gives. -/
theorem resetStateHoldsTheSpecsValues : Obligations.ResetStateHoldsTheSpecsValues := by
  unfold Obligations.ResetStateHoldsTheSpecsValues
  rw [← State.blockReset_reset]
  simp [unlistedByte]

/-! ### The idle block (R272) -/

/-- With nothing scheduled it is the sequencer's turn (R76). -/
theorem State.nextInput_of_nil {s : State} (h : s.inputs = []) : s.nextInput = .sequencer := by
  rw [State.nextInput, h, List.headD_nil]

/-- With nothing scheduled there is no move to take. -/
theorem State.popInput_of_nil {s : State} (h : s.inputs = []) : s.popInput = s := by
  rw [State.popInput, h, List.tail_nil, ← h]

/-- Settles O50: it is the sequencer's turn, which performs nothing with BUSY = 0 (`sequencerStep_of_idle`). -/
theorem idleBlockPerformsNothing : Obligations.IdleBlockPerformsNothing := by
  intro s hw hb hi
  rw [step_of_sequencer hw (State.nextInput_of_nil hi), State.popInput_of_nil hi, sequencerStep_of_idle hb]

end Sys2Proof.Machine
end
